-- ==== Sys2Proof/Word.lean ====
section
/-! DEFINITION. The widths of the hardware's values (spec 10_state.md R20, 00_scope.md R9): bytes, words, 12-bit
addresses, and the 4-bit fields of an instruction word, which name a register or count something and so are numbers
below 16. -/

namespace Sys2Proof

/-- A general register, a timer or a memory cell: 8 bits (R7, R20). -/
abbrev Byte := BitVec 8

/-- An instruction word, the index register or the program counter: 16 bits (R7, R20). -/
abbrev Word := BitVec 16

/-- The immediate NNN, a 12-bit address (R82). -/
abbrev Addr12 := BitVec 12

/-- A 4-bit field of an instruction word: N, or one hex digit of a pattern (R11, R82). -/
abbrev Nibble := Fin 16

/-- A register index, in 0..15 by construction (R21). -/
abbrev Reg := Fin 16

/-- A keypad key, 0..15 (R33). -/
abbrev Key := Fin 16

/-- VF, the sixteenth register, which several instructions also write as a flag (R22). -/
abbrev vf : Reg := 15

end Sys2Proof
end

