-- ==== Sys2Proof/Config.lean ====
section
/-! DEFINITION. What is fixed for one machine, and the values the spec leaves open: the three targets, the font tables
and where they lie (20_memory.md R66 to R68, 92_eei_decisions.md D17), and the random bytes (41_load_arith_logic.md
R133, D29). Every open value is an opaque constant with no body, so no proof can learn what it is. -/

namespace Sys2Proof

/-- The instruction set variant that Reset selects (R2, R3). -/
inductive Target where
  | chip8
  | schip
  | xochip
deriving DecidableEq, Repr

/-- The two font bases and the number of big digits (R66, R68). -/
structure FontLayout where
  smallBase : Nat
  bigBase   : Nat
  bigDigits : Nat
deriving DecidableEq, Repr

/-- Bytes of the small table: 16 digits of 5 rows (R67). -/
def smallFontSize : Nat := 80

/-- The first address that is not in the interpreter-owned low region (R65), the program entry point (R7). -/
def entryPoint : Nat := 0x200

/-- Bytes of the big table: 10 rows a digit (R68). -/
def FontLayout.bigSize (f : FontLayout) : Nat := 10 * f.bigDigits

/-- R66 and D17: both tables lie wholly below 0x200, do not overlap, and the big table has 10 or 16 digits. -/
abbrev FontLayout.Valid (f : FontLayout) : Prop :=
  (f.bigDigits = 10 ∨ f.bigDigits = 16) ∧
  f.smallBase + smallFontSize ≤ entryPoint ∧
  f.bigBase + f.bigSize ≤ entryPoint ∧
  (f.smallBase + smallFontSize ≤ f.bigBase ∨ f.bigBase + f.bigSize ≤ f.smallBase)

/-- A layout from unconstrained numbers: which table comes first, how many big digits there are, and the gaps before
the first table and between the two, each reduced to the room that is left. Every result is `Valid`, and every valid
layout is such a result (Laws/Config.lean), so leaving the four numbers free leaves exactly R66's choice free. -/
def FontLayout.ofFree (sixteen smallFirst : Bool) (gapBefore gapBetween : Nat) : FontLayout :=
  let digits := if sixteen then 16 else 10
  let room := entryPoint - smallFontSize - 10 * digits
  let before := gapBefore % (room + 1)
  let between := gapBetween % (room - before + 1)
  if smallFirst then
    { smallBase := before, bigBase := before + smallFontSize + between, bigDigits := digits }
  else
    { smallBase := before + 10 * digits + between, bigBase := before, bigDigits := digits }

/-- Free (D17): whether BIG_FONT_DIGITS is 16 rather than 10. -/
opaque Config.bigFontHasSixteen : Bool

/-- Free (D17): which of the two tables lies lower. -/
opaque Config.smallFontFirst : Bool

/-- Free (D17): the gap below the lower table. -/
opaque Config.gapBefore : Nat

/-- Free (D17): the gap between the tables. -/
opaque Config.gapBetween : Nat

/-- Free (D17): SMALL_FONT[j], read for j below 80. `conventionalSmallFont` is the default that R67 names. -/
opaque Config.smallFont : Nat → Byte

/-- Free (D17): BIG_FONT[j], read for j below 10 * BIG_FONT_DIGITS. -/
opaque Config.bigFont : Nat → Byte

/-- Free (D29): the random bytes, one for each draw. `Config.rnd n` is the input rnd of the Step that makes the draw
numbered n (State.draws). -/
opaque Config.rnd : Nat → Byte

/-- SMALL_FONT_BASE, BIG_FONT_BASE and BIG_FONT_DIGITS of this machine (R66, R68): some valid layout. -/
def Config.fonts : FontLayout :=
  FontLayout.ofFree Config.bigFontHasSixteen Config.smallFontFirst Config.gapBefore Config.gapBetween

/-- The default small font of R67, which the spec marks as not in its source: no definition of the machine uses it. -/
def conventionalSmallFont : List Byte :=
  [0xF0, 0x90, 0x90, 0x90, 0xF0] ++ [0x20, 0x60, 0x20, 0x20, 0x70] ++
  [0xF0, 0x10, 0xF0, 0x80, 0xF0] ++ [0xF0, 0x10, 0xF0, 0x10, 0xF0] ++
  [0x90, 0x90, 0xF0, 0x10, 0x10] ++ [0xF0, 0x80, 0xF0, 0x10, 0xF0] ++
  [0xF0, 0x80, 0xF0, 0x90, 0xF0] ++ [0xF0, 0x10, 0x20, 0x40, 0x40] ++
  [0xF0, 0x90, 0xF0, 0x90, 0xF0] ++ [0xF0, 0x90, 0xF0, 0x10, 0xF0] ++
  [0xF0, 0x90, 0xF0, 0x90, 0x90] ++ [0xE0, 0x90, 0xE0, 0x90, 0xE0] ++
  [0xF0, 0x80, 0x80, 0x80, 0xF0] ++ [0xE0, 0x90, 0x90, 0x90, 0xE0] ++
  [0xF0, 0x80, 0xF0, 0x80, 0xF0] ++ [0xF0, 0x80, 0xF0, 0x80, 0x80]

/-- The premise a claim about the pixels of a small digit must take (D17: "a proof about pixels of a digit must name
the font it assumes"). -/
def Config.UsesConventionalSmallFont : Prop :=
  ∀ j, j < smallFontSize → conventionalSmallFont[j]? = some (Config.smallFont j)

end Sys2Proof
end

