-- ==== Sys2Proof/Syntax.lean ====
section
/-! DEFINITION. The instructions: one constructor for each row of spec/opcode_table.json (30_encoding.md R86), with the
fields the row gives it (R81, R82). A 4-bit field is a number below 16, NN a byte, NNN a 12-bit address, NNNN a word. -/

namespace Sys2Proof

inductive Instr where
  /-- 00CN, SCD n: scroll down (R165). -/
  | scd (n : Nibble)
  /-- 00DN, SCU n: scroll up (R166). -/
  | scu (n : Nibble)
  /-- 00E0, CLS: clear the selected planes (R163). -/
  | cls
  /-- 00EE, RET: return from subroutine (R100). -/
  | ret
  /-- 00FB, SCR: scroll right 4 (R167). -/
  | scr
  /-- 00FC, SCL: scroll left 4 (R168). -/
  | scl
  /-- 00FD, EXIT (R200). -/
  | exit
  /-- 00FE, LOW: low-res (R171). -/
  | low
  /-- 00FF, HIGH: high-res (R172). -/
  | high
  /-- 1NNN, JP nnn (R101). -/
  | jp (nnn : Addr12)
  /-- 2NNN, CALL nnn (R102). -/
  | call (nnn : Addr12)
  /-- 3XNN, SE Vx, nn (R106). -/
  | seImm (x : Reg) (nn : Byte)
  /-- 4XNN, SNE Vx, nn (R107). -/
  | sneImm (x : Reg) (nn : Byte)
  /-- 5XY0, SE Vx, Vy (R108). -/
  | seReg (x y : Reg)
  /-- 5XY2, LD [I], Vx-Vy: dump a register range (R149). -/
  | saveRange (x y : Reg)
  /-- 5XY3, LD Vx-Vy, [I]: load a register range (R150). -/
  | loadRange (x y : Reg)
  /-- 6XNN, LD Vx, nn (R120). -/
  | ldImm (x : Reg) (nn : Byte)
  /-- 7XNN, ADD Vx, nn (R121). -/
  | addImm (x : Reg) (nn : Byte)
  /-- 8XY0, LD Vx, Vy (R122). -/
  | ldReg (x y : Reg)
  /-- 8XY1, OR Vx, Vy (R123). -/
  | or (x y : Reg)
  /-- 8XY2, AND Vx, Vy (R124). -/
  | and (x y : Reg)
  /-- 8XY3, XOR Vx, Vy (R125). -/
  | xor (x y : Reg)
  /-- 8XY4, ADD Vx, Vy (R126). -/
  | add (x y : Reg)
  /-- 8XY5, SUB Vx, Vy (R127). -/
  | sub (x y : Reg)
  /-- 8XY6, SHR Vx, Vy (R130). -/
  | shr (x y : Reg)
  /-- 8XY7, SUBN Vx, Vy (R128). -/
  | subn (x y : Reg)
  /-- 8XYE, SHL Vx, Vy (R132). -/
  | shl (x y : Reg)
  /-- 9XY0, SNE Vx, Vy (R109). -/
  | sneReg (x y : Reg)
  /-- ANNN, LD I, nnn (R140). -/
  | ldI (nnn : Addr12)
  /-- BNNN, JP V0, nnn (R104). The table gives the row both X and NNN, and X is the top nibble of NNN (R82). -/
  | jpV0 (x : Reg) (nnn : Addr12)
  /-- CXNN, RND Vx, nn (R133). -/
  | rnd (x : Reg) (nn : Byte)
  /-- DXYN, DRW Vx, Vy, n (R170). -/
  | drw (x y : Reg) (n : Nibble)
  /-- EX9E, SKP Vx (R190). -/
  | skp (x : Reg)
  /-- EXA1, SKNP Vx (R191). -/
  | sknp (x : Reg)
  /-- F000 NNNN, LDL I, nnnn: the one four-byte instruction (R141). -/
  | ldl (nnnn : Word)
  /-- FN01, PLANE n (R173). -/
  | plane (n : Nibble)
  /-- F002, AUDIO (R201). -/
  | audio
  /-- FX07, LD Vx, DT (R193). -/
  | ldVxDt (x : Reg)
  /-- FX0A, LD Vx, K (R192). -/
  | ldVxK (x : Reg)
  /-- FX15, LD DT, Vx (R194). -/
  | ldDtVx (x : Reg)
  /-- FX18, LD ST, Vx (R195). -/
  | ldStVx (x : Reg)
  /-- FX1E, ADD I, Vx (R142). -/
  | addI (x : Reg)
  /-- FX29, LD F, Vx: small font address (R143). -/
  | ldF (x : Reg)
  /-- FX30, LD HF, Vx: big font address (R144). -/
  | ldHf (x : Reg)
  /-- FX33, LD B, Vx: store decimal digits (R145). -/
  | ldB (x : Reg)
  /-- FX3A, PITCH Vx (R202). -/
  | pitch (x : Reg)
  /-- FX55, LD [I], Vx: dump V0..VX (R147). -/
  | saveRegs (x : Reg)
  /-- FX65, LD Vx, [I]: load V0..VX (R148). -/
  | loadRegs (x : Reg)
  /-- FX75, LD R, Vx (R203). -/
  | saveFlags (x : Reg)
  /-- FX85, LD Vx, R (R204). -/
  | loadFlags (x : Reg)
deriving DecidableEq, Repr

end Sys2Proof
end

