-- ==== Sys2Proof/Machine/State.lean ====
section
/-! DEFINITION. The state of the core (10_state.md R20: "The state of the core is exactly this tuple"), the reasons a
step can stop, and the state after reset (R39). One field is the model's own and no element of R20: `draws`, which
numbers the random bytes. -/

namespace Sys2Proof.Machine

/-- The display resolution mode (R30). -/
inductive Mode where
  /-- Logical size 64x32. -/
  | lores
  /-- Logical size 128x64. -/
  | hires
deriving DecidableEq, Repr

/-- The two bit-planes, plane 1 and plane 2 (R13, R29). -/
inductive PlaneId where
  | p1
  | p2
deriving DecidableEq, Repr

/-- One plane: 64 rows of 128 one-bit pixels (R29). Row 0 is the top row, bit x of a row is column x. -/
abbrev Plane := Vector (BitVec 128) 64

/-- Main memory as a sparse list of (address, byte), in the canonical form of `Memory.wf` (20_memory.md R60). -/
abbrev Memory := List Host.Cell

/-- The causes of a fatal error (60_exceptions.md R211). -/
inductive Cause where
  /-- A push finds 15 entries on the call stack. -/
  | stackOverflow
  /-- A pop finds none. -/
  | stackUnderflow
  /-- The instruction does not exist on the selected target. -/
  | unsupportedOnVariant
  /-- The word is no instruction, or one of the placeholders. -/
  | unimplemented
  /-- An address at or above MEM_SIZE(target). -/
  | memoryOutOfRange
  /-- A key index above 15. -/
  | keyIndexOutOfRange
deriving DecidableEq, Repr

structure State where
  /-- V0 to VF (R21). -/
  v : Vector Byte 16
  /-- The index register (R23). -/
  i : Word
  /-- The program counter (R24). -/
  pc : Word
  /-- The sixteen slots of the call stack, of which the last is never written (R25). -/
  stack : Vector Word 16
  /-- How many slots are in use, 0..15 (R25). -/
  sp : Fin 16
  /-- The delay timer (R26). -/
  dt : Byte
  /-- The sound timer (R27). -/
  st : Byte
  /-- Main memory (R28). -/
  mem : Memory
  /-- The buffer of plane 1 (R29). -/
  buf1 : Plane
  /-- The buffer of plane 2 (R29). -/
  buf2 : Plane
  /-- The resolution mode (R30). -/
  mode : Mode
  /-- The plane-selection mask: bit 0 selects plane 1, bit 1 selects plane 2 (R31). -/
  bitplane : BitVec 2
  /-- The display changed since the last render (R32). -/
  dirty : Bool
  /-- Which keys are pressed (R33). -/
  key : Vector Bool 16
  /-- The key-wait latch, `none` for NONE (R34). -/
  waitKey : Option Key
  /-- The selected variant (R35). -/
  target : Target
  /-- A fatal error has occurred (R36). -/
  halted : Bool
  /-- The cause code, 0 for none (R36, R211). -/
  errCode : Byte
  /-- The word of the failing instruction (R36, R212). -/
  errOpcode : Word
  /-- The address of the failing instruction (R36, R212). -/
  errPc : Word
  /-- The model's own field: how many random bytes have been drawn, so that the next is `Config.rnd draws` (log 3). -/
  draws : Nat
deriving DecidableEq, Repr

/-- The reasons for which the machine stops with a fault. There are none, and nothing raises one: every fatal error of
the spec has an entry the spec describes (R213), so it is a next state, with `halted` set. Safe: no step ends here. -/
inductive Fault where
deriving DecidableEq, Repr

/-- The reasons for which an instruction has no meaning. -/
inductive Refusal where
  /-- An instruction of the opcode table without a meaning in this model, raised by its arm of `exec`. Safe: the run
  ends where the hardware goes on. No arm raises it. -/
  | notModelled (mnemonic : String)
deriving DecidableEq, Repr

/-- What a step answers. -/
abbrev Result := Host.Outcome State Fault Refusal

/-- R39 and R240: every element after Reset(t). Memory lists nothing, since an unlisted address reads as its reset
contents, the font bytes included (`Memory.resetByte`). -/
def State.resetTo (t : Target) : State where
  v := Vector.replicate 16 0
  i := 0
  pc := 0x200
  stack := Vector.replicate 16 0
  sp := 0
  dt := 0
  st := 0
  mem := []
  buf1 := Vector.replicate 64 0
  buf2 := Vector.replicate 64 0
  mode := .lores
  bitplane := 1
  dirty := true
  key := Vector.replicate 16 false
  waitKey := none
  target := t
  halted := false
  errCode := 0
  errOpcode := 0
  errPc := 0
  draws := 0

/-- The machine right after reset. The spec's Reset takes the target as an argument; this one is Reset(XOCHIP), the
target on which every instruction that exists on some target executes (DESIGN CHOICE, log 1). -/
def State.reset : State := State.resetTo .xochip

end Sys2Proof.Machine
end

