-- ==== Sys2Proof/Machine/Flags.lean ====
section
/-! DEFINITION. The arithmetic of 41_load_arith_logic.md R134 and the values that VF receives (10_state.md R22). Sums and
differences are computed exactly on numbers and then narrowed. -/

namespace Sys2Proof.Machine

/-- A flag as VF holds it: 0 or 1 (R22). -/
def flagByte (b : Bool) : Byte := if b then 1 else 0

/-- (a + b) mod 256 (R134). -/
def addBytes (a b : Byte) : Byte := BitVec.ofNat 8 (a.toNat + b.toNat)

/-- Carry-out: the exact sum is above 255 (R126, R134). -/
def carryOut (a b : Byte) : Bool := 255 < a.toNat + b.toNat

/-- (a - b) mod 256: a - b where a ≥ b, else a - b + 256 (R134). -/
def subBytes (a b : Byte) : Byte := BitVec.ofNat 8 (a.toNat + 256 - b.toNat)

/-- No borrow: a ≥ b, the inverted polarity of R134 (R127, R128). -/
def noBorrow (a b : Byte) : Bool := b.toNat ≤ a.toNat

/-- s >> 1, the vacated bit 0 (R130). -/
def shiftRightByte (s : Byte) : Byte := s >>> 1

/-- The bit that leaves on the right, bit 0 (R130). -/
def shiftRightOut (s : Byte) : Bool := s.getLsbD 0

/-- (s << 1) mod 256, the vacated bit 0 (R132). -/
def shiftLeftByte (s : Byte) : Byte := s <<< 1

/-- The bit that leaves on the left, bit 7 (R132). -/
def shiftLeftOut (s : Byte) : Bool := s.getLsbD 7

end Sys2Proof.Machine
end

