-- ==== Sys2Proof/WellFormed.lean ====
section
/-! DEFINITION. Which instruction terms stand for an encoding. The operand types hold every bound the encoding has, so
one check is left: BNNN has two fields that share four bits (30_encoding.md R82: "op[11:8] serves twice: as the top
nibble of NNN and as the register index X"). -/

namespace Sys2Proof

/-- R82: the X of BNNN is the top nibble of its NNN. Every other term is an encoding as it stands. -/
def Instr.wellFormed : Instr → Bool
  | .jpV0 x nnn => x.val == nnn.toNat / 256
  | .scd _ | .scu _ | .cls | .ret | .scr | .scl | .exit | .low | .high | .jp _ | .call _
  | .seImm _ _ | .sneImm _ _ | .seReg _ _ | .saveRange _ _ | .loadRange _ _ | .ldImm _ _ | .addImm _ _
  | .ldReg _ _ | .or _ _ | .and _ _ | .xor _ _ | .add _ _ | .sub _ _ | .shr _ _ | .subn _ _ | .shl _ _
  | .sneReg _ _ | .ldI _ | .rnd _ _ | .drw _ _ _ | .skp _ | .sknp _ | .ldl _ | .plane _ | .audio
  | .ldVxDt _ | .ldVxK _ | .ldDtVx _ | .ldStVx _ | .addI _ | .ldF _ | .ldHf _ | .ldB _ | .pitch _
  | .saveRegs _ | .loadRegs _ | .saveFlags _ | .loadFlags _ => true

/-- A term that is the decoding of some word (R82). -/
abbrev Instr.WellFormed (i : Instr) : Prop := i.wellFormed = true

end Sys2Proof
end

