-- ==== Sys2Proof/Decode.lean ====
section
/-! DEFINITION. From bytes to an instruction and back. Words are big-endian (20_memory.md R64). The decoder is the
two-level dispatch of 30_encoding.md R82, R85 and R87: branch on the top nibble, then, for the families 0, 5, 8, 9, E
and F, on the low byte or the low nibble, every fixed bit having to match (D9). The encoder is written from the patterns
of R86. -/

namespace Sys2Proof

/-! ### Fields of a word -/

/-- op[15:12], the primary opcode (R81). -/
def nibble3 (op : Word) : Nibble := Fin.ofNat 16 (op.toNat / 4096)

/-- op[11:8], the X field (R82). -/
def nibble2 (op : Word) : Nibble := Fin.ofNat 16 (op.toNat / 256)

/-- op[7:4], the Y field (R82). -/
def nibble1 (op : Word) : Nibble := Fin.ofNat 16 (op.toNat / 16)

/-- op[3:0], the N field (R82). -/
def nibble0 (op : Word) : Nibble := Fin.ofNat 16 op.toNat

/-- The word with the four hex digits a b c d, a the top one (R11). -/
def wordOfNibbles (a b c d : Nibble) : Word := BitVec.ofNat 16 (4096 * a.val + 256 * b.val + 16 * c.val + d.val)

/-- NN from its two hex digits (R82). -/
def byteOfNibbles (c d : Nibble) : Byte := BitVec.ofNat 8 (16 * c.val + d.val)

/-- NNN from its three hex digits (R82). -/
def addrOfNibbles (b c d : Nibble) : Addr12 := BitVec.ofNat 12 (256 * b.val + 16 * c.val + d.val)

/-- Upper hex digit of NN. -/
def byteHigh (b : Byte) : Nibble := Fin.ofNat 16 (b.toNat / 16)

/-- Lower hex digit of NN. -/
def byteLow (b : Byte) : Nibble := Fin.ofNat 16 b.toNat

/-- Top hex digit of NNN. -/
def addrHigh (a : Addr12) : Nibble := Fin.ofNat 16 (a.toNat / 256)

/-- Middle hex digit of NNN. -/
def addrMid (a : Addr12) : Nibble := Fin.ofNat 16 (a.toNat / 16)

/-- Lowest hex digit of NNN. -/
def addrLow (a : Addr12) : Nibble := Fin.ofNat 16 a.toNat

/-- Big-endian (R64): the byte at the lower address is the upper half. -/
def wordOfBytes (hi lo : Byte) : Word := BitVec.ofNat 16 (256 * hi.toNat + lo.toNat)

/-- The byte a word stores at the lower address (R64). -/
def hiByte (w : Word) : Byte := BitVec.ofNat 8 (w.toNat / 256)

/-- The byte a word stores at the higher address (R64). -/
def loByte (w : Word) : Byte := BitVec.ofNat 8 w.toNat

/-- The word that alone announces a second one (R95). -/
def wideWord : Word := 0xF000

/-! ### Decoding -/

/-- Family 0 (R87): bits 11:8 must be 0, then the low byte selects. -/
def decodeFamily0 (b c d : Nibble) : Option Instr :=
  if b = 0 then
    match c.val, d.val with
    | 0xC, _ => some (.scd d)
    | 0xD, _ => some (.scu d)
    | 0xE, 0x0 => some .cls
    | 0xE, 0xE => some .ret
    | 0xF, 0xB => some .scr
    | 0xF, 0xC => some .scl
    | 0xF, 0xD => some .exit
    | 0xF, 0xE => some .low
    | 0xF, 0xF => some .high
    | _, _ => none
  else none

/-- Family 5 (R87): the low nibble selects. -/
def decodeFamily5 (x y d : Nibble) : Option Instr :=
  match d.val with
  | 0x0 => some (.seReg x y)
  | 0x2 => some (.saveRange x y)
  | 0x3 => some (.loadRange x y)
  | _ => none

/-- Family 8 (R87): the low nibble selects. -/
def decodeFamily8 (x y d : Nibble) : Option Instr :=
  match d.val with
  | 0x0 => some (.ldReg x y)
  | 0x1 => some (.or x y)
  | 0x2 => some (.and x y)
  | 0x3 => some (.xor x y)
  | 0x4 => some (.add x y)
  | 0x5 => some (.sub x y)
  | 0x6 => some (.shr x y)
  | 0x7 => some (.subn x y)
  | 0xE => some (.shl x y)
  | _ => none

/-- Family 9 (R87): the low nibble must be 0. -/
def decodeFamily9 (x y d : Nibble) : Option Instr :=
  match d.val with
  | 0x0 => some (.sneReg x y)
  | _ => none

/-- Family E (R87): the low byte selects. -/
def decodeFamilyE (x c d : Nibble) : Option Instr :=
  match c.val, d.val with
  | 0x9, 0xE => some (.skp x)
  | 0xA, 0x1 => some (.sknp x)
  | _, _ => none

/-- Family F (R87): the low byte selects; 00 and 02 need X = 0. -/
def decodeFamilyF (x c d : Nibble) (operand : Word) : Option Instr :=
  match c.val, d.val with
  | 0x0, 0x0 => if x = 0 then some (.ldl operand) else none
  | 0x0, 0x1 => some (.plane x)
  | 0x0, 0x2 => if x = 0 then some .audio else none
  | 0x0, 0x7 => some (.ldVxDt x)
  | 0x0, 0xA => some (.ldVxK x)
  | 0x1, 0x5 => some (.ldDtVx x)
  | 0x1, 0x8 => some (.ldStVx x)
  | 0x1, 0xE => some (.addI x)
  | 0x2, 0x9 => some (.ldF x)
  | 0x3, 0x0 => some (.ldHf x)
  | 0x3, 0x3 => some (.ldB x)
  | 0x3, 0xA => some (.pitch x)
  | 0x5, 0x5 => some (.saveRegs x)
  | 0x6, 0x5 => some (.loadRegs x)
  | 0x7, 0x5 => some (.saveFlags x)
  | 0x8, 0x5 => some (.loadFlags x)
  | _, _ => none

/-- The primary dispatch of R87 on the four hex digits of the word; `operand` is the word after it, which only F000
NNNN takes. -/
def decodeNibbles (a b c d : Nibble) (operand : Word) : Option Instr :=
  match a.val with
  | 0x0 => decodeFamily0 b c d
  | 0x1 => some (.jp (addrOfNibbles b c d))
  | 0x2 => some (.call (addrOfNibbles b c d))
  | 0x3 => some (.seImm b (byteOfNibbles c d))
  | 0x4 => some (.sneImm b (byteOfNibbles c d))
  | 0x5 => decodeFamily5 b c d
  | 0x6 => some (.ldImm b (byteOfNibbles c d))
  | 0x7 => some (.addImm b (byteOfNibbles c d))
  | 0x8 => decodeFamily8 b c d
  | 0x9 => decodeFamily9 b c d
  | 0xA => some (.ldI (addrOfNibbles b c d))
  | 0xB => some (.jpV0 b (addrOfNibbles b c d))
  | 0xC => some (.rnd b (byteOfNibbles c d))
  | 0xD => some (.drw b c d)
  | 0xE => decodeFamilyE b c d
  | _ => decodeFamilyF b c d operand

/-- R85: the instruction of a word, none where it matches no row. It depends on nothing but the word (and, for F000,
on the operand word that becomes NNNN). -/
def decodeWord (op operand : Word) : Option Instr :=
  decodeNibbles (nibble3 op) (nibble2 op) (nibble1 op) (nibble0 op) operand

/-- Why bytes are no instruction. -/
inductive DecodeError where
  /-- Fewer than two bytes: no instruction word. -/
  | noWord
  /-- The word is 0xF000 and its second word is missing (R95). -/
  | noOperand
  /-- The word matches no row of R86 (R93). -/
  | unmatched (op : Word)
deriving DecidableEq, Repr

/-- An instruction and the bytes after it, or the reason for which there is none. -/
inductive Decoded where
  | instr (i : Instr) (rest : List Byte)
  | reject (e : DecodeError)
deriving DecidableEq, Repr

/-- The instruction at the head of a list of bytes. It takes four bytes when the first word is exactly 0xF000 and two
otherwise (R80, R95). -/
def decode : List Byte → Decoded
  | hi :: lo :: rest =>
    let op := wordOfBytes hi lo
    if op = wideWord then
      match rest with
      | h :: l :: rest' =>
        match decodeWord op (wordOfBytes h l) with
        | some i => .instr i rest'
        | none => .reject (.unmatched op)
      | _ => .reject .noOperand
    else
      match decodeWord op 0 with
      | some i => .instr i rest
      | none => .reject (.unmatched op)
  | _ => .reject .noWord

/-! ### Encoding -/

/-- The instruction word of R86's pattern column, with the fields in their places (R81). -/
def opcodeOf : Instr → Word
  | .scd n => wordOfNibbles 0x0 0x0 0xC n
  | .scu n => wordOfNibbles 0x0 0x0 0xD n
  | .cls => wordOfNibbles 0x0 0x0 0xE 0x0
  | .ret => wordOfNibbles 0x0 0x0 0xE 0xE
  | .scr => wordOfNibbles 0x0 0x0 0xF 0xB
  | .scl => wordOfNibbles 0x0 0x0 0xF 0xC
  | .exit => wordOfNibbles 0x0 0x0 0xF 0xD
  | .low => wordOfNibbles 0x0 0x0 0xF 0xE
  | .high => wordOfNibbles 0x0 0x0 0xF 0xF
  | .jp nnn => wordOfNibbles 0x1 (addrHigh nnn) (addrMid nnn) (addrLow nnn)
  | .call nnn => wordOfNibbles 0x2 (addrHigh nnn) (addrMid nnn) (addrLow nnn)
  | .seImm x nn => wordOfNibbles 0x3 x (byteHigh nn) (byteLow nn)
  | .sneImm x nn => wordOfNibbles 0x4 x (byteHigh nn) (byteLow nn)
  | .seReg x y => wordOfNibbles 0x5 x y 0x0
  | .saveRange x y => wordOfNibbles 0x5 x y 0x2
  | .loadRange x y => wordOfNibbles 0x5 x y 0x3
  | .ldImm x nn => wordOfNibbles 0x6 x (byteHigh nn) (byteLow nn)
  | .addImm x nn => wordOfNibbles 0x7 x (byteHigh nn) (byteLow nn)
  | .ldReg x y => wordOfNibbles 0x8 x y 0x0
  | .or x y => wordOfNibbles 0x8 x y 0x1
  | .and x y => wordOfNibbles 0x8 x y 0x2
  | .xor x y => wordOfNibbles 0x8 x y 0x3
  | .add x y => wordOfNibbles 0x8 x y 0x4
  | .sub x y => wordOfNibbles 0x8 x y 0x5
  | .shr x y => wordOfNibbles 0x8 x y 0x6
  | .subn x y => wordOfNibbles 0x8 x y 0x7
  | .shl x y => wordOfNibbles 0x8 x y 0xE
  | .sneReg x y => wordOfNibbles 0x9 x y 0x0
  | .ldI nnn => wordOfNibbles 0xA (addrHigh nnn) (addrMid nnn) (addrLow nnn)
  | .jpV0 x nnn => wordOfNibbles 0xB x (addrMid nnn) (addrLow nnn)
  | .rnd x nn => wordOfNibbles 0xC x (byteHigh nn) (byteLow nn)
  | .drw x y n => wordOfNibbles 0xD x y n
  | .skp x => wordOfNibbles 0xE x 0x9 0xE
  | .sknp x => wordOfNibbles 0xE x 0xA 0x1
  | .ldl _ => wordOfNibbles 0xF 0x0 0x0 0x0
  | .plane n => wordOfNibbles 0xF n 0x0 0x1
  | .audio => wordOfNibbles 0xF 0x0 0x0 0x2
  | .ldVxDt x => wordOfNibbles 0xF x 0x0 0x7
  | .ldVxK x => wordOfNibbles 0xF x 0x0 0xA
  | .ldDtVx x => wordOfNibbles 0xF x 0x1 0x5
  | .ldStVx x => wordOfNibbles 0xF x 0x1 0x8
  | .addI x => wordOfNibbles 0xF x 0x1 0xE
  | .ldF x => wordOfNibbles 0xF x 0x2 0x9
  | .ldHf x => wordOfNibbles 0xF x 0x3 0x0
  | .ldB x => wordOfNibbles 0xF x 0x3 0x3
  | .pitch x => wordOfNibbles 0xF x 0x3 0xA
  | .saveRegs x => wordOfNibbles 0xF x 0x5 0x5
  | .loadRegs x => wordOfNibbles 0xF x 0x6 0x5
  | .saveFlags x => wordOfNibbles 0xF x 0x7 0x5
  | .loadFlags x => wordOfNibbles 0xF x 0x8 0x5

/-- The words of an instruction, first word first: two for F000 NNNN, one for every other (R80). -/
def wordsOf (i : Instr) : List Word :=
  match i with
  | .ldl nnnn => [opcodeOf i, nnnn]
  | _ => [opcodeOf i]

/-- The bytes of an instruction, lowest address first, each word big-endian (R64). -/
def encode (i : Instr) : List Byte :=
  (wordsOf i).flatMap fun w => [hiByte w, loByte w]

/-- How many bytes an instruction takes (R80, R95). -/
def lengthOf (i : Instr) : Nat := 2 * (wordsOf i).length

/-! ### The host's numbering of an instruction's bits -/

/-- The four bytes of an instruction whose bits are w: the first word is bits 15..0, the second bits 31..16, and every
bit from `nbits` on is 0. -/
def tableBytes (nbits w : Nat) : List Byte :=
  let bits := w % 2 ^ nbits
  let first : Word := BitVec.ofNat 16 bits
  let second : Word := BitVec.ofNat 16 (bits / 65536)
  [hiByte first, loByte first, hiByte second, loByte second]

/-- What the decoder reads from the instruction whose bits are w, numbered as spec/opcode_table.json numbers them. -/
def decodeTableWord (nbits w : Nat) : Option Instr :=
  match decode (tableBytes nbits w) with
  | .instr i _ => some i
  | .reject _ => none

end Sys2Proof
end

