-- ==== Sys2Proof/Machine/Quirks.lean ====
section
/-! DEFINITION. What depends on the selected target: the memory size and the five named quirks (00_scope.md R7, R8,
92_eei_decisions.md D2), and the check that an instruction exists on the target (30_encoding.md R92). -/

namespace Sys2Proof.Machine

/-- MEM_SIZE(target) in bytes (R7, R60). -/
def memSize : Target → Nat
  | .chip8 => 4096
  | .schip => 4096
  | .xochip => 65536

/-- Q_SHIFT_SRC_VY: 8XY6 and 8XYE shift VY (R8, R131). -/
def qShiftSrcVy : Target → Bool
  | .chip8 => true
  | .schip => false
  | .xochip => true

/-- Q_JUMP_VX: BNNN adds VX instead of V0 (R8, R104). -/
def qJumpVx : Target → Bool
  | .chip8 => false
  | .schip => true
  | .xochip => true

/-- Q_INDEX_INC: FX55 and FX65 advance I to I+X+1 (R8, R147, R148). -/
def qIndexInc : Target → Bool
  | .chip8 => true
  | .schip => false
  | .xochip => false

/-- Q_DRAW_WRAP: sprite pixels past an edge wrap instead of being clipped (R8, R170). -/
def qDrawWrap : Target → Bool
  | .chip8 => false
  | .schip => false
  | .xochip => true

/-- Q_SKIP_WIDE: a skip jumps over all four bytes of F000 NNNN (R8, R105). -/
def qSkipWide : Target → Bool
  | .chip8 => false
  | .schip => false
  | .xochip => true

/-- The targets column of R86 for a row that names SCHIP and XOCHIP (R92). -/
def hasSuperChip : Target → Bool
  | .chip8 => false
  | .schip => true
  | .xochip => true

/-- The targets column of R86 for a row that names XOCHIP alone (R92). -/
def hasXoChip : Target → Bool
  | .chip8 => false
  | .schip => false
  | .xochip => true

end Sys2Proof.Machine
end

