-- ==== Sys2Proof/Machine/Memory.lean ====
section
/-! DEFINITION. The byte array of 20_memory.md R60 as a sparse list, and its two accesses. Addresses are unbounded
numbers (R62, 92_eei_decisions.md D3); whether an address exists is asked by the access primitives of Ops.lean. -/

namespace Sys2Proof.Machine

/-- What an unlisted address reads as: its contents after reset (R240, R65), which are the two font tables in the low
region and 0 everywhere else. -/
def Memory.resetByte (a : Nat) : Byte :=
  if entryPoint ≤ a then 0
  else if Config.fonts.smallBase ≤ a ∧ a < Config.fonts.smallBase + smallFontSize then
    Config.smallFont (a - Config.fonts.smallBase)
  else if Config.fonts.bigBase ≤ a ∧ a < Config.fonts.bigBase + Config.fonts.bigSize then
    Config.bigFont (a - Config.fonts.bigBase)
  else 0

/-- The byte at an address (R62). -/
def Memory.read : Memory → Nat → Byte
  | [], a => Memory.resetByte a
  | (k, b) :: m, a => if a = k then b else Memory.read m a

/-- A cell put at its place among cells in rising order. -/
def Memory.insertCell (a : Nat) (b : Byte) : Memory → Memory
  | [] => [(a, b)]
  | (k, c) :: m => if a < k then (a, b) :: (k, c) :: m else (k, c) :: Memory.insertCell a b m

/-- The memory with one byte written (R63). The cell is left out where the byte is what an unlisted address reads as. -/
def Memory.write (m : Memory) (a : Nat) (b : Byte) : Memory :=
  let others := m.filter fun c => c.1 != a
  if b = Memory.resetByte a then others else Memory.insertCell a b others

/-- Bytes written to consecutive addresses, in order. -/
def Memory.writeList : Memory → Nat → List Byte → Memory
  | m, _, [] => m
  | m, a, b :: bs => Memory.writeList (Memory.write m a b) (a + 1) bs

/-- The canonical form: addresses strictly rising, and no entry equal to what an unlisted address reads as. -/
abbrev Memory.wf (m : Memory) : Prop :=
  m.Pairwise (fun c d => c.1 < d.1) ∧ ∀ c ∈ m, c.2 ≠ Memory.resetByte c.1

end Sys2Proof.Machine
end

