-- ==== Sys2Proof/Machine/Ops.lean ====
section
/-! DEFINITION. The named operations that the meanings share: memory access (20_memory.md R62, R63, R75), taking an
exception (60_exceptions.md R211 to R213), the target gate (30_encoding.md R92), the advance of the program counter
(R84, R255), the call stack (10_state.md R25) and the skip helper (40_control_flow.md R105). In each of them the state s
is the one the Step began with, whose pc is the spec's pc0. There is no return from an exception (R217). -/

namespace Sys2Proof.Machine

/-! ### Exceptions -/

/-- The code a cause is reported by (R211). -/
def Cause.code : Cause → Byte
  | .stackOverflow => 1
  | .stackUnderflow => 2
  | .unsupportedOnVariant => 3
  | .unimplemented => 4
  | .memoryOutOfRange => 5
  | .keyIndexOutOfRange => 6

/-- R213: every element keeps the value it had before the Step, pc included, and the report is written. `op` is the
fetched word, 0 where the fetch itself failed (R212). -/
def State.raised (s : State) (c : Cause) (op : Word) : State :=
  { s with halted := true, errCode := c.code, errOpcode := op, errPc := s.pc }

/-- Taking an exception. -/
def raise (c : Cause) (op : Word) (s : State) : Result := .next (s.raised c op)

/-- R92: the instruction executes where its row names the target, and is fatal elsewhere. -/
def gate (supported : Bool) (op : Word) (s : State) (body : Result) : Result :=
  if supported then body else raise .unsupportedOnVariant op s

/-! ### Program counter -/

/-- The address of the next word, (pc0 + 2) mod 2^16 (R84). -/
def State.nextPc (s : State) : Word := s.pc + 2

/-- The state in which an instruction's body runs: pc already past the word (R84, R255). -/
def State.advance (s : State) : State := { s with pc := s.nextPc }

/-! ### Memory -/

/-- The byte at an address. -/
def State.byteAt (s : State) (a : Nat) : Byte := s.mem.read a

/-- The address exists on this target (R60). -/
def State.inMemory (s : State) (a : Nat) : Bool := a < memSize s.target

/-- The big-endian word at an address, without the range check (R62, R64). -/
def State.wordAt (s : State) (a : Nat) : Word := wordOfBytes (s.byteAt a) (s.byteAt (a + 1))

/-- MemRead(addr, 2): none where it raises MemoryOutOfRange (R62). -/
def State.memRead2 (s : State) (a : Nat) : Option Word :=
  if s.inMemory (a + 1) then some (s.wordAt a) else none

/-- Bytes written to consecutive addresses. The whole range is checked before by `withRange` (R75). -/
def State.writeBytes (s : State) (a : Nat) (bs : List Byte) : State := { s with mem := s.mem.writeList a bs }

/-- R75: an instruction checks its whole address range, whose highest address is `last`, before it reads or writes
anything, and raises MemoryOutOfRange where the range does not exist. -/
def withRange (last : Nat) (op : Word) (s : State) (body : Result) : Result :=
  if s.inMemory last then body else raise .memoryOutOfRange op s

/-! ### Call stack -/

/-- Push (R102): none where 15 entries are in use. -/
def State.push (s : State) (w : Word) : Option State :=
  if s.sp = 15 then none else some { s with stack := s.stack.set s.sp w, sp := s.sp + 1 }

/-- Pop (R100): the most recent entry, none where the stack is empty. The slot keeps its contents. -/
def State.pop (s : State) : Option (Word × State) :=
  if s.sp = 0 then none else some (s.stack[s.sp - 1], { s with sp := s.sp - 1 })

/-! ### Skips -/

/-- Skip() (R105). On XOCHIP it looks at the word to be skipped and passes four bytes where that word is 0xF000. -/
def skip (op : Word) (s : State) : Result :=
  if qSkipWide s.target then
    match s.memRead2 s.nextPc.toNat with
    | none => raise .memoryOutOfRange op s
    | some w => .next { s with pc := s.nextPc + (if w = wideWord then 4 else 2) }
  else .next { s with pc := s.nextPc + 2 }

/-- A conditional skip: nothing beyond the advance where the condition does not hold (R105 to R109). -/
def skipIf (cond : Bool) (op : Word) (s : State) : Result :=
  if cond then skip op s else .next s.advance

/-! ### Fetch -/

/-- The address of the second word of a four-byte instruction: (pc0 + 2) mod 2^16 (R76, R141). -/
def State.operandAddr (s : State) : Nat := s.nextPc.toNat

/-- The fetch of R84: the word at pc0, none where it is not wholly in memory. -/
def State.fetch (s : State) : Option Word := s.memRead2 s.pc.toNat

/-- The four bytes the decoder is given: the word at pc0 and the word after it, which only F000 NNNN uses. A byte at an
address that does not exist reads as 0 here and is never used: the meaning of F000 NNNN checks its operand's range
itself (DEDUCED, log 5). -/
def State.fetchBytes (s : State) : List Byte :=
  [s.byteAt s.pc.toNat, s.byteAt (s.pc.toNat + 1), s.byteAt s.operandAddr, s.byteAt (s.operandAddr + 1)]

end Sys2Proof.Machine
end

