-- ==== Sys2Proof/Machine/Operands.lean ====
section
/-! DEFINITION. The operand forms: general registers, register ranges and their transfer through I (42_index_memory.md
R146 to R150), immediates, the shift source (R131), keys (44_keypad_timers.md R196) and the layout of a sprite in memory
(43_display.md R169). -/

namespace Sys2Proof.Machine

/-! ### General registers -/

/-- V[x] (R21): every register is read alike. -/
def State.reg (s : State) (x : Reg) : Byte := s.v[x]

/-- V[x] <- b (R21): none is hardwired. -/
def State.setReg (s : State) (x : Reg) (b : Byte) : State := { s with v := s.v.set x b }

/-- R129: the result goes to V[x] first and the flag to VF after it, so the flag stays where x is VF. -/
def State.setRegFlag (s : State) (x : Reg) (result : Byte) (flag : Bool) : State :=
  (s.setReg x result).setReg vf (flagByte flag)

/-- The source of 8XY6 and 8XYE: VY where the target has the quirk, else VX (R131). -/
def State.shiftSource (s : State) (x y : Reg) : Byte := if qShiftSrcVy s.target then s.reg y else s.reg x

/-- The registers from x to y in the order of their transfer, rising or falling (R149, D27). -/
def regRange (x y : Reg) : List Reg :=
  if x.val ≤ y.val then (List.range (y.val - x.val + 1)).map fun k => Fin.ofNat 16 (x.val + k)
  else (List.range (x.val - y.val + 1)).map fun k => Fin.ofNat 16 (x.val - k)

/-- Registers loaded from consecutive addresses (R148, R150). -/
def State.loadList : State → Nat → List Reg → State
  | s, _, [] => s
  | s, a, x :: xs => State.loadList (s.setReg x (s.byteAt a)) (a + 1) xs

/-! ### Addresses -/

/-- The effective address I + k, an unbounded number (R146, D3). -/
def State.indexed (s : State) (k : Nat) : Nat := s.i.toNat + k

/-- The highest address FX55, FX65, 5XY2 and 5XY3 need: I + abs(X - Y), with Y = 0 for the first two (R76). -/
def State.lastOfRange (s : State) (x y : Reg) : Nat := s.indexed ((x.val - y.val) + (y.val - x.val))

/-- NNN zero-extended to 16 bits (R82). -/
def zeroExtend (nnn : Addr12) : Word := nnn.zeroExtend 16

/-- (w + n) mod 2^16, the sum exact before it is narrowed (R104, R134, R142). -/
def addWord (w n : Nat) : Word := BitVec.ofNat 16 (w + n)

/-- FX55 and FX65 leave I at I+X+1 where the target has the quirk, else as it was (R147, R148). -/
def State.indexAfter (s : State) (x : Reg) : Word := if qIndexInc s.target then addWord s.i.toNat (x.val + 1) else s.i

/-! ### Keys -/

/-- The key a byte names, none where it is above 15 (R196). -/
def keyOfByte (b : Byte) : Option Key := if h : b.toNat < 16 then some ⟨b.toNat, h⟩ else none

/-- The least pressed key (R192, D25). -/
def State.firstKey (s : State) : Option Key := (List.finRange 16).find? fun k => s.key[k]

/-! ### Sprites -/

/-- The shape of a sprite: rows, width, and bytes a plane (R169). -/
structure SpriteShape where
  rows : Nat
  width : Nat
  len : Nat
deriving DecidableEq, Repr

/-- N rows of 8 pixels, or 16 rows of 16 where N is 0 (R169). -/
def spriteShape (n : Nibble) : SpriteShape :=
  if n = 0 then { rows := 16, width := 16, len := 32 } else { rows := n.val, width := 8, len := n.val }

/-- The pixel in row r and column c of the sprite whose bytes begin at `base`: the most significant bit is the leftmost
pixel (R169). -/
def State.spriteBit (s : State) (base width r c : Nat) : Bool :=
  (s.byteAt (base + r * (width / 8) + c / 8)).getLsbD (7 - c % 8)

/-- Sel, the selected planes in ascending order (R162). -/
def selectedPlanes (mask : BitVec 2) : List PlaneId :=
  (if mask.getLsbD 0 then [.p1] else []) ++ (if mask.getLsbD 1 then [.p2] else [])

end Sys2Proof.Machine
end

