-- ==== Sys2Proof/Machine/Arithmetic.lean ====
section
/-! DEFINITION. 41_load_arith_logic.md: register loads, arithmetic, logic, shifts and the random byte. Both operands are
read before anything is written (R129). -/

namespace Sys2Proof.Machine

/-- 6XNN, LD Vx, nn (R120). -/
def execLdImm (x : Reg) (nn : Byte) (s : State) : Result := .next (s.advance.setReg x nn)

/-- 7XNN, ADD Vx, nn (R121): no carry is produced. -/
def execAddImm (x : Reg) (nn : Byte) (s : State) : Result := .next (s.advance.setReg x (addBytes (s.reg x) nn))

/-- 8XY0, LD Vx, Vy (R122). -/
def execLdReg (x y : Reg) (s : State) : Result := .next (s.advance.setReg x (s.reg y))

/-- 8XY1, OR Vx, Vy (R123). -/
def execOr (x y : Reg) (s : State) : Result := .next (s.advance.setReg x (s.reg x ||| s.reg y))

/-- 8XY2, AND Vx, Vy (R124). -/
def execAnd (x y : Reg) (s : State) : Result := .next (s.advance.setReg x (s.reg x &&& s.reg y))

/-- 8XY3, XOR Vx, Vy (R125). -/
def execXor (x y : Reg) (s : State) : Result := .next (s.advance.setReg x (s.reg x ^^^ s.reg y))

/-- 8XY4, ADD Vx, Vy (R126). -/
def execAdd (x y : Reg) (s : State) : Result :=
  .next (s.advance.setRegFlag x (addBytes (s.reg x) (s.reg y)) (carryOut (s.reg x) (s.reg y)))

/-- 8XY5, SUB Vx, Vy (R127): VX minus VY. -/
def execSub (x y : Reg) (s : State) : Result :=
  .next (s.advance.setRegFlag x (subBytes (s.reg x) (s.reg y)) (noBorrow (s.reg x) (s.reg y)))

/-- 8XY7, SUBN Vx, Vy (R128): VY minus VX. -/
def execSubn (x y : Reg) (s : State) : Result :=
  .next (s.advance.setRegFlag x (subBytes (s.reg y) (s.reg x)) (noBorrow (s.reg y) (s.reg x)))

/-- 8XY6, SHR Vx, Vy (R130). -/
def execShr (x y : Reg) (s : State) : Result :=
  .next (s.advance.setRegFlag x (shiftRightByte (s.shiftSource x y)) (shiftRightOut (s.shiftSource x y)))

/-- 8XYE, SHL Vx, Vy (R132). -/
def execShl (x y : Reg) (s : State) : Result :=
  .next (s.advance.setRegFlag x (shiftLeftByte (s.shiftSource x y)) (shiftLeftOut (s.shiftSource x y)))

/-- CXNN, RND Vx, nn (R133). The random byte is the free value `Config.rnd` at the number of this draw, and the next
draw has the next number. -/
def execRnd (x : Reg) (nn : Byte) (s : State) : Result :=
  .next { s.advance.setReg x (Config.rnd s.draws &&& nn) with draws := s.draws + 1 }

end Sys2Proof.Machine
end

