-- ==== Sys2Proof/Machine/ControlFlow.lean ====
section
/-! DEFINITION. 40_control_flow.md: return, jump, call, jump with offset, and the four skips. -/

namespace Sys2Proof.Machine

/-- 00EE, RET (R100). -/
def execRet (s : State) : Result :=
  match s.pop with
  | none => raise .stackUnderflow (opcodeOf .ret) s
  | some (w, t) => .next { t with pc := w }

/-- 1NNN, JP nnn (R101). -/
def execJp (nnn : Addr12) (s : State) : Result := .next { s with pc := zeroExtend nnn }

/-- 2NNN, CALL nnn (R102): the return address is pc0 + 2 (R103). -/
def execCall (nnn : Addr12) (s : State) : Result :=
  match s.push s.nextPc with
  | none => raise .stackOverflow (opcodeOf (.call nnn)) s
  | some t => .next { t with pc := zeroExtend nnn }

/-- BNNN, JP V0, nnn (R104): the sum is kept whole in 16 bits (D15). -/
def execJpV0 (x : Reg) (nnn : Addr12) (s : State) : Result :=
  .next { s with pc := addWord nnn.toNat (s.reg (if qJumpVx s.target then x else 0)).toNat }

/-- 3XNN, SE Vx, nn (R106). -/
def execSeImm (x : Reg) (nn : Byte) (s : State) : Result := skipIf (s.reg x == nn) (opcodeOf (.seImm x nn)) s

/-- 4XNN, SNE Vx, nn (R107). -/
def execSneImm (x : Reg) (nn : Byte) (s : State) : Result := skipIf (s.reg x != nn) (opcodeOf (.sneImm x nn)) s

/-- 5XY0, SE Vx, Vy (R108). -/
def execSeReg (x y : Reg) (s : State) : Result := skipIf (s.reg x == s.reg y) (opcodeOf (.seReg x y)) s

/-- 9XY0, SNE Vx, Vy (R109). -/
def execSneReg (x y : Reg) (s : State) : Result := skipIf (s.reg x != s.reg y) (opcodeOf (.sneReg x y)) s

end Sys2Proof.Machine
end

