-- ==== Sys2Proof/Machine/Display.lean ====
section
/-! DEFINITION. The display plane controller (43_display.md): geometry (R160, R161), pixels, clears, scrolls and sprites.
A row is a word of 128 bits with column x at bit x, so a move to the right is a shift to the left. -/

namespace Sys2Proof.Machine

/-! ### Buffer bits -/

/-- buf[p][y][x] for a plane (R29). -/
def Plane.bit (b : Plane) (y x : Nat) : Bool := if h : y < 64 then b[y].getLsbD x else false

/-- buf[p][y][x] <- v. -/
def Plane.setBit (b : Plane) (y x : Nat) (v : Bool) : Plane :=
  if h : y < 64 then
    let mask : BitVec 128 := 1#128 <<< x
    b.set y (if v then b[y] ||| mask else b[y] &&& ~~~mask)
  else b

/-- A plane of all zeros. -/
def Plane.blank : Plane := Vector.replicate 64 0

/-! ### Geometry -/

/-- The side, in buffer pixels, of a logical pixel (R160). -/
def Mode.scale : Mode → Nat
  | .lores => 2
  | .hires => 1

/-- Logical width W (R160). -/
def Mode.width (m : Mode) : Nat := 128 / m.scale

/-- Logical height H (R160). -/
def Mode.height (m : Mode) : Nat := 64 / m.scale

/-- pix(p, x, y) (R161): a logical pixel is read at its top-left corner. -/
def Plane.pix (m : Mode) (b : Plane) (x y : Nat) : Bool := Plane.bit b (m.scale * y) (m.scale * x)

/-- setpix(p, x, y, v) (R161): the whole block of the logical pixel is written. -/
def Plane.setPix (m : Mode) (b : Plane) (x y : Nat) (v : Bool) : Plane :=
  (List.range m.scale).foldl (fun b dy =>
    (List.range m.scale).foldl (fun b dx => Plane.setBit b (m.scale * y + dy) (m.scale * x + dx) v) b) b

/-! ### Scrolls, by d buffer pixels (R164 to R168) -/

/-- Down (R165): row y receives row y - d. -/
def Plane.scrollDown (d : Nat) (b : Plane) : Plane :=
  Vector.ofFn fun y => if d ≤ y.val then b[y.val - d] else 0

/-- Up (R166): row y receives row y + d. -/
def Plane.scrollUp (d : Nat) (b : Plane) : Plane :=
  Vector.ofFn fun y => if h : y.val + d < 64 then b[y.val + d] else 0

/-- Right (R167): column x receives column x - d. -/
def Plane.scrollRight (d : Nat) (b : Plane) : Plane := Vector.ofFn fun y => b[y] <<< d

/-- Left (R168): column x receives column x + d. -/
def Plane.scrollLeft (d : Nat) (b : Plane) : Plane := Vector.ofFn fun y => b[y] >>> d

/-! ### The planes of a state -/

/-- buf[p]. -/
def State.plane (s : State) : PlaneId → Plane
  | .p1 => s.buf1
  | .p2 => s.buf2

/-- buf[p] <- b. -/
def State.setPlane (s : State) (p : PlaneId) (b : Plane) : State :=
  match p with
  | .p1 => { s with buf1 := b }
  | .p2 => { s with buf2 := b }

/-- An operation applied to each selected plane (R162), with `dirty` set (R174). -/
def State.onSelected (s : State) (f : Plane → Plane) : State :=
  { (selectedPlanes s.bitplane).foldl (fun t p => t.setPlane p (f (t.plane p))) s with dirty := true }

/-- Both planes cleared whatever the mask is, the mode set and `dirty` set (R171, R172). -/
def State.switchMode (s : State) (m : Mode) : State :=
  { s with mode := m, buf1 := Plane.blank, buf2 := Plane.blank, dirty := true }

/-! ### Sprites (R170) -/

/-- Where a sprite is drawn: mode, wrap or clip, and the logical start coordinates. -/
structure Placement where
  mode : Mode
  wrap : Bool
  x0 : Nat
  y0 : Nat
deriving DecidableEq, Repr

/-- The logical pixel under column c and row r of the sprite, none where it is clipped (R170). -/
def Placement.pixel (p : Placement) (r c : Nat) : Option (Nat × Nat) :=
  let x := if p.wrap then (p.x0 + c) % p.mode.width else p.x0 + c
  let y := if p.wrap then (p.y0 + r) % p.mode.height else p.y0 + r
  if x < p.mode.width ∧ y < p.mode.height then some (x, y) else none

/-- One pixel of a sprite toggled, and whether it was set before (R170). -/
def togglePixel (m : Mode) (acc : Plane × Bool) (x y : Nat) : Plane × Bool :=
  (Plane.setPix m acc.1 x y (!Plane.pix m acc.1 x y), acc.2 || Plane.pix m acc.1 x y)

/-- The pixel in row r and column c of the sprite drawn onto a plane and its collision flag (R170). -/
def drawPixel (p : Placement) (sprite : Nat → Nat → Bool) (acc : Plane × Bool) (rc : Nat × Nat) : Plane × Bool :=
  if sprite rc.1 rc.2 then
    match p.pixel rc.1 rc.2 with
    | some (x, y) => togglePixel p.mode acc x y
    | none => acc
  else acc

/-- The rows and columns of a sprite, row by row. -/
def spriteCells (rows width : Nat) : List (Nat × Nat) :=
  (List.range rows).flatMap fun r => (List.range width).map fun c => (r, c)

/-- A whole sprite drawn onto a plane: the new plane, and whether a set pixel was hit (R170). -/
def drawPlane (p : Placement) (shape : SpriteShape) (sprite : Nat → Nat → Bool) (b : Plane) : Plane × Bool :=
  (spriteCells shape.rows shape.width).foldl (drawPixel p sprite) (b, false)

/-- Where DXYN draws (R170): the start coordinates are reduced to the logical screen on every target. -/
def State.placement (s : State) (x y : Reg) : Placement :=
  { mode := s.mode, wrap := qDrawWrap s.target,
    x0 := (s.reg x).toNat % s.mode.width, y0 := (s.reg y).toNat % s.mode.height }

/-- The sprite drawn onto each selected plane, plane Sel[j] reading its bytes at I + j * len (R169, R170), and whether
any plane had a collision. -/
def State.drawSelected (s : State) (x y : Reg) (shape : SpriteShape) : State × Bool :=
  (selectedPlanes s.bitplane).zipIdx.foldl (fun acc pj =>
    let drawn := drawPlane (s.placement x y) shape (s.spriteBit (s.indexed (pj.2 * shape.len)) shape.width)
      (acc.1.plane pj.1)
    (acc.1.setPlane pj.1 drawn.1, acc.2 || drawn.2)) (s, false)

end Sys2Proof.Machine
end

