-- ==== Sys2Proof/Machine/DisplayInstr.lean ====
section
/-! DEFINITION. 43_display.md: clear, scrolls, mode switches, plane selection and the sprite draw. -/

namespace Sys2Proof.Machine

/-- 00E0, CLS (R163): the selected planes, whole. -/
def execCls (s : State) : Result := .next (s.advance.onSelected fun _ => Plane.blank)

/-- 00CN, SCD n (R165). -/
def execScd (n : Nibble) (s : State) : Result :=
  gate (hasSuperChip s.target) (opcodeOf (.scd n)) s <|
    .next (s.advance.onSelected (Plane.scrollDown (s.mode.scale * n.val)))

/-- 00DN, SCU n (R166). -/
def execScu (n : Nibble) (s : State) : Result :=
  gate (hasSuperChip s.target) (opcodeOf (.scu n)) s <|
    .next (s.advance.onSelected (Plane.scrollUp (s.mode.scale * n.val)))

/-- 00FB, SCR (R167): 4 logical pixels. -/
def execScr (s : State) : Result :=
  gate (hasSuperChip s.target) (opcodeOf .scr) s <|
    .next (s.advance.onSelected (Plane.scrollRight (s.mode.scale * 4)))

/-- 00FC, SCL (R168): 4 logical pixels. -/
def execScl (s : State) : Result :=
  gate (hasSuperChip s.target) (opcodeOf .scl) s <|
    .next (s.advance.onSelected (Plane.scrollLeft (s.mode.scale * 4)))

/-- 00FE, LOW (R171). -/
def execLow (s : State) : Result :=
  gate (hasSuperChip s.target) (opcodeOf .low) s <| .next (s.advance.switchMode .lores)

/-- 00FF, HIGH (R172). -/
def execHigh (s : State) : Result :=
  gate (hasSuperChip s.target) (opcodeOf .high) s <| .next (s.advance.switchMode .hires)

/-- FN01, PLANE n (R173): a mask above 3 names a plane that does not exist (D24). -/
def execPlane (n : Nibble) (s : State) : Result :=
  gate (hasXoChip s.target) (opcodeOf (.plane n)) s <|
    if 3 < n.val then raise .unimplemented (opcodeOf (.plane n)) s
    else .next { s.advance with bitplane := BitVec.ofNat 2 n.val }

/-- DXYN, DRW Vx, Vy, n (R170). With no plane selected nothing is read, so nothing is checked. -/
def execDrw (x y : Reg) (n : Nibble) (s : State) : Result :=
  let shape := spriteShape n
  let np := (selectedPlanes s.bitplane).length
  let drawn := s.advance.drawSelected x y shape
  let done : Result := .next { drawn.1.setReg vf (flagByte drawn.2) with dirty := true }
  if np = 0 then done
  else withRange (s.indexed (np * shape.len - 1)) (opcodeOf (.drw x y n)) s done

end Sys2Proof.Machine
end

