-- ==== Sys2Proof/Machine/IndexMemory.lean ====
section
/-! DEFINITION. 42_index_memory.md: the index register, font addresses, decimal digits and the block transfers. -/

namespace Sys2Proof.Machine

/-- ANNN, LD I, nnn (R140). -/
def execLdI (nnn : Addr12) (s : State) : Result := .next { s.advance with i := zeroExtend nnn }

/-- F000 NNNN, LDL I, nnnn (R141): the operand word must be wholly in memory, and pc passes it too. -/
def execLdl (nnnn : Word) (s : State) : Result :=
  gate (hasXoChip s.target) (opcodeOf (.ldl nnnn)) s <|
    withRange (s.operandAddr + 1) (opcodeOf (.ldl nnnn)) s <|
      .next { s with i := nnnn, pc := s.nextPc + 2 }

/-- FX1E, ADD I, Vx (R142): VF is not written. -/
def execAddI (x : Reg) (s : State) : Result := .next { s.advance with i := addWord s.i.toNat (s.reg x).toNat }

/-- FX29, LD F, Vx (R143): the whole byte is the digit (D16). -/
def execLdF (x : Reg) (s : State) : Result :=
  .next { s.advance with i := addWord Config.fonts.smallBase (5 * (s.reg x).toNat) }

/-- FX30, LD HF, Vx (R144): the whole byte is the digit (D16). -/
def execLdHf (x : Reg) (s : State) : Result :=
  gate (hasSuperChip s.target) (opcodeOf (.ldHf x)) s <|
    .next { s.advance with i := addWord Config.fonts.bigBase (10 * (s.reg x).toNat) }

/-- The decimal digits of a byte, hundreds first (R145). -/
def decimalDigits (b : Byte) : List Byte :=
  [BitVec.ofNat 8 (b.toNat / 100), BitVec.ofNat 8 (b.toNat / 10 % 10), BitVec.ofNat 8 (b.toNat % 10)]

/-- FX33, LD B, Vx (R145). -/
def execLdB (x : Reg) (s : State) : Result :=
  withRange (s.indexed 2) (opcodeOf (.ldB x)) s <|
    .next (s.advance.writeBytes (s.indexed 0) (decimalDigits (s.reg x)))

/-- FX55, LD [I], Vx (R147). -/
def execSaveRegs (x : Reg) (s : State) : Result :=
  withRange (s.lastOfRange 0 x) (opcodeOf (.saveRegs x)) s <|
    .next { s.advance.writeBytes (s.indexed 0) ((regRange 0 x).map s.reg) with i := s.indexAfter x }

/-- FX65, LD Vx, [I] (R148). -/
def execLoadRegs (x : Reg) (s : State) : Result :=
  withRange (s.lastOfRange 0 x) (opcodeOf (.loadRegs x)) s <|
    .next { s.advance.loadList (s.indexed 0) (regRange 0 x) with i := s.indexAfter x }

/-- 5XY2, LD [I], Vx-Vy (R149): I is unchanged. -/
def execSaveRange (x y : Reg) (s : State) : Result :=
  gate (hasXoChip s.target) (opcodeOf (.saveRange x y)) s <|
    withRange (s.lastOfRange x y) (opcodeOf (.saveRange x y)) s <|
      .next (s.advance.writeBytes (s.indexed 0) ((regRange x y).map s.reg))

/-- 5XY3, LD Vx-Vy, [I] (R150): I is unchanged. -/
def execLoadRange (x y : Reg) (s : State) : Result :=
  gate (hasXoChip s.target) (opcodeOf (.loadRange x y)) s <|
    withRange (s.lastOfRange x y) (opcodeOf (.loadRange x y)) s <|
      .next (s.advance.loadList (s.indexed 0) (regRange x y))

end Sys2Proof.Machine
end

