-- ==== Sys2Proof/Machine/KeypadTimers.lean ====
section
/-! DEFINITION. 44_keypad_timers.md: the key-state skips, the blocking key wait, and the timer registers. -/

namespace Sys2Proof.Machine

/-- EX9E, SKP Vx (R190): the key index is checked first (R196, R215). -/
def execSkp (x : Reg) (s : State) : Result :=
  match keyOfByte (s.reg x) with
  | none => raise .keyIndexOutOfRange (opcodeOf (.skp x)) s
  | some k => skipIf s.key[k] (opcodeOf (.skp x)) s

/-- EXA1, SKNP Vx (R191): the key index is checked first (R196, R215). -/
def execSknp (x : Reg) (s : State) : Result :=
  match keyOfByte (s.reg x) with
  | none => raise .keyIndexOutOfRange (opcodeOf (.sknp x)) s
  | some k => skipIf (!s.key[k]) (opcodeOf (.sknp x)) s

/-- FX0A, LD Vx, K (R192): latch the least pressed key, then complete when that key is up; until then pc is put back to
pc0, so that the next Step runs the instruction again. -/
def execLdVxK (x : Reg) (s : State) : Result :=
  match s.waitKey with
  | none => .next { s with waitKey := s.firstKey }
  | some k =>
    if s.key[k] then .next s
    else .next { s.advance.setReg x (BitVec.ofNat 8 k.val) with waitKey := none }

/-- FX07, LD Vx, DT (R193). -/
def execLdVxDt (x : Reg) (s : State) : Result := .next (s.advance.setReg x s.dt)

/-- FX15, LD DT, Vx (R194). -/
def execLdDtVx (x : Reg) (s : State) : Result := .next { s.advance with dt := s.reg x }

/-- FX18, LD ST, Vx (R195). -/
def execLdStVx (x : Reg) (s : State) : Result := .next { s.advance with st := s.reg x }

end Sys2Proof.Machine
end

