-- ==== Sys2Proof/Machine/Placeholders.lean ====
section
/-! DEFINITION. 45_unimplemented.md R207: the recognised encodings whose effect is to take the exception Unimplemented, on
every target and without a gate before it (92_eei_decisions.md D11). -/

namespace Sys2Proof.Machine

/-- 00FD, EXIT (R200). -/
def execExit (s : State) : Result := raise .unimplemented (opcodeOf .exit) s

/-- F002, AUDIO (R201): no memory is read. -/
def execAudio (s : State) : Result := raise .unimplemented (opcodeOf .audio) s

/-- FX3A, PITCH Vx (R202). -/
def execPitch (x : Reg) (s : State) : Result := raise .unimplemented (opcodeOf (.pitch x)) s

/-- FX75, LD R, Vx (R203). -/
def execSaveFlags (x : Reg) (s : State) : Result := raise .unimplemented (opcodeOf (.saveFlags x)) s

/-- FX85, LD Vx, R (R204). -/
def execLoadFlags (x : Reg) (s : State) : Result := raise .unimplemented (opcodeOf (.loadFlags x)) s

end Sys2Proof.Machine
end

