-- ==== Sys2Proof/Machine/Step.lean ====
section
/-! DEFINITION. The Step event (30_encoding.md R84): fetch, decode, gate and execute. The gate of R92 is in the meanings
of the gated instructions, and the advance of pc is in every meaning. -/

namespace Sys2Proof.Machine

/-- R84: a halted core does nothing (R214), a fetch outside memory raises MemoryOutOfRange with opcode 0 (R212), a word
that matches no row raises Unimplemented (R93), and anything else is executed. -/
def step (s : State) : Host.Outcome State Fault Refusal :=
  if s.halted then .next s
  else
    match s.fetch with
    | none => raise .memoryOutOfRange 0 s
    | some op =>
      match decode s.fetchBytes with
      | .instr i _ => exec i s
      | .reject _ => raise .unimplemented op s

/-- The state with an instruction, whose bits are numbered as spec/opcode_table.json numbers them, stored where the
next Step fetches it: its first word at pc and its second, zero where it has none, at the word after it (log 4). -/
def State.withFetchWord (s : State) (nbits w : Nat) : State :=
  let bytes := tableBytes nbits w
  (s.writeBytes s.pc.toNat (bytes.take 2)).writeBytes s.operandAddr (bytes.drop 2)

end Sys2Proof.Machine
end

