-- ==== Sys2Proof/Machine/Events.lean ====
section
/-! DEFINITION. The host event interface (70_reset_and_hazards.md R244): six atomic events drive the core. Step is `step`;
the others are here, with their outputs, and `runEvents` runs any sequence of them. -/

namespace Sys2Proof.Machine

/-- The status a Load returns (R248). -/
inductive LoadStatus where
  | ok
  | loadTooLarge
deriving DecidableEq, Repr

/-- Reset(t) (R240): accepted in every state, halted or not. The number of the next random byte is no element of the
spec's state and goes on, so that no relation holds between the bytes before and after (D29, log 3). -/
def resetEvent (t : Target) (s : State) : State := { State.resetTo t with draws := s.draws }

/-- Load(bytes) (R248): all of the image or nothing, at 0x200 and up. -/
def loadEvent (bytes : List Byte) (s : State) : LoadStatus × State :=
  if s.halted then (.ok, s)
  else if memSize s.target - entryPoint < bytes.length then (.loadTooLarge, s)
  else (.ok, s.writeBytes entryPoint bytes)

/-- Tick() (60_exceptions.md R231): the output is `tone` (R232). -/
def tickEvent (s : State) : Bool × State :=
  if s.halted then (false, s)
  else
    (decide (0 < s.st.toNat),
      { s with dt := if 0 < s.dt.toNat then s.dt - 1 else s.dt, st := if 0 < s.st.toNat then s.st - 1 else s.st })

/-- SetKey(k, b) (R251). -/
def setKeyEvent (k : Key) (b : Bool) (s : State) : State :=
  if s.halted then s else { s with key := s.key.set k b }

/-- What ReadDisplay returns: both planes and the dirty flag (R252). -/
structure DisplayRead where
  plane1 : Plane
  plane2 : Plane
  dirty : Bool
deriving DecidableEq, Repr

/-- ReadDisplay() (R252): the dirty flag is cleared unless the core is halted. -/
def readDisplayEvent (s : State) : DisplayRead × State :=
  ({ plane1 := s.buf1, plane2 := s.buf2, dirty := s.dirty }, if s.halted then s else { s with dirty := false })

/-- The events of R244. -/
inductive Event where
  | reset (t : Target)
  | load (bytes : List Byte)
  | step
  | tick
  | setKey (k : Key) (b : Bool)
  | readDisplay
deriving DecidableEq, Repr

/-- The outputs of R244. -/
inductive Output where
  | nothing
  | loaded (status : LoadStatus)
  | tone (b : Bool)
  | display (d : DisplayRead)
deriving DecidableEq, Repr

/-- One event (R244). -/
def applyEvent (e : Event) (s : State) : Host.Outcome (State × Output) Fault Refusal :=
  match e with
  | .reset t => .next (resetEvent t s, .nothing)
  | .load bytes => .next ((loadEvent bytes s).2, .loaded (loadEvent bytes s).1)
  | .step =>
    match step s with
    | .next t => .next (t, .nothing)
    | .fault f => .fault f
    | .refused r => .refused r
  | .tick => .next ((tickEvent s).2, .tone (tickEvent s).1)
  | .setKey k b => .next (setKeyEvent k b s, .nothing)
  | .readDisplay => .next ((readDisplayEvent s).2, .display (readDisplayEvent s).1)

/-- A sequence of events, in the order the host issues them (R244). -/
def runEvents : List Event → State → Result
  | [], s => .next s
  | e :: es, s =>
    match applyEvent e s with
    | .next r => runEvents es r.1
    | .fault f => .fault f
    | .refused r => .refused r

/-- run_cycles(n): n Steps with no other event between them (R246). -/
def runCycles (n : Nat) : List Event := List.replicate n .step

/-- What the host observes at any time (R218). -/
structure ErrorReport where
  halted : Bool
  errCode : Byte
  errOpcode : Word
  errPc : Word
deriving DecidableEq, Repr

/-- The outputs halted, err_code, err_opcode and err_pc (R218). -/
def State.report (s : State) : ErrorReport :=
  { halted := s.halted, errCode := s.errCode, errOpcode := s.errOpcode, errPc := s.errPc }

end Sys2Proof.Machine
end

