-- ==== Sys2Proof/Safety.lean ====
section
/-! DEFINITION. What counts as a safe run, in the terms claims use: the running and halted states (60_exceptions.md
R214), the ends of a run (70_reset_and_hazards.md R263), the invariants of 10_state.md R40, and what it is for two
states to agree on a part of the machine. -/

namespace Sys2Proof.Machine

/-- No fatal error has occurred: a claim about a program takes this as part of its postcondition (R214). -/
abbrev State.Running (s : State) : Prop := s.halted = false

/-- The core can fetch at pc: the word there is wholly in memory (R84). -/
abbrev State.CanFetch (s : State) : Prop := s.pc.toNat + 1 < memSize s.target

/-! ### Ends of a run (R263) -/

/-- (a) an error end. -/
abbrev State.ErrorEnd (s : State) : Prop := s.halted = true

/-- (b) the conventional end: the next instruction is a jump to itself. -/
abbrev State.SelfJumpEnd (s : State) : Prop :=
  s.halted = false ∧ ∃ nnn : Addr12, zeroExtend nnn = s.pc ∧ decode s.fetchBytes = .instr (.jp nnn) (s.fetchBytes.drop 2)

/-- A host that treats the exit opcode as a normal stop recognises it by this report (R200, R218). -/
abbrev State.ExitRequested (s : State) : Prop := s.halted = true ∧ s.errCode = 4 ∧ s.errOpcode = 0x00FD

/-! ### Invariants (R40) -/

/-- R175: every aligned 2x2 block of a plane is uniform. -/
def Plane.Uniform (b : Plane) : Prop :=
  ∀ j i, j < 32 → i < 64 →
    Plane.bit b (2 * j) (2 * i + 1) = Plane.bit b (2 * j) (2 * i) ∧
    Plane.bit b (2 * j + 1) (2 * i) = Plane.bit b (2 * j) (2 * i) ∧
    Plane.bit b (2 * j + 1) (2 * i + 1) = Plane.bit b (2 * j) (2 * i)

/-- The memory is in canonical form (the model's choice, log 6) and lists no address that the target does not have
(R60). -/
structure State.MemoryInv (s : State) : Prop where
  canonical : s.mem.wf
  inRange : ∀ c ∈ s.mem, c.1 < memSize s.target

/-- What R40 says of the display. -/
structure State.DisplayInv (s : State) : Prop where
  chip8LowRes : s.target = .chip8 → s.mode = .lores
  oneMask : s.target ≠ .xochip → s.bitplane = 1
  onePlane : s.target ≠ .xochip → s.buf2 = Plane.blank
  uniform : s.mode = .lores → Plane.Uniform s.buf1 ∧ Plane.Uniform s.buf2

/-- What R36, R38 and R40 say of the error report. -/
structure State.ReportInv (s : State) : Prop where
  clear : s.halted = false → s.errCode = 0 ∧ s.errOpcode = 0 ∧ s.errPc = 0
  legal : s.errCode.toNat ≤ 6

/-- R40 as one invariant, with the canonical form of memory, which is the model's choice (log 6). That 0 ≤ SP ≤ 15 holds
by SP's type. -/
structure State.Inv (s : State) : Prop where
  memory : s.MemoryInv
  lastSlot : s.stack[15] = 0
  display : s.DisplayInv
  report : s.ReportInv

/-- R40, last clause: while a key is latched the next instruction is the FX0A that latched it. A Load can break it. -/
def State.LatchInv (s : State) : Prop :=
  s.waitKey ≠ none → s.halted = false ∧ s.CanFetch ∧ ∃ x rest, decode s.fetchBytes = .instr (.ldVxK x) rest

/-! ### Agreement of two states -/

/-- Every byte of memory reads alike. -/
def SameMemory (s t : State) : Prop := ∀ a, t.byteAt a = s.byteAt a

/-- Every byte outside `n` bytes from address `a` reads alike. -/
def SameMemoryOutside (s t : State) (a n : Nat) : Prop := ∀ b, b < a ∨ a + n ≤ b → t.byteAt b = s.byteAt b

/-- Every general register but those listed reads alike. -/
def SameRegsBut (s t : State) (changed : List Reg) : Prop := ∀ r, r ∉ changed → t.reg r = s.reg r

/-- The call stack is alike. -/
structure SameStack (s t : State) : Prop where
  stack : t.stack = s.stack
  sp : t.sp = s.sp

/-- Both timers are alike. -/
structure SameTimers (s t : State) : Prop where
  dt : t.dt = s.dt
  st : t.st = s.st

/-- The display is alike, the dirty flag included. -/
structure SameDisplay (s t : State) : Prop where
  buf1 : t.buf1 = s.buf1
  buf2 : t.buf2 = s.buf2
  mode : t.mode = s.mode
  bitplane : t.bitplane = s.bitplane
  dirty : t.dirty = s.dirty

/-- The keypad and the latch are alike. -/
structure SameKeypad (s t : State) : Prop where
  key : t.key = s.key
  waitKey : t.waitKey = s.waitKey

/-- Target, halt and error report are alike. -/
structure SameControl (s t : State) : Prop where
  target : t.target = s.target
  halted : t.halted = s.halted
  report : t.report = s.report

/-- Everything but general registers, memory, I, pc and the draw count is alike. -/
structure SameUnits (s t : State) : Prop where
  stack : SameStack s t
  timers : SameTimers s t
  display : SameDisplay s t
  keypad : SameKeypad s t
  control : SameControl s t

/-- The frame of an instruction that works on registers alone: everything but pc, the listed registers and the draw
count is alike. -/
structure RegisterFrame (s t : State) (changed : List Reg) : Prop where
  regs : SameRegsBut s t changed
  index : t.i = s.i
  memory : SameMemory s t
  units : SameUnits s t

/-- t is s after a fatal error: every element as it was, pc included, and the report written (R213). -/
structure RaisedFrom (s t : State) (cause : Cause) (op : Word) : Prop where
  halted : t.halted = true
  code : t.errCode = cause.code
  opcode : t.errOpcode = op
  errPc : t.errPc = s.pc
  rest : { t with halted := s.halted, errCode := s.errCode, errOpcode := s.errOpcode, errPc := s.errPc } = s

end Sys2Proof.Machine
end

