-- ==== Sys2Proof/Certificates/Slice0/Obligations.lean ====
section
/-! DEFINITION. The statements for the provers, with the few words they share. Formulas are written from the spec's rules,
on numbers where the spec writes them on numbers, and not with the model's own arithmetic. -/

open Sys2Proof Sys2Proof.Machine

namespace Sys2Proof.Claims

/-! ### Words the statements share -/

/-- A row of the opcode map: its mask, its match, and which terms are its instructions (30_encoding.md R86). -/
structure OpcodeRow where
  mask : Word
  pattern : Word
  holds : Instr → Bool

/-- 30_encoding.md R86, families 0 to 5. -/
def opcodeMapLow : List OpcodeRow :=
  [⟨0xFFF0, 0x00C0, fun | .scd _ => true | _ => false⟩, ⟨0xFFF0, 0x00D0, fun | .scu _ => true | _ => false⟩,
   ⟨0xFFFF, 0x00E0, fun | .cls => true | _ => false⟩, ⟨0xFFFF, 0x00EE, fun | .ret => true | _ => false⟩,
   ⟨0xFFFF, 0x00FB, fun | .scr => true | _ => false⟩, ⟨0xFFFF, 0x00FC, fun | .scl => true | _ => false⟩,
   ⟨0xFFFF, 0x00FD, fun | .exit => true | _ => false⟩, ⟨0xFFFF, 0x00FE, fun | .low => true | _ => false⟩,
   ⟨0xFFFF, 0x00FF, fun | .high => true | _ => false⟩, ⟨0xF000, 0x1000, fun | .jp _ => true | _ => false⟩,
   ⟨0xF000, 0x2000, fun | .call _ => true | _ => false⟩, ⟨0xF000, 0x3000, fun | .seImm _ _ => true | _ => false⟩,
   ⟨0xF000, 0x4000, fun | .sneImm _ _ => true | _ => false⟩, ⟨0xF00F, 0x5000, fun | .seReg _ _ => true | _ => false⟩,
   ⟨0xF00F, 0x5002, fun | .saveRange _ _ => true | _ => false⟩,
   ⟨0xF00F, 0x5003, fun | .loadRange _ _ => true | _ => false⟩]

/-- 30_encoding.md R86, families 6 to D. -/
def opcodeMapMid : List OpcodeRow :=
  [⟨0xF000, 0x6000, fun | .ldImm _ _ => true | _ => false⟩, ⟨0xF000, 0x7000, fun | .addImm _ _ => true | _ => false⟩,
   ⟨0xF00F, 0x8000, fun | .ldReg _ _ => true | _ => false⟩, ⟨0xF00F, 0x8001, fun | .or _ _ => true | _ => false⟩,
   ⟨0xF00F, 0x8002, fun | .and _ _ => true | _ => false⟩, ⟨0xF00F, 0x8003, fun | .xor _ _ => true | _ => false⟩,
   ⟨0xF00F, 0x8004, fun | .add _ _ => true | _ => false⟩, ⟨0xF00F, 0x8005, fun | .sub _ _ => true | _ => false⟩,
   ⟨0xF00F, 0x8006, fun | .shr _ _ => true | _ => false⟩, ⟨0xF00F, 0x8007, fun | .subn _ _ => true | _ => false⟩,
   ⟨0xF00F, 0x800E, fun | .shl _ _ => true | _ => false⟩, ⟨0xF00F, 0x9000, fun | .sneReg _ _ => true | _ => false⟩,
   ⟨0xF000, 0xA000, fun | .ldI _ => true | _ => false⟩, ⟨0xF000, 0xB000, fun | .jpV0 _ _ => true | _ => false⟩,
   ⟨0xF000, 0xC000, fun | .rnd _ _ => true | _ => false⟩, ⟨0xF000, 0xD000, fun | .drw _ _ _ => true | _ => false⟩]

/-- 30_encoding.md R86, families E and F. -/
def opcodeMapHigh : List OpcodeRow :=
  [⟨0xF0FF, 0xE09E, fun | .skp _ => true | _ => false⟩, ⟨0xF0FF, 0xE0A1, fun | .sknp _ => true | _ => false⟩,
   ⟨0xFFFF, 0xF000, fun | .ldl _ => true | _ => false⟩, ⟨0xF0FF, 0xF001, fun | .plane _ => true | _ => false⟩,
   ⟨0xFFFF, 0xF002, fun | .audio => true | _ => false⟩, ⟨0xF0FF, 0xF007, fun | .ldVxDt _ => true | _ => false⟩,
   ⟨0xF0FF, 0xF00A, fun | .ldVxK _ => true | _ => false⟩, ⟨0xF0FF, 0xF015, fun | .ldDtVx _ => true | _ => false⟩,
   ⟨0xF0FF, 0xF018, fun | .ldStVx _ => true | _ => false⟩, ⟨0xF0FF, 0xF01E, fun | .addI _ => true | _ => false⟩,
   ⟨0xF0FF, 0xF029, fun | .ldF _ => true | _ => false⟩, ⟨0xF0FF, 0xF030, fun | .ldHf _ => true | _ => false⟩,
   ⟨0xF0FF, 0xF033, fun | .ldB _ => true | _ => false⟩, ⟨0xF0FF, 0xF03A, fun | .pitch _ => true | _ => false⟩,
   ⟨0xF0FF, 0xF055, fun | .saveRegs _ => true | _ => false⟩, ⟨0xF0FF, 0xF065, fun | .loadRegs _ => true | _ => false⟩,
   ⟨0xF0FF, 0xF075, fun | .saveFlags _ => true | _ => false⟩,
   ⟨0xF0FF, 0xF085, fun | .loadFlags _ => true | _ => false⟩]

/-- The 50 rows of 30_encoding.md R86. -/
def opcodeMap : List OpcodeRow := opcodeMapLow ++ opcodeMapMid ++ opcodeMapHigh

/-- `(op and mask) = match` (R85). -/
def OpcodeRow.Matches (r : OpcodeRow) (op : Word) : Prop := op &&& r.mask = r.pattern

/-- The cells of R92's table that say UnsupportedOnVariant. -/
def unsupported : Target → Instr → Bool
  | .chip8, .scd _ => true
  | .chip8, .scu _ => true
  | .chip8, .scr => true
  | .chip8, .scl => true
  | .chip8, .low => true
  | .chip8, .high => true
  | .chip8, .ldHf _ => true
  | .chip8, .saveRange _ _ => true
  | .schip, .saveRange _ _ => true
  | .chip8, .loadRange _ _ => true
  | .schip, .loadRange _ _ => true
  | .chip8, .ldl _ => true
  | .schip, .ldl _ => true
  | .chip8, .plane _ => true
  | .schip, .plane _ => true
  | _, _ => false

/-- The cells of R92's table that say Unimplemented. -/
def placeholder : Instr → Bool
  | .exit => true
  | .audio => true
  | .pitch _ => true
  | .saveFlags _ => true
  | .loadFlags _ => true
  | _ => false

/-- The instructions that draw, clear, scroll or switch the mode (R174, less FN01). -/
def changesDisplay : Instr → Bool
  | .cls => true
  | .scd _ => true
  | .scu _ => true
  | .scr => true
  | .scl => true
  | .low => true
  | .high => true
  | .drw _ _ _ => true
  | _ => false

/-- R22's table: the instructions that write VF as a flag. -/
def writesFlag : Instr → Bool
  | .add _ _ => true
  | .sub _ _ => true
  | .subn _ _ => true
  | .shr _ _ => true
  | .shl _ _ => true
  | .drw _ _ _ => true
  | _ => false

/-- R21's table, rows "write V[X]", "write V[0..X]" and "write V[X..Y] or V[Y..X]": the register is a destination. -/
def writesAsDestination : Instr → Reg → Prop
  | .ldImm x _, r => r = x
  | .addImm x _, r => r = x
  | .ldReg x _, r => r = x
  | .or x _, r => r = x
  | .and x _, r => r = x
  | .xor x _, r => r = x
  | .add x _, r => r = x
  | .sub x _, r => r = x
  | .shr x _, r => r = x
  | .subn x _, r => r = x
  | .shl x _, r => r = x
  | .rnd x _, r => r = x
  | .ldVxDt x, r => r = x
  | .ldVxK x, r => r = x
  | .loadRegs x, r => r.val ≤ x.val
  | .loadRange x y, r => (x.val ≤ r.val ∧ r.val ≤ y.val) ∨ (y.val ≤ r.val ∧ r.val ≤ x.val)
  | _, _ => False

/-- The instruction completes in a state of which `post` holds. -/
def Completes (i : Instr) (s : State) (post : State → Prop) : Prop := ∃ t, exec i s = .next t ∧ post t

/-- The instruction takes the fatal error `cause`, reported with its own word. -/
def Raises (i : Instr) (s : State) (cause : Cause) : Prop :=
  ∃ t, exec i s = .next t ∧ RaisedFrom s t cause (opcodeOf i)

/-- pc is at the next instruction and no random byte was drawn. -/
def Advances (s t : State) : Prop := t.pc = s.pc + 2 ∧ t.draws = s.draws

/-- What all the conditional skips do with their condition (40_control_flow.md R105): nothing but the advance where it
does not hold; one instruction passed where it holds, which is the word 0xF000 with its operand on XOCHIP; and on XOCHIP
a fatal error where the word to be skipped is not wholly in memory. -/
def SkipsWhen (i : Instr) (s : State) (cond : Prop) : Prop :=
  (¬cond → Completes i s fun t => RegisterFrame s t [] ∧ Advances s t) ∧
  (cond → s.target ≠ .xochip → Completes i s fun t => RegisterFrame s t [] ∧ t.pc = s.pc + 4 ∧ t.draws = s.draws) ∧
  (cond → s.target = .xochip → (s.pc + 2).toNat + 1 < 65536 → Completes i s fun t =>
    RegisterFrame s t [] ∧ t.draws = s.draws ∧
    (256 * (s.byteAt (s.pc + 2).toNat).toNat + (s.byteAt ((s.pc + 2).toNat + 1)).toNat = 0xF000 → t.pc = s.pc + 6) ∧
    (256 * (s.byteAt (s.pc + 2).toNat).toNat + (s.byteAt ((s.pc + 2).toNat + 1)).toNat ≠ 0xF000 → t.pc = s.pc + 4)) ∧
  (cond → s.target = .xochip → 65536 ≤ (s.pc + 2).toNat + 1 → Raises i s .memoryOutOfRange)

/-- The frame of an instruction that sets I alone. -/
structure IndexFrame (s t : State) : Prop where
  regs : SameRegsBut s t []
  memory : SameMemory s t
  units : SameUnits s t
  advances : Advances s t

/-- The frame of an instruction that stores `n` bytes from address `a` on and changes no register but I. -/
structure StoreFrame (s t : State) (a n : Nat) : Prop where
  regs : SameRegsBut s t []
  memory : SameMemoryOutside s t a n
  units : SameUnits s t
  advances : Advances s t

/-- The frame of a display instruction: everything but the planes, the mode, the mask, `dirty` and the listed registers
is alike. -/
structure DisplayFrame (s t : State) (changed : List Reg) : Prop where
  regs : SameRegsBut s t changed
  index : t.i = s.i
  memory : SameMemory s t
  stack : SameStack s t
  timers : SameTimers s t
  keypad : SameKeypad s t
  control : SameControl s t
  advances : Advances s t

/-- The mask selects the plane: bit 0 for plane 1, bit 1 for plane 2 (10_state.md R31). -/
def selects (mask : BitVec 2) : PlaneId → Prop
  | .p1 => mask.getLsbD 0 = true
  | .p2 => mask.getLsbD 1 = true

/-- The side of a logical pixel in the buffer (43_display.md R160). -/
def side (s : State) : Nat := if s.mode = .lores then 2 else 1

/-- buf[p][y][x] of a state. -/
def pixel (s : State) (p : PlaneId) (y x : Nat) : Bool := Plane.bit (s.plane p) y x

/-- A scroll: in every selected plane the bit at (y, x) is the old bit at the place that `source` names, or 0 where it
names none; the other plane is as before, `dirty` is set, and mode and mask stay (43_display.md R164). -/
def Scrolls (s t : State) (source : Nat → Nat → Option (Nat × Nat)) : Prop :=
  DisplayFrame s t [] ∧ t.mode = s.mode ∧ t.bitplane = s.bitplane ∧ t.dirty = true ∧
  ∀ p y x, y < 64 → x < 128 →
    (selects s.bitplane p → pixel t p y x = ((source y x).map fun q => pixel s p q.1 q.2).getD false) ∧
    (¬selects s.bitplane p → pixel t p y x = pixel s p y x)

/-- rows, width and bytes a plane of a sprite (43_display.md R169). -/
def spriteRows (n : Nibble) : Nat := if n = 0 then 16 else n.val
def spriteWidth (n : Nibble) : Nat := if n = 0 then 16 else 8
def spriteLen (n : Nibble) : Nat := if n = 0 then 32 else n.val

/-- How many planes are selected. -/
def planeCount (mask : BitVec 2) : Nat := (if mask.getLsbD 0 then 1 else 0) + (if mask.getLsbD 1 then 1 else 0)

/-- Where a plane's sprite bytes begin: plane 2's follow plane 1's where both are selected (43_display.md R169). -/
def spriteBase (s : State) (n : Nibble) : PlaneId → Nat
  | .p1 => s.i.toNat
  | .p2 => s.i.toNat + (if s.bitplane.getLsbD 0 then spriteLen n else 0)

/-- A set pixel of the plane's sprite lands on the logical pixel (lx, ly): it wraps on XOCHIP and, elsewhere, is
drawn where it falls, so that none past an edge lands on the screen (43_display.md R170). -/
def spriteLands (s : State) (x y : Reg) (n : Nibble) (p : PlaneId) (lx ly : Nat) : Prop :=
  ∃ r c, r < spriteRows n ∧ c < spriteWidth n ∧
    (s.byteAt (spriteBase s n p + r * (spriteWidth n / 8) + c / 8)).getLsbD (7 - c % 8) = true ∧
    (if s.target = .xochip then
      ((s.reg x).toNat % (128 / side s) + c) % (128 / side s) = lx ∧
      ((s.reg y).toNat % (64 / side s) + r) % (64 / side s) = ly
     else
      (s.reg x).toNat % (128 / side s) + c = lx ∧ (s.reg y).toNat % (64 / side s) + r = ly)

/-- A set pixel of some selected plane's sprite lands on a set logical pixel of the screen (43_display.md R170). -/
def collides (s : State) (x y : Reg) (n : Nibble) : Prop :=
  ∃ p lx ly, selects s.bitplane p ∧ lx < 128 / side s ∧ ly < 64 / side s ∧ spriteLands s x y n p lx ly ∧
    pixel s p (side s * ly) (side s * lx) = true

/-- All sprite bytes of the selected planes are in memory, or no plane is selected (43_display.md R170). -/
def spriteInMemory (s : State) (n : Nibble) : Prop :=
  planeCount s.bitplane = 0 ∨ s.i.toNat + planeCount s.bitplane * spriteLen n - 1 < memSize s.target

/-- The word after the instruction's own is not wholly in memory, on the target that has an instruction of two words. -/
def nextWordOutside (s : State) : Prop := s.target = .xochip ∧ 65536 ≤ (s.pc + 2).toNat + 1

/-- The instruction, its word fetched, needs an address at or above MEM_SIZE (20_memory.md R76, R211): the operand word,
the look-ahead of a skip whose condition holds, or the data. -/
def needsOutside (s : State) : Instr → Prop
  | .ldl _ => nextWordOutside s
  | .seImm x nn => s.reg x = nn ∧ nextWordOutside s
  | .sneImm x nn => s.reg x ≠ nn ∧ nextWordOutside s
  | .seReg x y => s.reg x = s.reg y ∧ nextWordOutside s
  | .sneReg x y => s.reg x ≠ s.reg y ∧ nextWordOutside s
  | .skp x => (∃ k : Key, (s.reg x).toNat = k.val ∧ s.key[k] = true) ∧ nextWordOutside s
  | .sknp x => (∃ k : Key, (s.reg x).toNat = k.val ∧ s.key[k] = false) ∧ nextWordOutside s
  | .saveRange x y => s.target = .xochip ∧ 65536 ≤ s.i.toNat + (max x.val y.val - min x.val y.val)
  | .loadRange x y => s.target = .xochip ∧ 65536 ≤ s.i.toNat + (max x.val y.val - min x.val y.val)
  | .ldB _ => memSize s.target ≤ s.i.toNat + 2
  | .saveRegs x => memSize s.target ≤ s.i.toNat + x.val
  | .loadRegs x => memSize s.target ≤ s.i.toNat + x.val
  | .drw _ _ n => ¬spriteInMemory s n
  | _ => False

/-- k Ticks in a row. -/
def ticks : Nat → State → State
  | 0, s => s
  | k + 1, s => ticks k (tickEvent s).2

/-- Return addresses pushed one after the other. -/
def pushAll : List Word → State → Option State
  | [], s => some s
  | w :: ws, s => (s.push w).bind (pushAll ws)

/-- `n` entries popped, the first popped first. -/
def popAll : Nat → State → Option (List Word × State)
  | 0, s => some ([], s)
  | n + 1, s => s.pop.bind fun r => (popAll n r.2).map fun q => (r.1 :: q.1, q.2)

end Sys2Proof.Claims

open Sys2Proof.Claims

/-! ### Encoding -/

/-- Encoding then decoding gives the instruction back, with every operand at every value: no bit is dropped
(30_encoding.md R80 to R82). -/
def Obligations.EncodedInstructionDecodesBack : Prop :=
  ∀ (i : Instr) (rest : List Byte), i.WellFormed → decode (encode i ++ rest) = .instr i rest

/-- Decoding then encoding gives the bytes back, so no two byte strings mean the same instruction, and what decodes is
well formed (30_encoding.md R81, R82). -/
def Obligations.DecodedBytesEncodeBack : Prop :=
  ∀ (bytes : List Byte) (i : Instr) (rest : List Byte), decode bytes = .instr i rest →
    i.WellFormed ∧ encode i ++ rest = bytes ∧ lengthOf i + rest.length = bytes.length

/-- The two-level dispatch gives exactly the row of the opcode map that the word matches, and none where it matches
none; and no word matches two rows (30_encoding.md R85). -/
def Obligations.DecoderFollowsOpcodeMap : Prop :=
  ∀ op operand : Word,
    (∀ i, decodeWord op operand = some i → ∃ r ∈ opcodeMap, r.Matches op ∧ r.holds i = true) ∧
    (∀ r ∈ opcodeMap, r.Matches op → ∃ i, decodeWord op operand = some i ∧ r.holds i = true) ∧
    opcodeMap.Pairwise fun r q => ¬(r.Matches op ∧ q.Matches op)

/-- A few words written out from the patterns of R86 decode to the instructions they stand for. -/
def Obligations.SampleWordsDecode : Prop :=
  decode [0x60, 0x05] = .instr (.ldImm 0 0x05) [] ∧ decode [0x80, 0x14] = .instr (.add 0 1) [] ∧
  decode [0x22, 0x0C] = .instr (.call 0x20C) [] ∧ decode [0xD1, 0x25] = .instr (.drw 1 2 5) [] ∧
  decode [0xF2, 0x65] = .instr (.loadRegs 2) [] ∧ decode [0xF0, 0x00, 0x12, 0x08] = .instr (.ldl 0x1208) [] ∧
  decode [0x00, 0xC3] = .instr (.scd 3) [] ∧ decode [0xE2, 0xA1] = .instr (.sknp 2) [] ∧
  decode [0xB2, 0x10] = .instr (.jpV0 2 0x210) [] ∧ decode [0x01, 0xE0] = .reject (.unmatched 0x01E0)

/-! ### The Step cycle and fatal errors -/

/-- A Step of a running core whose word at pc is in memory runs the instruction that the bytes at pc decode to: `step` is
`exec` of it at the same state (the meaning itself moves pc past the words). R84 fetches and decodes the word at pc alone,
and R141 reads the second word of F000 NNNN at (pc + 2) mod 2^16 while it executes. That the decoder is given both words
at once is the model's reading, log 5 (30_encoding.md R84, R85; 42_index_memory.md R141). -/
def Obligations.StepRunsDecodedInstruction : Prop :=
  ∀ (s : State) (i : Instr) (rest : List Byte), s.halted = false → s.pc.toNat + 1 < memSize s.target →
    decode [s.byteAt s.pc.toNat, s.byteAt (s.pc.toNat + 1), s.byteAt (s.pc + 2).toNat,
      s.byteAt ((s.pc + 2).toNat + 1)] = .instr i rest →
    step s = exec i s

/-- A fetch whose two bytes are not both in memory raises MemoryOutOfRange with opcode 0 and the address of the fetch
(30_encoding.md R84; 60_exceptions.md R212). -/
def Obligations.FetchOutsideMemoryRaises : Prop :=
  ∀ s : State, s.halted = false → memSize s.target ≤ s.pc.toNat + 1 →
    ∃ t, step s = .next t ∧ RaisedFrom s t .memoryOutOfRange 0

/-- A word that matches no row of the opcode map raises Unimplemented, reported with the word and its address, on every
target, and changes nothing else (30_encoding.md R93). -/
def Obligations.UnmatchedWordRaisesUnimplemented : Prop :=
  ∀ s : State, s.halted = false → s.pc.toNat + 1 < memSize s.target →
    (∀ r ∈ opcodeMap, ¬r.Matches (s.wordAt s.pc.toNat)) →
    ∃ t, step s = .next t ∧ RaisedFrom s t .unimplemented (s.wordAt s.pc.toNat)

/-- A halted core: a Step, a Tick, a Load and a SetKey do nothing, a Tick reports tone 0, a Load answers ok, ReadDisplay
answers the planes and `dirty` and clears nothing, and a Reset leaves the halted state (60_exceptions.md R214). -/
def Obligations.HaltedCoreIgnoresEvents : Prop :=
  ∀ s : State, s.halted = true →
    step s = .next s ∧ tickEvent s = (false, s) ∧
    (∀ bytes, loadEvent bytes s = (.ok, s)) ∧ (∀ k b, setKeyEvent k b s = s) ∧
    readDisplayEvent s = (⟨s.buf1, s.buf2, s.dirty⟩, s) ∧
    (∀ t, (resetEvent t s).halted = false)

/-- Nothing ends a run: every instruction and every Step, in every state, answers a next state. What the spec stops, it
stops by the halted state, which is a state (60_exceptions.md R213, R214). -/
def Obligations.EveryStepAnswersNext : Prop :=
  (∀ (i : Instr) (s : State), ∃ t, exec i s = .next t) ∧ ∀ s : State, ∃ t, step s = .next t

/-- The one way into the halted state is a precise fatal error: all the state is as it was before the Step, pc included,
and the report holds the cause, the fetched word (0 where the fetch failed) and the instruction's own address
(60_exceptions.md R212, R213; the spec's own decision D5). -/
def Obligations.HaltIsPreciseFatalError : Prop :=
  ∀ s t : State, s.halted = false → step s = .next t → t.halted = true →
    ∃ cause op, RaisedFrom s t cause op ∧
      (s.pc.toNat + 1 < memSize s.target → op = s.wordAt s.pc.toNat) ∧
      (memSize s.target ≤ s.pc.toNat + 1 → op = 0)

/-- Each code that an instruction halts with has only the instructions and conditions that R211's table names for it: for
code 5 an address at or above MEM_SIZE that the instruction needs. The fetch's own code 5 and the unmatched word's code 4
are the Step's, in statements of their own (60_exceptions.md R211; the code numbers are the spec's own decision D6). -/
def Obligations.FatalErrorsHaveTheirCauses : Prop :=
  ∀ (i : Instr) (s t : State), s.halted = false → exec i s = .next t → t.halted = true →
    (t.errCode = 1 ∧ (∃ nnn, i = .call nnn) ∧ s.sp = 15) ∨
    (t.errCode = 2 ∧ i = .ret ∧ s.sp = 0) ∨
    (t.errCode = 3 ∧ unsupported s.target i = true) ∨
    (t.errCode = 4 ∧ (placeholder i = true ∨ ∃ n : Nibble, i = .plane n ∧ 3 < n.val ∧ s.target = .xochip)) ∨
    (t.errCode = 5 ∧ needsOutside s i) ∨
    (t.errCode = 6 ∧ ∃ x, (i = .skp x ∨ i = .sknp x) ∧ 15 < (s.reg x).toNat)

/-- An instruction is UnsupportedOnVariant exactly in the cells of R92's table that say so, it then changes nothing but
the report, and nowhere else is that error raised (30_encoding.md R92). -/
def Obligations.GatedInstructionsRaise : Prop :=
  ∀ (i : Instr) (s : State),
    (unsupported s.target i = true → Raises i s .unsupportedOnVariant) ∧
    (unsupported s.target i = false → s.halted = false →
      ¬∃ t op, exec i s = .next t ∧ RaisedFrom s t .unsupportedOnVariant op)

/-- The recognised placeholders take the exception Unimplemented on every target and in every state, reported with their
own word (45_unimplemented.md R200 to R204, R207). -/
def Obligations.PlaceholdersRaiseUnimplemented : Prop :=
  ∀ s : State, Raises .exit s .unimplemented ∧ Raises .audio s .unimplemented ∧
    (∀ x, Raises (.pitch x) s .unimplemented) ∧ (∀ x, Raises (.saveFlags x) s .unimplemented) ∧
    (∀ x, Raises (.loadFlags x) s .unimplemented) ∧
    (∀ t, exec .exit s = .next t → t.ExitRequested)

/-! ### Invariants and whole-machine rules -/

/-- Every Step keeps the invariants of 10_state.md section 12, which the spec derives from its rules, and with them the
canonical form of memory, which is the model's choice, log 6. -/
def Obligations.StepKeepsInvariant : Prop :=
  ∀ s t : State, s.Inv → step s = .next t → t.Inv

/-- The invariants of 10_state.md section 12 and the canonical form of memory, which is the model's choice, log 6, hold
after Reset, for every target. -/
def Obligations.ResetMeetsInvariant : Prop :=
  ∀ t : Target, (State.resetTo t).Inv

/-- Every sequence of host events keeps the invariants of 10_state.md section 12 and the canonical form of memory, which
is the model's choice, log 6, from every state that meets them. -/
def Obligations.EventsKeepInvariant : Prop :=
  ∀ (es : List Event) (s t : State), s.Inv → runEvents es s = .next t → t.Inv

/-- While a key is latched the next instruction is the FX0A that latched it: every Step, Tick, SetKey, ReadDisplay and
Reset keeps that (10_state.md section 12; a Load can break it). -/
def Obligations.LatchedKeyMeansKeyWaitIsNext : Prop :=
  ∀ (e : Event) (s : State) (r : State × Output), s.LatchInv → (∀ bytes, e ≠ .load bytes) →
    applyEvent e s = .next r → r.1.LatchInv

/-- Who writes what: no instruction changes the target or the keys, and every other element but V, pc and the report is
changed only by the instructions that 10_state.md R38 and its other tables name. -/
def Obligations.OnlyNamedInstructionsWrite : Prop :=
  ∀ (i : Instr) (s t : State), exec i s = .next t →
    t.target = s.target ∧ t.key = s.key ∧
    (t.dt ≠ s.dt → ∃ x, i = .ldDtVx x) ∧ (t.st ≠ s.st → ∃ x, i = .ldStVx x) ∧
    (t.sp ≠ s.sp → i = .ret ∨ ∃ nnn, i = .call nnn) ∧ (t.stack ≠ s.stack → ∃ nnn, i = .call nnn) ∧
    (t.mode ≠ s.mode → i = .low ∨ i = .high) ∧ (t.bitplane ≠ s.bitplane → ∃ n, i = .plane n) ∧
    (t.buf1 ≠ s.buf1 ∨ t.buf2 ≠ s.buf2 ∨ t.dirty ≠ s.dirty → changesDisplay i = true) ∧
    (t.waitKey ≠ s.waitKey → ∃ x, i = .ldVxK x) ∧
    (t.mem ≠ s.mem → (∃ x, i = .ldB x) ∨ (∃ x, i = .saveRegs x) ∨ ∃ x y, i = .saveRange x y) ∧
    (t.draws ≠ s.draws → ∃ x nn, i = .rnd x nn) ∧
    (t.i ≠ s.i → (∃ nnn, i = .ldI nnn) ∨ (∃ nnnn, i = .ldl nnnn) ∨ (∃ x, i = .addI x) ∨ (∃ x, i = .ldF x) ∨
      (∃ x, i = .ldHf x) ∨ (s.target = .chip8 ∧ ((∃ x, i = .saveRegs x) ∨ ∃ x, i = .loadRegs x)))

/-- A general register changes only as a destination of R21's table, or, if it is VF, by the instructions of R22's table
that write it as a flag. -/
def Obligations.OnlyDestinationsAndFlagChange : Prop :=
  ∀ (i : Instr) (s t : State) (r : Reg), exec i s = .next t → t.reg r ≠ s.reg r →
    writesAsDestination i r ∨ (r = 15 ∧ writesFlag i = true)

/-- What an instruction that completes leaves in `dirty`: 1 for each of the display instructions but FN01, and the old
value for every other one (43_display.md section 1; the spec's own decision D22). -/
def Obligations.DisplayInstructionsSetDirty : Prop :=
  ∀ (i : Instr) (s t : State), s.halted = false → exec i s = .next t → t.halted = false →
    (changesDisplay i = true → t.dirty = true) ∧ (changesDisplay i = false → t.dirty = s.dirty)

/-! ### Control flow -/

/-- JP sets pc to NNN; BNNN to the whole sum of NNN and V0 on CHIP8, VX on the others (40_control_flow.md R101, R104). -/
def Obligations.JumpsSetPc : Prop :=
  (∀ (nnn : Addr12) (s : State), Completes (.jp nnn) s fun t =>
    t.pc.toNat = nnn.toNat ∧ t.draws = s.draws ∧ RegisterFrame s t []) ∧
  ∀ (x : Reg) (nnn : Addr12) (s : State), (Instr.jpV0 x nnn).WellFormed → Completes (.jpV0 x nnn) s fun t =>
    (s.target = .chip8 → t.pc.toNat = (nnn.toNat + (s.reg 0).toNat) % 65536) ∧
    (s.target ≠ .chip8 → t.pc.toNat = (nnn.toNat + (s.reg x).toNat) % 65536) ∧ t.draws = s.draws ∧ RegisterFrame s t []

/-- CALL pushes pc0 + 2 and jumps, fifteen deep; the sixteenth raises StackOverflow (40_control_flow.md R102). -/
def Obligations.CallPushesReturnAddress : Prop :=
  ∀ (nnn : Addr12) (s : State),
    (s.sp ≠ 15 → Completes (.call nnn) s fun t =>
      t.pc.toNat = nnn.toNat ∧ t.sp.val = s.sp.val + 1 ∧ t.stack[s.sp] = s.pc + 2 ∧
      (∀ j : Fin 16, j ≠ s.sp → t.stack[j] = s.stack[j]) ∧ SameRegsBut s t [] ∧ t.i = s.i ∧ SameMemory s t ∧
      SameTimers s t ∧ SameDisplay s t ∧ SameKeypad s t ∧ SameControl s t ∧ t.draws = s.draws) ∧
    (s.sp = 15 → Raises (.call nnn) s .stackOverflow)

/-- RET pops into pc; on an empty stack it raises StackUnderflow (40_control_flow.md R100). -/
def Obligations.RetPopsReturnAddress : Prop :=
  ∀ s : State,
    (∀ h : s.sp.val ≠ 0, Completes .ret s fun t =>
      t.sp.val = s.sp.val - 1 ∧ t.pc = s.stack[s.sp.val - 1]'(by omega) ∧ t.stack = s.stack ∧
      SameRegsBut s t [] ∧ t.i = s.i ∧ SameMemory s t ∧
      SameTimers s t ∧ SameDisplay s t ∧ SameKeypad s t ∧ SameControl s t ∧ t.draws = s.draws) ∧
    (s.sp.val = 0 → Raises .ret s .stackUnderflow)

/-- The stack is a pure LIFO: as many addresses as there is room for (15 in all), pushed and popped, come back in reverse
order, and the count is as before; one more than there is room for fails (10_state.md R25). -/
def Obligations.StackIsLifo : Prop :=
  ∀ (ws : List Word) (s : State),
    (s.sp.val + ws.length ≤ 15 → ∃ t u, pushAll ws s = some t ∧ popAll ws.length t = some (ws.reverse, u) ∧ u.sp = s.sp) ∧
    (15 < s.sp.val + ws.length → pushAll ws s = none)

/-- A subroutine that returns with the entries in use as it found them comes back to the instruction after the call,
whatever its own calls have left in the slots above them (40_control_flow.md section 1, R100). -/
def Obligations.CallThenReturnComesBack : Prop :=
  ∀ (nnn : Addr12) (s t : State) (v : State), s.sp ≠ 15 → exec (.call nnn) s = .next t →
    v.sp = t.sp → (∀ j : Fin 16, j.val < t.sp.val → v.stack[j] = t.stack[j]) →
    ∃ u, exec .ret v = .next u ∧ u.pc = s.pc + 2 ∧ u.sp = s.sp

/-- 3XNN, 4XNN, 5XY0 and 9XY0 skip on their conditions (40_control_flow.md R105 to R109). -/
def Obligations.RegisterSkips : Prop :=
  ∀ s : State,
    (∀ x nn, SkipsWhen (.seImm x nn) s (s.reg x = nn)) ∧ (∀ x nn, SkipsWhen (.sneImm x nn) s (s.reg x ≠ nn)) ∧
    (∀ x y, SkipsWhen (.seReg x y) s (s.reg x = s.reg y)) ∧ (∀ x y, SkipsWhen (.sneReg x y) s (s.reg x ≠ s.reg y))

/-- EX9E and EXA1 skip while the key VX is down or up, and an index above 15 raises KeyIndexOutOfRange before anything
else (44_keypad_timers.md R190, R191, R196). -/
def Obligations.KeySkips : Prop :=
  ∀ (s : State) (x : Reg),
    (15 < (s.reg x).toNat → Raises (.skp x) s .keyIndexOutOfRange ∧ Raises (.sknp x) s .keyIndexOutOfRange) ∧
    (∀ k : Key, (s.reg x).toNat = k.val →
      SkipsWhen (.skp x) s (s.key[k] = true) ∧ SkipsWhen (.sknp x) s (s.key[k] = false))

/-! ### Registers -/

/-- 6XNN, 7XNN, 8XY0, 8XY1, 8XY2 and 8XY3: their results, and VF not written but as VX (41_load_arith_logic.md R120 to
R125). -/
def Obligations.LoadsAndLogicWriteVx : Prop :=
  ∀ (s : State) (x y : Reg) (nn : Byte),
    (Completes (.ldImm x nn) s fun t => t.reg x = nn ∧ RegisterFrame s t [x] ∧ Advances s t) ∧
    (Completes (.addImm x nn) s fun t =>
      (t.reg x).toNat = ((s.reg x).toNat + nn.toNat) % 256 ∧ RegisterFrame s t [x] ∧ Advances s t) ∧
    (Completes (.ldReg x y) s fun t => t.reg x = s.reg y ∧ RegisterFrame s t [x] ∧ Advances s t) ∧
    (Completes (.or x y) s fun t => t.reg x = s.reg x ||| s.reg y ∧ RegisterFrame s t [x] ∧ Advances s t) ∧
    (Completes (.and x y) s fun t => t.reg x = s.reg x &&& s.reg y ∧ RegisterFrame s t [x] ∧ Advances s t) ∧
    (Completes (.xor x y) s fun t => t.reg x = s.reg x ^^^ s.reg y ∧ RegisterFrame s t [x] ∧ Advances s t)

/-- 8XY4: the sum mod 256 in VX, then the carry in VF, which stays where VX is VF (41_load_arith_logic.md R126, R129). -/
def Obligations.AddSetsCarry : Prop :=
  ∀ (s : State) (x y : Reg), Completes (.add x y) s fun t =>
    (x ≠ 15 → (t.reg x).toNat = ((s.reg x).toNat + (s.reg y).toNat) % 256) ∧
    (255 < (s.reg x).toNat + (s.reg y).toNat → t.reg 15 = 1) ∧
    ((s.reg x).toNat + (s.reg y).toNat ≤ 255 → t.reg 15 = 0) ∧ RegisterFrame s t [x, 15] ∧ Advances s t

/-- 8XY5 and 8XY7: the difference mod 256 in VX, then 1 in VF where there was no borrow (41_load_arith_logic.md R127,
R128, R129). -/
def Obligations.SubtractSetsNoBorrow : Prop :=
  ∀ (s : State) (x y : Reg),
    (Completes (.sub x y) s fun t =>
      (x ≠ 15 → ((t.reg x).toNat + (s.reg y).toNat) % 256 = (s.reg x).toNat) ∧
      ((s.reg y).toNat ≤ (s.reg x).toNat → t.reg 15 = 1) ∧ ((s.reg x).toNat < (s.reg y).toNat → t.reg 15 = 0) ∧
      RegisterFrame s t [x, 15] ∧ Advances s t) ∧
    (Completes (.subn x y) s fun t =>
      (x ≠ 15 → ((t.reg x).toNat + (s.reg x).toNat) % 256 = (s.reg y).toNat) ∧
      ((s.reg x).toNat ≤ (s.reg y).toNat → t.reg 15 = 1) ∧ ((s.reg y).toNat < (s.reg x).toNat → t.reg 15 = 0) ∧
      RegisterFrame s t [x, 15] ∧ Advances s t)

/-- 8XY6 and 8XYE: VY shifted by one into VX on CHIP8 and XOCHIP, VX on SCHIP, and the bit shifted out in VF
(41_load_arith_logic.md R129 to R132). -/
def Obligations.ShiftsMoveByOne : Prop :=
  ∀ (s : State) (x y : Reg) (src : Byte),
    (s.target = .schip → src = s.reg x) → (s.target ≠ .schip → src = s.reg y) →
    (Completes (.shr x y) s fun t =>
      (x ≠ 15 → (t.reg x).toNat = src.toNat / 2) ∧ (t.reg 15).toNat = src.toNat % 2 ∧
      RegisterFrame s t [x, 15] ∧ Advances s t) ∧
    (Completes (.shl x y) s fun t =>
      (x ≠ 15 → (t.reg x).toNat = 2 * src.toNat % 256) ∧ (t.reg 15).toNat = src.toNat / 128 ∧
      RegisterFrame s t [x, 15] ∧ Advances s t)

/-- CXNN: VX gets the Step's random byte under the mask NN, whatever byte that is, so its bits are 0 wherever NN's are.
That the byte is `Config.rnd` at the number of the draw is the model's form of a free input, log 3
(41_load_arith_logic.md R133). -/
def Obligations.RandomByteIsMasked : Prop :=
  ∀ (s : State) (x : Reg) (nn : Byte), Completes (.rnd x nn) s fun t =>
    t.reg x = Config.rnd s.draws &&& nn ∧ t.reg x &&& ~~~nn = 0 ∧ t.draws = s.draws + 1 ∧ t.pc = s.pc + 2 ∧
    RegisterFrame s t [x]

/-- FX07, FX15 and FX18 copy between VX and the timers (44_keypad_timers.md R193 to R195). -/
def Obligations.TimerRegisterTransfers : Prop :=
  ∀ (s : State) (x : Reg),
    (Completes (.ldVxDt x) s fun t => t.reg x = s.dt ∧ RegisterFrame s t [x] ∧ Advances s t) ∧
    (Completes (.ldDtVx x) s fun t => t.dt = s.reg x ∧ t.st = s.st ∧ SameRegsBut s t [] ∧ t.i = s.i ∧ SameMemory s t ∧
      SameStack s t ∧ SameDisplay s t ∧ SameKeypad s t ∧ SameControl s t ∧ Advances s t) ∧
    (Completes (.ldStVx x) s fun t => t.st = s.reg x ∧ t.dt = s.dt ∧ SameRegsBut s t [] ∧ t.i = s.i ∧ SameMemory s t ∧
      SameStack s t ∧ SameDisplay s t ∧ SameKeypad s t ∧ SameControl s t ∧ Advances s t)

/-! ### The index register and memory -/

/-- ANNN, FX1E, FX29 and, where the target has it, FX30: the new I, VF and all other registers not written, no memory
access; on CHIP8 FX30 raises UnsupportedOnVariant (42_index_memory.md R140, R142 to R144). -/
def Obligations.IndexArithmetic : Prop :=
  ∀ s : State,
    (∀ nnn : Addr12, Completes (.ldI nnn) s fun t => t.i.toNat = nnn.toNat ∧ IndexFrame s t) ∧
    (∀ x, Completes (.addI x) s fun t => t.i.toNat = (s.i.toNat + (s.reg x).toNat) % 65536 ∧ IndexFrame s t) ∧
    (∀ x, Completes (.ldF x) s fun t =>
      t.i.toNat = (Config.fonts.smallBase + 5 * (s.reg x).toNat) % 65536 ∧ IndexFrame s t) ∧
    (∀ x, s.target ≠ .chip8 → Completes (.ldHf x) s fun t =>
      t.i.toNat = (Config.fonts.bigBase + 10 * (s.reg x).toNat) % 65536 ∧ IndexFrame s t) ∧
    (∀ x, s.target = .chip8 → Raises (.ldHf x) s .unsupportedOnVariant)

/-- F000 NNNN: on XOCHIP I gets the word after it and pc passes four bytes, unless the operand word is not wholly in
memory, which raises MemoryOutOfRange with I and pc unchanged; on the others it raises UnsupportedOnVariant. Said of the
Step on the bytes in memory and of the decoded instruction (42_index_memory.md R141). -/
def Obligations.WideLoadReadsItsOperand : Prop :=
  (∀ s : State, s.halted = false → s.pc.toNat + 1 < memSize s.target → s.wordAt s.pc.toNat = 0xF000 →
    (s.target = .xochip → (s.pc + 2).toNat + 1 < 65536 → ∃ t, step s = .next t ∧
      t.i.toNat = 256 * (s.byteAt (s.pc + 2).toNat).toNat + (s.byteAt ((s.pc + 2).toNat + 1)).toNat ∧
      t.pc = s.pc + 4 ∧ t.draws = s.draws ∧ SameRegsBut s t [] ∧ SameMemory s t ∧ SameUnits s t) ∧
    (s.target = .xochip → 65536 ≤ (s.pc + 2).toNat + 1 → ∃ t, step s = .next t ∧
      RaisedFrom s t .memoryOutOfRange 0xF000) ∧
    (s.target ≠ .xochip → ∃ t, step s = .next t ∧ RaisedFrom s t .unsupportedOnVariant 0xF000)) ∧
  ∀ (nnnn : Word) (s : State), s.target = .xochip → (s.pc + 2).toNat + 1 < 65536 →
    Completes (.ldl nnnn) s fun t => t.i = nnnn ∧ t.pc = s.pc + 4 ∧ t.draws = s.draws ∧ SameRegsBut s t [] ∧
      SameMemory s t ∧ SameUnits s t

/-- FX33: the hundreds, tens and ones of VX at I, I + 1 and I + 2, all three in memory or nothing written
(42_index_memory.md R145). -/
def Obligations.DecimalDigitsAreStored : Prop :=
  ∀ (s : State) (x : Reg),
    (s.i.toNat + 2 < memSize s.target → Completes (.ldB x) s fun t =>
      (t.byteAt (s.indexed 0)).toNat = (s.reg x).toNat / 100 ∧
      (t.byteAt (s.indexed 1)).toNat = (s.reg x).toNat / 10 % 10 ∧
      (t.byteAt (s.indexed 2)).toNat = (s.reg x).toNat % 10 ∧
      t.i = s.i ∧ StoreFrame s t (s.indexed 0) 3) ∧
    (memSize s.target ≤ s.i.toNat + 2 → Raises (.ldB x) s .memoryOutOfRange)

/-- FX55: V0 to VX at I and up, all in memory or nothing written; I advances to I + X + 1 on CHIP8 alone
(42_index_memory.md R147). -/
def Obligations.RegistersAreDumped : Prop :=
  ∀ (s : State) (x : Reg),
    (s.i.toNat + x.val < memSize s.target → Completes (.saveRegs x) s fun t =>
      (∀ k : Reg, k.val ≤ x.val → t.byteAt (s.indexed k.val) = s.reg k) ∧
      (s.target = .chip8 → t.i.toNat = (s.i.toNat + x.val + 1) % 65536) ∧ (s.target ≠ .chip8 → t.i = s.i) ∧
      StoreFrame s t (s.indexed 0) (x.val + 1)) ∧
    (memSize s.target ≤ s.i.toNat + x.val → Raises (.saveRegs x) s .memoryOutOfRange)

/-- FX65: V0 to VX from I and up, all in memory or none loaded; I advances to I + X + 1 on CHIP8 alone
(42_index_memory.md R148). -/
def Obligations.RegistersAreLoaded : Prop :=
  ∀ (s : State) (x : Reg),
    (s.i.toNat + x.val < memSize s.target → Completes (.loadRegs x) s fun t =>
      (∀ k : Reg, k.val ≤ x.val → t.reg k = s.byteAt (s.i.toNat + k.val)) ∧
      (∀ k : Reg, x.val < k.val → t.reg k = s.reg k) ∧
      (s.target = .chip8 → t.i.toNat = (s.i.toNat + x.val + 1) % 65536) ∧ (s.target ≠ .chip8 → t.i = s.i) ∧
      SameMemory s t ∧ SameUnits s t ∧ Advances s t) ∧
    (memSize s.target ≤ s.i.toNat + x.val → Raises (.loadRegs x) s .memoryOutOfRange)

/-- 5XY2 on XOCHIP: VX to VY at I and up, in rising or falling order, all in memory or nothing written; I stays;
on the other targets it raises UnsupportedOnVariant (42_index_memory.md R149). -/
def Obligations.RegisterRangeIsDumped : Prop :=
  ∀ (s : State) (x y : Reg),
    (s.target ≠ .xochip → Raises (.saveRange x y) s .unsupportedOnVariant) ∧
    (s.target = .xochip →
      (s.i.toNat + (max x.val y.val - min x.val y.val) < 65536 → Completes (.saveRange x y) s fun t =>
        (∀ k r : Reg, k.val ≤ max x.val y.val - min x.val y.val →
          (x.val ≤ y.val → r.val = x.val + k.val) → (y.val < x.val → r.val + k.val = x.val) →
          t.byteAt (s.indexed k.val) = s.reg r) ∧
        t.i = s.i ∧ StoreFrame s t (s.indexed 0) (max x.val y.val - min x.val y.val + 1)) ∧
      (65536 ≤ s.i.toNat + (max x.val y.val - min x.val y.val) → Raises (.saveRange x y) s .memoryOutOfRange))

/-- 5XY3 on XOCHIP: VX to VY from I and up, in rising or falling order, all in memory or none loaded; I stays;
on the other targets it raises UnsupportedOnVariant (42_index_memory.md R150). -/
def Obligations.RegisterRangeIsLoaded : Prop :=
  ∀ (s : State) (x y : Reg),
    (s.target ≠ .xochip → Raises (.loadRange x y) s .unsupportedOnVariant) ∧
    (s.target = .xochip →
      (s.i.toNat + (max x.val y.val - min x.val y.val) < 65536 → Completes (.loadRange x y) s fun t =>
        (∀ k r : Reg, k.val ≤ max x.val y.val - min x.val y.val →
          (x.val ≤ y.val → r.val = x.val + k.val) → (y.val < x.val → r.val + k.val = x.val) →
          t.reg r = s.byteAt (s.i.toNat + k.val)) ∧
        (∀ r : Reg, r.val < min x.val y.val ∨ max x.val y.val < r.val → t.reg r = s.reg r) ∧
        t.i = s.i ∧ SameMemory s t ∧ SameUnits s t ∧ Advances s t) ∧
      (65536 ≤ s.i.toNat + (max x.val y.val - min x.val y.val) → Raises (.loadRange x y) s .memoryOutOfRange))

/-- Two memories in canonical form that read alike at every address are the same data. -/
def Obligations.CanonicalMemoriesAreEqual : Prop :=
  ∀ m n : Memory, m.wf → n.wf → (∀ a, m.read a = n.read a) → m = n

/-! ### The display -/

/-- 00E0: each selected plane is all 0, the other is as before, in either mode (43_display.md R163). -/
def Obligations.ClearBlanksSelectedPlanes : Prop :=
  ∀ s : State, Completes .cls s fun t => Scrolls s t fun _ _ => none

/-- 00CN and 00DN move the selected planes down or up by N logical pixels; on CHIP8 they raise UnsupportedOnVariant
(43_display.md R165, R166). -/
def Obligations.VerticalScrolls : Prop :=
  ∀ (s : State) (n : Nibble),
    (s.target = .chip8 → Raises (.scd n) s .unsupportedOnVariant ∧ Raises (.scu n) s .unsupportedOnVariant) ∧
    (s.target ≠ .chip8 →
      (Completes (.scd n) s fun t =>
        Scrolls s t fun y x => if side s * n.val ≤ y then some (y - side s * n.val, x) else none) ∧
      (Completes (.scu n) s fun t =>
        Scrolls s t fun y x => if y + side s * n.val ≤ 63 then some (y + side s * n.val, x) else none))

/-- 00FB and 00FC move the selected planes right or left by 4 logical pixels; on CHIP8 they raise UnsupportedOnVariant
(43_display.md R167, R168). -/
def Obligations.HorizontalScrolls : Prop :=
  ∀ s : State,
    (s.target = .chip8 → Raises .scr s .unsupportedOnVariant ∧ Raises .scl s .unsupportedOnVariant) ∧
    (s.target ≠ .chip8 →
      (Completes .scr s fun t => Scrolls s t fun y x => if side s * 4 ≤ x then some (y, x - side s * 4) else none) ∧
      (Completes .scl s fun t =>
        Scrolls s t fun y x => if x + side s * 4 ≤ 127 then some (y, x + side s * 4) else none))

/-- 00FE and 00FF set the mode and clear both planes whatever the mask is, which stays; on CHIP8 they raise
UnsupportedOnVariant (43_display.md R171, R172). -/
def Obligations.ModeSwitchClearsBothPlanes : Prop :=
  ∀ s : State,
    (s.target = .chip8 → Raises .low s .unsupportedOnVariant ∧ Raises .high s .unsupportedOnVariant) ∧
    (s.target ≠ .chip8 →
      (Completes .low s fun t => t.mode = .lores ∧ (∀ p y x, pixel t p y x = false) ∧ t.dirty = true ∧
        t.bitplane = s.bitplane ∧ DisplayFrame s t []) ∧
      (Completes .high s fun t => t.mode = .hires ∧ (∀ p y x, pixel t p y x = false) ∧ t.dirty = true ∧
        t.bitplane = s.bitplane ∧ DisplayFrame s t []))

/-- FN01 on XOCHIP sets the mask to N and nothing else, `dirty` included; N above 3 raises Unimplemented; on the other
targets it raises UnsupportedOnVariant (43_display.md R173). -/
def Obligations.PlaneSelectSetsMask : Prop :=
  ∀ (s : State) (n : Nibble),
    (s.target ≠ .xochip → Raises (.plane n) s .unsupportedOnVariant) ∧
    (s.target = .xochip →
      (n.val ≤ 3 → Completes (.plane n) s fun t => t.bitplane.toNat = n.val ∧ t.buf1 = s.buf1 ∧ t.buf2 = s.buf2 ∧
        t.mode = s.mode ∧ t.dirty = s.dirty ∧ DisplayFrame s t []) ∧
      (3 < n.val → Raises (.plane n) s .unimplemented))

/-- DXYN, bit by bit: on each selected plane a logical pixel on which a set pixel of the plane's sprite lands is toggled
in its whole block, every other bit stays, VF is 1 where a set pixel was hit and else 0, and nothing else changes but
`dirty`; the sprite's bytes are all in memory or MemoryOutOfRange is raised (43_display.md R169, R170). -/
def Obligations.SpriteIsDrawn : Prop :=
  ∀ (s : State) (x y : Reg) (n : Nibble),
    (spriteInMemory s n → Completes (.drw x y n) s fun t =>
      (∀ p yy xx, yy < 64 → xx < 128 →
        (selects s.bitplane p ∧ spriteLands s x y n p (xx / side s) (yy / side s) →
          pixel t p yy xx = !pixel s p (side s * (yy / side s)) (side s * (xx / side s))) ∧
        (¬(selects s.bitplane p ∧ spriteLands s x y n p (xx / side s) (yy / side s)) →
          pixel t p yy xx = pixel s p yy xx)) ∧
      (collides s x y n → t.reg 15 = 1) ∧ (¬collides s x y n → t.reg 15 = 0) ∧
      t.dirty = true ∧ t.mode = s.mode ∧ t.bitplane = s.bitplane ∧ DisplayFrame s t [15]) ∧
    (¬spriteInMemory s n → Raises (.drw x y n) s .memoryOutOfRange)

/-- Drawing the same sprite twice at the same place restores the picture, wherever low-res planes are uniform (premise;
`State.Inv` has it) and the coordinates are not in VF, which the first draw writes (43_display.md section 5). -/
def Obligations.DrawingTwiceRestoresPicture : Prop :=
  ∀ (s t u : State) (x y : Reg) (n : Nibble), (s.mode = .lores → Plane.Uniform s.buf1 ∧ Plane.Uniform s.buf2) →
    x ≠ 15 → y ≠ 15 → exec (.drw x y n) s = .next t → exec (.drw x y n) t = .next u →
    u.buf1 = s.buf1 ∧ u.buf2 = s.buf2

/-! ### Keys and timers -/

/-- FX0A: with no latch it latches the least key that is down, if any, and repeats itself; with a latch it repeats itself
while that key is down, and completes once it is up (44_keypad_timers.md R192). -/
def Obligations.KeyWaitLatchesThenCompletes : Prop :=
  ∀ (s : State) (x : Reg),
    (s.waitKey = none → (∀ k : Key, s.key[k] = false) → exec (.ldVxK x) s = .next s) ∧
    (∀ k : Key, s.waitKey = none → s.key[k] = true → (∀ j : Key, j.val < k.val → s.key[j] = false) →
      Completes (.ldVxK x) s fun t => t.waitKey = some k ∧ t.pc = s.pc ∧ t.key = s.key ∧ t.draws = s.draws ∧
        SameRegsBut s t [] ∧ t.i = s.i ∧ SameMemory s t ∧ SameStack s t ∧ SameTimers s t ∧ SameDisplay s t ∧
        SameControl s t) ∧
    (∀ k : Key, s.waitKey = some k → s.key[k] = true → exec (.ldVxK x) s = .next s) ∧
    (∀ k : Key, s.waitKey = some k → s.key[k] = false →
      Completes (.ldVxK x) s fun t => (t.reg x).toNat = k.val ∧ t.waitKey = none ∧ t.key = s.key ∧ Advances s t ∧
        SameRegsBut s t [x] ∧ t.i = s.i ∧ SameMemory s t ∧ SameStack s t ∧ SameTimers s t ∧ SameDisplay s t ∧
        SameControl s t)

/-- Tick: each timer goes down by one to zero and no further, the tone is 1 where the sound timer was not zero, and
nothing else changes; a halted core does nothing and reports tone 0 (60_exceptions.md R231). -/
def Obligations.TickCountsDown : Prop :=
  ∀ s : State,
    (s.halted = true → tickEvent s = (false, s)) ∧
    (s.halted = false →
      (tickEvent s).2.dt.toNat = s.dt.toNat - 1 ∧ (tickEvent s).2.st.toNat = s.st.toNat - 1 ∧
      ((tickEvent s).1 = true ↔ s.st.toNat ≠ 0) ∧
      { (tickEvent s).2 with dt := s.dt, st := s.st } = s)

/-- ST = n gives the tone on exactly the next n Ticks; a halted core gives none (60_exceptions.md R232). -/
def Obligations.ToneLastsAsLongAsTimer : Prop :=
  ∀ (s : State) (k : Nat),
    (s.halted = false → ((tickEvent (ticks k s)).1 = true ↔ k < s.st.toNat)) ∧
    (s.halted = true → (tickEvent (ticks k s)).1 = false)

/-! ### Host events -/

/-- Reset, from every state, leaves each element but memory, which `Obligations.ResetMemoryHoldsOnlyFonts` has, at the
value of the spec's reset table; mode, mask, dirty and keys are the spec's own decisions D22 and D23 (10_state.md section
11), and that the draw count goes on is the model's choice, log 3. -/
def Obligations.ResetLeavesTheTableValues : Prop :=
  ∀ (t : Target) (s : State),
    (∀ x, (resetEvent t s).reg x = 0) ∧ (resetEvent t s).i = 0 ∧ (resetEvent t s).pc = 0x200 ∧
    (∀ j : Fin 16, (resetEvent t s).stack[j] = 0) ∧ (resetEvent t s).sp = 0 ∧
    (resetEvent t s).dt = 0 ∧ (resetEvent t s).st = 0 ∧ (∀ p y x, pixel (resetEvent t s) p y x = false) ∧
    (resetEvent t s).mode = .lores ∧ (resetEvent t s).bitplane = 1 ∧ (resetEvent t s).dirty = true ∧
    (∀ k : Key, (resetEvent t s).key[k] = false) ∧ (resetEvent t s).waitKey = none ∧ (resetEvent t s).target = t ∧
    (resetEvent t s).report = ⟨false, 0, 0, 0⟩ ∧ (resetEvent t s).draws = s.draws

/-- After Reset memory holds the two font tables and 0 everywhere else, and the tables lie below 0x200 without overlap,
wherever they lie (10_state.md R28; 20_memory.md R66). -/
def Obligations.ResetMemoryHoldsOnlyFonts : Prop :=
  (∀ (t : Target) (s : State) (a : Nat),
    (∀ j, j < 80 → a = Config.fonts.smallBase + j → (resetEvent t s).byteAt a = Config.smallFont j) ∧
    (∀ j, j < 10 * Config.fonts.bigDigits → a = Config.fonts.bigBase + j →
      (resetEvent t s).byteAt a = Config.bigFont j) ∧
    ((a < Config.fonts.smallBase ∨ Config.fonts.smallBase + 80 ≤ a) →
      (a < Config.fonts.bigBase ∨ Config.fonts.bigBase + 10 * Config.fonts.bigDigits ≤ a) →
      (resetEvent t s).byteAt a = 0)) ∧
  Config.fonts.smallBase + 80 ≤ 0x200 ∧ Config.fonts.bigBase + 10 * Config.fonts.bigDigits ≤ 0x200 ∧
  (Config.fonts.bigDigits = 10 ∨ Config.fonts.bigDigits = 16) ∧
  (Config.fonts.smallBase + 80 ≤ Config.fonts.bigBase ∨
    Config.fonts.bigBase + 10 * Config.fonts.bigDigits ≤ Config.fonts.smallBase)

/-- Load copies the image to 0x200 and up, changes memory alone and nothing below 0x200 or beyond the image, and refuses
an image that does not fit, with no change; a halted core answers ok with no change (70_reset_and_hazards.md R248,
R249 on what Load writes). -/
def Obligations.LoadCopiesWholeImageOrNothing : Prop :=
  ∀ (s : State) (bytes : List Byte),
    (s.halted = true → loadEvent bytes s = (.ok, s)) ∧
    (s.halted = false → bytes.length ≤ memSize s.target - 0x200 →
      (loadEvent bytes s).1 = .ok ∧
      (∀ j (h : j < bytes.length), (loadEvent bytes s).2.byteAt (0x200 + j) = bytes[j]) ∧
      SameMemoryOutside s (loadEvent bytes s).2 0x200 bytes.length ∧
      { (loadEvent bytes s).2 with mem := s.mem } = s) ∧
    (s.halted = false → memSize s.target - 0x200 < bytes.length → loadEvent bytes s = (.loadTooLarge, s))

/-- SetKey writes its one key and nothing else; ReadDisplay answers both planes and `dirty`, and then clears `dirty` and
nothing else; on a halted core neither changes anything (70_reset_and_hazards.md R251, R252). -/
def Obligations.KeyAndDisplayEvents : Prop :=
  ∀ s : State,
    (s.halted = true → (∀ k b, setKeyEvent k b s = s) ∧ readDisplayEvent s = (⟨s.buf1, s.buf2, s.dirty⟩, s)) ∧
    (s.halted = false →
      (∀ (k : Key) (b : Bool), (setKeyEvent k b s).key[k] = b ∧
        (∀ j : Key, j ≠ k → (setKeyEvent k b s).key[j] = s.key[j]) ∧ { setKeyEvent k b s with key := s.key } = s) ∧
      (readDisplayEvent s).1 = ⟨s.buf1, s.buf2, s.dirty⟩ ∧ (readDisplayEvent s).2.dirty = false ∧
      { (readDisplayEvent s).2 with dirty := s.dirty } = s)

/-- run_cycles(n) is n Steps: the event sequence gives what n runs of the host's machine give, and once one of them has
raised the remaining Steps do nothing (70_reset_and_hazards.md R246). -/
def Obligations.RunCyclesIsRepeatedStep : Prop :=
  ∀ (n : Nat) (s : State), runEvents (runCycles n) s = Sys2Proof.core.run n s ∧
    ∀ (m : Nat) (t : State), runEvents (runCycles n) s = .next t → t.halted = true →
      runEvents (runCycles (n + m)) s = .next t

/-- Boot: after Reset(t) and a Load of a well-formed instruction's bytes, the first Step runs that instruction
(70_reset_and_hazards.md section 3). -/
def Obligations.FirstStepRunsLoadedInstruction : Prop :=
  ∀ (t : Target) (s : State) (i : Instr) (more : List Byte), i.WellFormed →
    (encode i ++ more).length ≤ memSize t - 0x200 →
    step (loadEvent (encode i ++ more) (resetEvent t s)).2 = exec i (loadEvent (encode i ++ more) (resetEvent t s)).2

/-- A bare reset holds no program: its first Step finds the word 0 at 0x200 and raises Unimplemented
(45_unimplemented.md section on unmatched words; 70_reset_and_hazards.md section 3). -/
def Obligations.BareResetHaltsAtFirstStep : Prop :=
  ∀ (t : Target) (s : State), ∃ u, step (resetEvent t s) = .next u ∧
    RaisedFrom (resetEvent t s) u .unimplemented 0 ∧ u.errPc = 0x200

/-- The conventional end of a program: from a jump to itself every Step leaves all state unchanged
(70_reset_and_hazards.md section 4). -/
def Obligations.SelfJumpStaysForever : Prop :=
  ∀ (s : State) (n : Nat), s.SelfJumpEnd → s.CanFetch → Sys2Proof.core.run n s = .next s
end

