-- ==== Sys2Proof/Laws/Config.lean ====
section
/-! SUPPORT. The free font layout: every value of the free numbers gives a layout that meets 20_memory.md R66, and every
layout that meets it arises, so leaving them open adds nothing to the spec and takes nothing from it. -/

set_option Elab.async false

namespace Sys2Proof

theorem FontLayout.valid_ofFree (sixteen first : Bool) (g h : Nat) : (FontLayout.ofFree sixteen first g h).Valid := by
  have hg := Nat.mod_lt g (show 0 < 0x200 - 80 - 10 * (if sixteen then 16 else 10) + 1 by omega)
  have hh := Nat.mod_lt h (show 0 < 0x200 - 80 - 10 * (if sixteen then 16 else 10) -
    g % (0x200 - 80 - 10 * (if sixteen then 16 else 10) + 1) + 1 by omega)
  cases sixteen <;> cases first <;>
    simp [FontLayout.ofFree, FontLayout.Valid, FontLayout.bigSize, entryPoint, smallFontSize] at hg hh ⊢ <;> omega

theorem FontLayout.ofFree_surjective (f : FontLayout) (hf : f.Valid) :
    ∃ sixteen first g h, FontLayout.ofFree sixteen first g h = f := by
  obtain ⟨small, big, digits⟩ := f
  simp only [FontLayout.Valid, FontLayout.bigSize, entryPoint, smallFontSize] at hf
  obtain ⟨hd, hs, hb, ho⟩ := hf
  refine ⟨decide (digits = 16), decide (small < big), min small big,
    if small < big then big - small - 80 else small - big - 10 * digits, ?_⟩
  rcases hd with rfl | rfl <;> by_cases h : small < big <;>
    simp [FontLayout.ofFree, entryPoint, smallFontSize, h] <;>
    (try rw [Nat.mod_eq_of_lt (by omega)]) <;> (try rw [Nat.mod_eq_of_lt (by omega)]) <;> omega

theorem Config.fonts_valid : Config.fonts.Valid := FontLayout.valid_ofFree ..

theorem Config.small_below_entry : Config.fonts.smallBase + smallFontSize ≤ entryPoint := Config.fonts_valid.2.1

theorem Config.big_below_entry : Config.fonts.bigBase + Config.fonts.bigSize ≤ entryPoint := Config.fonts_valid.2.2.1

theorem Config.fonts_disjoint :
    Config.fonts.smallBase + smallFontSize ≤ Config.fonts.bigBase ∨
    Config.fonts.bigBase + Config.fonts.bigSize ≤ Config.fonts.smallBase := Config.fonts_valid.2.2.2

end Sys2Proof
end

