-- ==== Sys2Proof/Laws/Decode.lean ====
section
/-! SUPPORT. The fields of a word: taking a word apart and putting it together undo each other, for hex digits and for
bytes. -/

set_option Elab.async false

namespace Sys2Proof

theorem toNat_wordOfNibbles (a b c d : Nibble) :
    (wordOfNibbles a b c d).toNat = 4096 * a.val + 256 * b.val + 16 * c.val + d.val := by
  simp [wordOfNibbles]; omega

@[simp] theorem nibble3_wordOfNibbles (a b c d : Nibble) : nibble3 (wordOfNibbles a b c d) = a := by
  apply Fin.ext; simp only [nibble3, toNat_wordOfNibbles, Fin.val_ofNat]; omega

@[simp] theorem nibble2_wordOfNibbles (a b c d : Nibble) : nibble2 (wordOfNibbles a b c d) = b := by
  apply Fin.ext; simp only [nibble2, toNat_wordOfNibbles, Fin.val_ofNat]; omega

@[simp] theorem nibble1_wordOfNibbles (a b c d : Nibble) : nibble1 (wordOfNibbles a b c d) = c := by
  apply Fin.ext; simp only [nibble1, toNat_wordOfNibbles, Fin.val_ofNat]; omega

@[simp] theorem nibble0_wordOfNibbles (a b c d : Nibble) : nibble0 (wordOfNibbles a b c d) = d := by
  apply Fin.ext; simp only [nibble0, toNat_wordOfNibbles, Fin.val_ofNat]; omega

/-- Every word is the word of its four hex digits. -/
@[simp] theorem wordOfNibbles_nibbles (w : Word) : wordOfNibbles (nibble3 w) (nibble2 w) (nibble1 w) (nibble0 w) = w := by
  apply BitVec.eq_of_toNat_eq
  simp only [toNat_wordOfNibbles, nibble3, nibble2, nibble1, nibble0, Fin.val_ofNat]
  have := w.isLt; omega

@[simp] theorem byteOfNibbles_nibbles (b : Byte) : byteOfNibbles (byteHigh b) (byteLow b) = b := by
  apply BitVec.eq_of_toNat_eq
  simp only [byteOfNibbles, byteHigh, byteLow, Fin.val_ofNat, BitVec.toNat_ofNat]
  have := b.isLt; omega

@[simp] theorem byteHigh_byteOfNibbles (c d : Nibble) : byteHigh (byteOfNibbles c d) = c := by
  apply Fin.ext; simp only [byteOfNibbles, byteHigh, Fin.val_ofNat, BitVec.toNat_ofNat]; omega

@[simp] theorem byteLow_byteOfNibbles (c d : Nibble) : byteLow (byteOfNibbles c d) = d := by
  apply Fin.ext; simp only [byteOfNibbles, byteLow, Fin.val_ofNat, BitVec.toNat_ofNat]; omega

@[simp] theorem addrOfNibbles_nibbles (a : Addr12) : addrOfNibbles (addrHigh a) (addrMid a) (addrLow a) = a := by
  apply BitVec.eq_of_toNat_eq
  simp only [addrOfNibbles, addrHigh, addrMid, addrLow, Fin.val_ofNat, BitVec.toNat_ofNat]
  have := a.isLt; omega

@[simp] theorem addrHigh_addrOfNibbles (b c d : Nibble) : addrHigh (addrOfNibbles b c d) = b := by
  apply Fin.ext; simp only [addrOfNibbles, addrHigh, Fin.val_ofNat, BitVec.toNat_ofNat]; omega

@[simp] theorem addrMid_addrOfNibbles (b c d : Nibble) : addrMid (addrOfNibbles b c d) = c := by
  apply Fin.ext; simp only [addrOfNibbles, addrMid, Fin.val_ofNat, BitVec.toNat_ofNat]; omega

@[simp] theorem addrLow_addrOfNibbles (b c d : Nibble) : addrLow (addrOfNibbles b c d) = d := by
  apply Fin.ext; simp only [addrOfNibbles, addrLow, Fin.val_ofNat, BitVec.toNat_ofNat]; omega

@[simp] theorem wordOfBytes_bytes (w : Word) : wordOfBytes (hiByte w) (loByte w) = w := by
  apply BitVec.eq_of_toNat_eq
  simp only [wordOfBytes, hiByte, loByte, BitVec.toNat_ofNat]
  have := w.isLt; omega

@[simp] theorem hiByte_wordOfBytes (h l : Byte) : hiByte (wordOfBytes h l) = h := by
  apply BitVec.eq_of_toNat_eq
  simp only [wordOfBytes, hiByte, BitVec.toNat_ofNat]
  have := h.isLt; have := l.isLt; omega

@[simp] theorem loByte_wordOfBytes (h l : Byte) : loByte (wordOfBytes h l) = l := by
  apply BitVec.eq_of_toNat_eq
  simp only [wordOfBytes, loByte, BitVec.toNat_ofNat]
  have := h.isLt; have := l.isLt; omega

theorem wordOfNibbles_inj {a b c d a' b' c' d' : Nibble} :
    wordOfNibbles a b c d = wordOfNibbles a' b' c' d' ↔ a = a' ∧ b = b' ∧ c = c' ∧ d = d' := by
  refine ⟨fun h => ⟨?_, ?_, ?_, ?_⟩, fun ⟨h1, h2, h3, h4⟩ => by rw [h1, h2, h3, h4]⟩
  · simpa using congrArg nibble3 h
  · simpa using congrArg nibble2 h
  · simpa using congrArg nibble1 h
  · simpa using congrArg nibble0 h

/-- Decoding a word given by its hex digits is the dispatch on them. -/
@[simp] theorem decodeWord_wordOfNibbles (a b c d : Nibble) (operand : Word) :
    decodeWord (wordOfNibbles a b c d) operand = decodeNibbles a b c d operand := by
  simp [decodeWord]

/-- R82: in a well-formed BNNN the register field is the top digit of the address. -/
theorem addrHigh_of_wellFormed {x : Reg} {nnn : Addr12} (h : (Instr.jpV0 x nnn).WellFormed) : addrHigh nnn = x := by
  simp only [Instr.WellFormed, Instr.wellFormed, beq_iff_eq] at h
  apply Fin.ext; simp only [addrHigh, Fin.val_ofNat]; omega

/-! ### Masks -/

/-- Words are masked hex digit by hex digit. -/
theorem and_low_digit (h l h' l' : Nat) (hl : l < 16) (hl' : l' < 16) :
    (16 * h + l) &&& (16 * h' + l') = 16 * (h &&& h') + (l &&& l') := by
  have hll : l &&& l' < 2 ^ 4 := Nat.and_lt_two_pow _ hl'
  apply Nat.eq_of_testBit_eq
  intro k
  have e := fun a b (hb : b < 2 ^ 4) => Nat.testBit_two_pow_mul_add a (b := b) (i := 4) hb k
  norm_num at e
  rw [Nat.testBit_land, e _ _ hl, e _ _ hl', e _ _ hll]
  split <;> simp

theorem and_wordOfNibbles (a b c d m n o p : Nibble) :
    wordOfNibbles a b c d &&& wordOfNibbles m n o p = wordOfNibbles (a &&& m) (b &&& n) (c &&& o) (d &&& p) := by
  apply BitVec.eq_of_toNat_eq
  rw [BitVec.toNat_and, toNat_wordOfNibbles, toNat_wordOfNibbles, toNat_wordOfNibbles]
  have digits : ∀ w x y z : Nat, 4096 * w + 256 * x + 16 * y + z = 16 * (16 * (16 * w + x) + y) + z := by intros; omega
  have val_and : ∀ x y : Nibble, (x &&& y).val = x.val &&& y.val := by
    intro x y
    have : x.val &&& y.val < 2 ^ 4 := Nat.and_lt_two_pow _ y.isLt
    show (x.val &&& y.val) % 16 = _
    exact Nat.mod_eq_of_lt this
  rw [digits, digits, digits, and_low_digit _ _ _ _ d.isLt p.isLt, and_low_digit _ _ _ _ c.isLt o.isLt,
    and_low_digit _ _ _ _ b.isLt n.isLt, val_and, val_and, val_and, val_and]

/-! ### What a decoded word is -/

theorem wellFormed_jpV0 (b c d : Nibble) : (Instr.jpV0 b (addrOfNibbles b c d)).WellFormed := by
  simp only [Instr.WellFormed, Instr.wellFormed, beq_iff_eq, addrOfNibbles, BitVec.toNat_ofNat]; omega

/-- Everything the dispatch can answer: a well-formed instruction whose own word has the four hex digits; it is F000
NNNN, with the operand given, for the digits F000 and for no others. -/
theorem decodeNibbles_cases {a b c d : Nibble} {w : Word} {i : Instr} (h : decodeNibbles a b c d w = some i) :
    i.WellFormed ∧ opcodeOf i = wordOfNibbles a b c d ∧
    (¬(a = 15 ∧ b = 0 ∧ c = 0 ∧ d = 0) → ∀ n, i ≠ .ldl n) ∧ (a = 15 ∧ b = 0 ∧ c = 0 ∧ d = 0 → i = .ldl w) := by
  obtain ⟨a, ha⟩ := a
  obtain ⟨b, hb⟩ := b
  obtain ⟨c, hc⟩ := c
  obtain ⟨d, hd⟩ := d
  unfold decodeNibbles at h
  simp only at h
  split at h
  case h_1 =>
    unfold decodeFamily0 at h
    split at h
    · rename_i hb0
      simp only at h
      split at h <;> cases h <;> simp_all [Instr.WellFormed, Instr.wellFormed, opcodeOf, wordOfNibbles]
    · cases h
  case h_6 =>
    unfold decodeFamily5 at h
    simp only at h
    split at h <;> cases h <;> simp_all [Instr.WellFormed, Instr.wellFormed, opcodeOf, wordOfNibbles]
  case h_9 =>
    unfold decodeFamily8 at h
    simp only at h
    split at h <;> cases h <;> simp_all [Instr.WellFormed, Instr.wellFormed, opcodeOf, wordOfNibbles]
  case h_10 =>
    unfold decodeFamily9 at h
    simp only at h
    split at h <;> cases h
    simp_all [Instr.WellFormed, Instr.wellFormed, opcodeOf, wordOfNibbles]
  case h_15 =>
    unfold decodeFamilyE at h
    simp only at h
    split at h <;> cases h <;> simp_all [Instr.WellFormed, Instr.wellFormed, opcodeOf, wordOfNibbles]
  case h_16 =>
    have h15 : a = 15 := by
      rcases Nat.lt_or_ge a 15 with h | h
      · exfalso; interval_cases a <;> simp_all
      · omega
    subst h15
    unfold decodeFamilyF at h
    simp only at h
    split at h <;> (try split at h) <;> cases h <;>
      simp_all [Instr.WellFormed, Instr.wellFormed, opcodeOf, wordOfNibbles]
  all_goals cases h; simp [opcodeOf]; try simp [Instr.WellFormed, Instr.wellFormed]
  all_goals simp [addrOfNibbles]; omega

/-- Everything the decoder can answer for a word: a well-formed instruction whose own word it is. -/
theorem decodeWord_cases {op w : Word} {i : Instr} (h : decodeWord op w = some i) :
    i.WellFormed ∧ opcodeOf i = op ∧ (op ≠ wideWord → ∀ n, i ≠ .ldl n) ∧ (op = wideWord → i = .ldl w) := by
  have := decodeNibbles_cases h
  rw [wordOfNibbles_nibbles] at this
  refine ⟨this.1, this.2.1, fun hne => this.2.2.1 ?_, fun he => this.2.2.2 ?_⟩
  · rintro ⟨h1, h2, h3, h4⟩
    apply hne
    rw [← wordOfNibbles_nibbles op, h1, h2, h3, h4]; decide
  · subst he; decide

end Sys2Proof
end

