-- ==== Sys2Proof/Laws/Memory.lean ====
section
/-! SUPPORT. The laws of memory: a read after a write, the canonical form kept by every write, and canonical memories
that read alike being equal. -/

set_option Elab.async false

namespace Sys2Proof.Machine

theorem Memory.read_insertCell (m : Memory) (a : Nat) (b : Byte) (x : Nat) (h : ∀ c ∈ m, c.1 ≠ a) :
    (Memory.insertCell a b m).read x = if x = a then b else m.read x := by
  induction m with
  | nil => simp [Memory.insertCell, Memory.read]
  | cons c m ih =>
    obtain ⟨k, d⟩ := c
    have hk : k ≠ a := h (k, d) (by simp)
    have ih := ih fun c hc => h c (by simp [hc])
    simp only [Memory.insertCell]
    split
    · simp [Memory.read]
    · simp only [Memory.read, ih]
      by_cases hx : x = k
      · subst hx; simp [hk]
      · simp [hx]

theorem Memory.read_filter (m : Memory) (a x : Nat) :
    Memory.read (m.filter fun c => c.1 != a) x = if x = a then Memory.resetByte x else m.read x := by
  induction m with
  | nil => simp [Memory.read]
  | cons c m ih =>
    obtain ⟨k, d⟩ := c
    by_cases hk : k = a
    · subst hk
      simp only [List.filter_cons, bne_self_eq_false, Bool.false_eq_true, if_false, ih, Memory.read]
      by_cases hx : x = k <;> simp [hx]
    · simp only [List.filter_cons, bne_iff_ne, ne_eq, hk, not_false_eq_true, if_true, Memory.read, ih]
      by_cases hx : x = k
      · subst hx; simp [hk]
      · simp [hx]

/-- A write gives its byte at its address and leaves every other address alone. -/
theorem Memory.read_write (m : Memory) (a : Nat) (b : Byte) (x : Nat) :
    (m.write a b).read x = if x = a then b else m.read x := by
  unfold Memory.write
  split
  · rename_i h; rw [Memory.read_filter]; by_cases hx : x = a
    · subst hx; simp [h]
    · simp [hx]
  · rw [Memory.read_insertCell _ _ _ _ (by simp), Memory.read_filter]
    by_cases hx : x = a <;> simp [hx]

theorem Memory.read_write_same (m : Memory) (a : Nat) (b : Byte) : (m.write a b).read a = b := by
  simp [Memory.read_write]

theorem Memory.read_write_other (m : Memory) {a x : Nat} (b : Byte) (h : x ≠ a) : (m.write a b).read x = m.read x := by
  simp [Memory.read_write, h]

/-- Bytes written from address a on: inside them an address reads as its byte, and every other as before. -/
theorem Memory.read_writeList (m : Memory) (a : Nat) (bs : List Byte) (x : Nat) :
    (m.writeList a bs).read x = if a ≤ x then (bs[x - a]?).getD (m.read x) else m.read x := by
  induction bs generalizing m a with
  | nil => simp [Memory.writeList]
  | cons b bs ih =>
    simp only [Memory.writeList, ih, Memory.read_write]
    rcases Nat.lt_trichotomy x a with h | h | h
    · rw [if_neg (by omega), if_neg (by omega), if_neg (by omega)]
    · subst h; simp
    · obtain ⟨n, hn⟩ : ∃ n, x - a = n + 1 := ⟨x - a - 1, by omega⟩
      have hn' : x - (a + 1) = n := by omega
      have hxa : x ≠ a := by omega
      have h1 : a + 1 ≤ x := h
      have h2 : a ≤ x := by omega
      simp [hn, hn', hxa, h1, h2]

theorem Memory.read_writeList_outside (m : Memory) {a x : Nat} (bs : List Byte) (h : x < a ∨ a + bs.length ≤ x) :
    (m.writeList a bs).read x = m.read x := by
  rw [Memory.read_writeList]
  split
  · rw [List.getElem?_eq_none (by omega)]; rfl
  · rfl

theorem Memory.mem_insertCell {m : Memory} {a : Nat} {b : Byte} {c : Host.Cell} :
    c ∈ Memory.insertCell a b m ↔ c = (a, b) ∨ c ∈ m := by
  induction m with
  | nil => simp [Memory.insertCell]
  | cons d m ih =>
    simp only [Memory.insertCell]
    split
    · simp
    · simp [ih]; tauto

/-- Every cell of a written memory is the written one or was there before. -/
theorem Memory.mem_write {m : Memory} {a : Nat} {b : Byte} {c : Host.Cell} (h : c ∈ m.write a b) : c = (a, b) ∨ c ∈ m := by
  unfold Memory.write at h
  split at h
  · exact .inr (List.mem_of_mem_filter h)
  · rcases Memory.mem_insertCell.1 h with h | h
    · exact .inl h
    · exact .inr (List.mem_of_mem_filter h)

theorem Memory.sorted_insertCell (m : Memory) (a : Nat) (b : Byte) (h : ∀ c ∈ m, c.1 ≠ a)
    (hs : m.Pairwise fun c d => c.1 < d.1) : (Memory.insertCell a b m).Pairwise fun c d => c.1 < d.1 := by
  induction m with
  | nil => simp [Memory.insertCell]
  | cons c m ih =>
    obtain ⟨hc, hm⟩ := List.pairwise_cons.1 hs
    simp only [Memory.insertCell]
    split
    · rename_i hlt
      refine List.pairwise_cons.2 ⟨fun d hd => ?_, hs⟩
      rcases List.mem_cons.1 hd with rfl | hd
      · exact hlt
      · exact Nat.lt_trans hlt (hc d hd)
    · rename_i hlt
      refine List.pairwise_cons.2 ⟨fun d hd => ?_, ih (fun d hd => h d (by simp [hd])) hm⟩
      rcases Memory.mem_insertCell.1 hd with rfl | hd
      · have := h c (by simp); simp only; omega
      · exact hc d hd

/-- A write keeps the canonical form. -/
theorem Memory.wf_write {m : Memory} (h : m.wf) (a : Nat) (b : Byte) : (m.write a b).wf := by
  have hs : (m.filter fun c => c.1 != a).Pairwise fun c d => c.1 < d.1 := h.1.filter _
  refine ⟨?_, fun c hc => ?_⟩
  · unfold Memory.write
    split
    · exact hs
    · exact Memory.sorted_insertCell _ _ _ (by simp) hs
  · rcases Memory.mem_write hc with rfl | hm
    · intro he
      have hb : b = Memory.resetByte a := he
      simp [Memory.write, hb] at hc
    · exact h.2 c hm

theorem Memory.wf_writeList {m : Memory} (h : m.wf) (a : Nat) (bs : List Byte) : (m.writeList a bs).wf := by
  induction bs generalizing m a with
  | nil => exact h
  | cons b bs ih => exact ih (Memory.wf_write h a b) (a + 1)

theorem Memory.wf_nil : Memory.wf [] := by simp [Memory.wf]

/-- Every cell after writing bytes from address a on lies among them or was there before. -/
theorem Memory.mem_writeList {m : Memory} {a : Nat} {bs : List Byte} {c : Host.Cell} (h : c ∈ m.writeList a bs) :
    (a ≤ c.1 ∧ c.1 < a + bs.length) ∨ c ∈ m := by
  induction bs generalizing m a with
  | nil => exact .inr h
  | cons b bs ih =>
    rcases ih h with ⟨h1, h2⟩ | h
    · exact .inl ⟨by omega, by simp only [List.length_cons]; omega⟩
    · rcases Memory.mem_write h with rfl | h
      · exact .inl ⟨Nat.le_refl _, by simp⟩
      · exact .inr h

/-- A listed address reads as its entry: no other entry has it. -/
theorem Memory.read_of_mem {m : Memory} (h : m.wf) {c : Host.Cell} (hc : c ∈ m) : m.read c.1 = c.2 := by
  obtain ⟨hs, -⟩ := h
  induction m with
  | nil => simp at hc
  | cons d m ih =>
    obtain ⟨hd, hm⟩ := List.pairwise_cons.1 hs
    rcases List.mem_cons.1 hc with rfl | hc
    · simp [Memory.read]
    · have := hd c hc
      simp only [Memory.read, show c.1 ≠ d.1 by omega, if_false]
      exact ih hc hm

/-- An address that no entry has reads as its reset contents. -/
theorem Memory.read_of_unlisted {m : Memory} {a : Nat} (h : ∀ c ∈ m, c.1 ≠ a) : m.read a = Memory.resetByte a := by
  induction m with
  | nil => rfl
  | cons d m ih =>
    have := h d (by simp)
    simp only [Memory.read, show a ≠ d.1 by omega, if_false]
    exact ih fun c hc => h c (by simp [hc])

theorem Memory.resetByte_high {a : Nat} (h : entryPoint ≤ a) : Memory.resetByte a = 0 := by simp [Memory.resetByte, h]

theorem Memory.resetByte_small {j : Nat} (h : j < smallFontSize) :
    Memory.resetByte (Config.fonts.smallBase + j) = Config.smallFont j := by
  have := Config.small_below_entry
  rw [Memory.resetByte, if_neg (by omega), if_pos (by omega)]; congr 1; omega

theorem Memory.resetByte_big {j : Nat} (h : j < Config.fonts.bigSize) :
    Memory.resetByte (Config.fonts.bigBase + j) = Config.bigFont j := by
  have := Config.big_below_entry
  have := Config.fonts_disjoint
  rw [Memory.resetByte, if_neg (by omega), if_neg (by omega), if_pos (by omega)]; congr 1; omega

/-! ### Access primitives -/

@[simp] theorem State.byteAt_writeBytes (s : State) (a : Nat) (bs : List Byte) (x : Nat) :
    (s.writeBytes a bs).byteAt x = if a ≤ x then (bs[x - a]?).getD (s.byteAt x) else s.byteAt x :=
  Memory.read_writeList ..

theorem State.mem_wf_writeBytes {s : State} (h : s.mem.wf) (a : Nat) (bs : List Byte) : (s.writeBytes a bs).mem.wf :=
  Memory.wf_writeList h a bs

theorem State.mem_wf_resetTo (t : Target) : (State.resetTo t).mem.wf := Memory.wf_nil

theorem State.byteAt_writeBytes_outside (s : State) {a x : Nat} (bs : List Byte) (h : x < a ∨ a + bs.length ≤ x) :
    (s.writeBytes a bs).byteAt x = s.byteAt x := Memory.read_writeList_outside _ bs h

theorem State.byteAt_writeBytes_inside (s : State) (a : Nat) (bs : List Byte) (k : Nat) (h : k < bs.length) :
    (s.writeBytes a bs).byteAt (a + k) = bs[k] := by simp [h]

end Sys2Proof.Machine
end

