-- ==== Sys2Proof/Laws/State.lean ====
section
/-! SUPPORT. One lemma for each field of each shared update of the state: the field it writes gets the value, and every
other field is as it was. -/

set_option Elab.async false

namespace Sys2Proof.Machine

/-! ### Taking an exception (60_exceptions.md R213) -/

@[simp] theorem State.raised_v (s : State) (c : Cause) (op : Word) : (s.raised c op).v = s.v := rfl
@[simp] theorem State.raised_i (s : State) (c : Cause) (op : Word) : (s.raised c op).i = s.i := rfl
@[simp] theorem State.raised_pc (s : State) (c : Cause) (op : Word) : (s.raised c op).pc = s.pc := rfl
@[simp] theorem State.raised_stack (s : State) (c : Cause) (op : Word) : (s.raised c op).stack = s.stack := rfl
@[simp] theorem State.raised_sp (s : State) (c : Cause) (op : Word) : (s.raised c op).sp = s.sp := rfl
@[simp] theorem State.raised_dt (s : State) (c : Cause) (op : Word) : (s.raised c op).dt = s.dt := rfl
@[simp] theorem State.raised_st (s : State) (c : Cause) (op : Word) : (s.raised c op).st = s.st := rfl
@[simp] theorem State.raised_mem (s : State) (c : Cause) (op : Word) : (s.raised c op).mem = s.mem := rfl
@[simp] theorem State.raised_buf1 (s : State) (c : Cause) (op : Word) : (s.raised c op).buf1 = s.buf1 := rfl
@[simp] theorem State.raised_buf2 (s : State) (c : Cause) (op : Word) : (s.raised c op).buf2 = s.buf2 := rfl
@[simp] theorem State.raised_mode (s : State) (c : Cause) (op : Word) : (s.raised c op).mode = s.mode := rfl
@[simp] theorem State.raised_bitplane (s : State) (c : Cause) (op : Word) : (s.raised c op).bitplane = s.bitplane := rfl
@[simp] theorem State.raised_dirty (s : State) (c : Cause) (op : Word) : (s.raised c op).dirty = s.dirty := rfl
@[simp] theorem State.raised_key (s : State) (c : Cause) (op : Word) : (s.raised c op).key = s.key := rfl
@[simp] theorem State.raised_waitKey (s : State) (c : Cause) (op : Word) : (s.raised c op).waitKey = s.waitKey := rfl
@[simp] theorem State.raised_target (s : State) (c : Cause) (op : Word) : (s.raised c op).target = s.target := rfl
@[simp] theorem State.raised_halted (s : State) (c : Cause) (op : Word) : (s.raised c op).halted = true := rfl
@[simp] theorem State.raised_errCode (s : State) (c : Cause) (op : Word) : (s.raised c op).errCode = c.code := rfl
@[simp] theorem State.raised_errOpcode (s : State) (c : Cause) (op : Word) : (s.raised c op).errOpcode = op := rfl
@[simp] theorem State.raised_errPc (s : State) (c : Cause) (op : Word) : (s.raised c op).errPc = s.pc := rfl
@[simp] theorem State.raised_draws (s : State) (c : Cause) (op : Word) : (s.raised c op).draws = s.draws := rfl

/-! ### The advance of pc (30_encoding.md R84) -/

@[simp] theorem State.advance_v (s : State) : (s.advance).v = s.v := rfl
@[simp] theorem State.advance_i (s : State) : (s.advance).i = s.i := rfl
@[simp] theorem State.advance_pc (s : State) : (s.advance).pc = s.pc + 2 := rfl
@[simp] theorem State.advance_stack (s : State) : (s.advance).stack = s.stack := rfl
@[simp] theorem State.advance_sp (s : State) : (s.advance).sp = s.sp := rfl
@[simp] theorem State.advance_dt (s : State) : (s.advance).dt = s.dt := rfl
@[simp] theorem State.advance_st (s : State) : (s.advance).st = s.st := rfl
@[simp] theorem State.advance_mem (s : State) : (s.advance).mem = s.mem := rfl
@[simp] theorem State.advance_buf1 (s : State) : (s.advance).buf1 = s.buf1 := rfl
@[simp] theorem State.advance_buf2 (s : State) : (s.advance).buf2 = s.buf2 := rfl
@[simp] theorem State.advance_mode (s : State) : (s.advance).mode = s.mode := rfl
@[simp] theorem State.advance_bitplane (s : State) : (s.advance).bitplane = s.bitplane := rfl
@[simp] theorem State.advance_dirty (s : State) : (s.advance).dirty = s.dirty := rfl
@[simp] theorem State.advance_key (s : State) : (s.advance).key = s.key := rfl
@[simp] theorem State.advance_waitKey (s : State) : (s.advance).waitKey = s.waitKey := rfl
@[simp] theorem State.advance_target (s : State) : (s.advance).target = s.target := rfl
@[simp] theorem State.advance_halted (s : State) : (s.advance).halted = s.halted := rfl
@[simp] theorem State.advance_errCode (s : State) : (s.advance).errCode = s.errCode := rfl
@[simp] theorem State.advance_errOpcode (s : State) : (s.advance).errOpcode = s.errOpcode := rfl
@[simp] theorem State.advance_errPc (s : State) : (s.advance).errPc = s.errPc := rfl
@[simp] theorem State.advance_draws (s : State) : (s.advance).draws = s.draws := rfl

/-! ### Stores (20_memory.md R63) -/

@[simp] theorem State.writeBytes_v (s : State) (a : Nat) (bs : List Byte) : (s.writeBytes a bs).v = s.v := rfl
@[simp] theorem State.writeBytes_i (s : State) (a : Nat) (bs : List Byte) : (s.writeBytes a bs).i = s.i := rfl
@[simp] theorem State.writeBytes_pc (s : State) (a : Nat) (bs : List Byte) : (s.writeBytes a bs).pc = s.pc := rfl
@[simp] theorem State.writeBytes_stack (s : State) (a : Nat) (bs : List Byte) : (s.writeBytes a bs).stack = s.stack := rfl
@[simp] theorem State.writeBytes_sp (s : State) (a : Nat) (bs : List Byte) : (s.writeBytes a bs).sp = s.sp := rfl
@[simp] theorem State.writeBytes_dt (s : State) (a : Nat) (bs : List Byte) : (s.writeBytes a bs).dt = s.dt := rfl
@[simp] theorem State.writeBytes_st (s : State) (a : Nat) (bs : List Byte) : (s.writeBytes a bs).st = s.st := rfl
@[simp] theorem State.writeBytes_mem (s : State) (a : Nat) (bs : List Byte) : (s.writeBytes a bs).mem = s.mem.writeList a bs := rfl
@[simp] theorem State.writeBytes_buf1 (s : State) (a : Nat) (bs : List Byte) : (s.writeBytes a bs).buf1 = s.buf1 := rfl
@[simp] theorem State.writeBytes_buf2 (s : State) (a : Nat) (bs : List Byte) : (s.writeBytes a bs).buf2 = s.buf2 := rfl
@[simp] theorem State.writeBytes_mode (s : State) (a : Nat) (bs : List Byte) : (s.writeBytes a bs).mode = s.mode := rfl
@[simp] theorem State.writeBytes_bitplane (s : State) (a : Nat) (bs : List Byte) : (s.writeBytes a bs).bitplane = s.bitplane := rfl
@[simp] theorem State.writeBytes_dirty (s : State) (a : Nat) (bs : List Byte) : (s.writeBytes a bs).dirty = s.dirty := rfl
@[simp] theorem State.writeBytes_key (s : State) (a : Nat) (bs : List Byte) : (s.writeBytes a bs).key = s.key := rfl
@[simp] theorem State.writeBytes_waitKey (s : State) (a : Nat) (bs : List Byte) : (s.writeBytes a bs).waitKey = s.waitKey := rfl
@[simp] theorem State.writeBytes_target (s : State) (a : Nat) (bs : List Byte) : (s.writeBytes a bs).target = s.target := rfl
@[simp] theorem State.writeBytes_halted (s : State) (a : Nat) (bs : List Byte) : (s.writeBytes a bs).halted = s.halted := rfl
@[simp] theorem State.writeBytes_errCode (s : State) (a : Nat) (bs : List Byte) : (s.writeBytes a bs).errCode = s.errCode := rfl
@[simp] theorem State.writeBytes_errOpcode (s : State) (a : Nat) (bs : List Byte) : (s.writeBytes a bs).errOpcode = s.errOpcode := rfl
@[simp] theorem State.writeBytes_errPc (s : State) (a : Nat) (bs : List Byte) : (s.writeBytes a bs).errPc = s.errPc := rfl
@[simp] theorem State.writeBytes_draws (s : State) (a : Nat) (bs : List Byte) : (s.writeBytes a bs).draws = s.draws := rfl

/-! ### A register write (10_state.md R21) -/

@[simp] theorem State.setReg_v (s : State) (x : Reg) (b : Byte) : (s.setReg x b).v = s.v.set x b := rfl
@[simp] theorem State.setReg_i (s : State) (x : Reg) (b : Byte) : (s.setReg x b).i = s.i := rfl
@[simp] theorem State.setReg_pc (s : State) (x : Reg) (b : Byte) : (s.setReg x b).pc = s.pc := rfl
@[simp] theorem State.setReg_stack (s : State) (x : Reg) (b : Byte) : (s.setReg x b).stack = s.stack := rfl
@[simp] theorem State.setReg_sp (s : State) (x : Reg) (b : Byte) : (s.setReg x b).sp = s.sp := rfl
@[simp] theorem State.setReg_dt (s : State) (x : Reg) (b : Byte) : (s.setReg x b).dt = s.dt := rfl
@[simp] theorem State.setReg_st (s : State) (x : Reg) (b : Byte) : (s.setReg x b).st = s.st := rfl
@[simp] theorem State.setReg_mem (s : State) (x : Reg) (b : Byte) : (s.setReg x b).mem = s.mem := rfl
@[simp] theorem State.setReg_buf1 (s : State) (x : Reg) (b : Byte) : (s.setReg x b).buf1 = s.buf1 := rfl
@[simp] theorem State.setReg_buf2 (s : State) (x : Reg) (b : Byte) : (s.setReg x b).buf2 = s.buf2 := rfl
@[simp] theorem State.setReg_mode (s : State) (x : Reg) (b : Byte) : (s.setReg x b).mode = s.mode := rfl
@[simp] theorem State.setReg_bitplane (s : State) (x : Reg) (b : Byte) : (s.setReg x b).bitplane = s.bitplane := rfl
@[simp] theorem State.setReg_dirty (s : State) (x : Reg) (b : Byte) : (s.setReg x b).dirty = s.dirty := rfl
@[simp] theorem State.setReg_key (s : State) (x : Reg) (b : Byte) : (s.setReg x b).key = s.key := rfl
@[simp] theorem State.setReg_waitKey (s : State) (x : Reg) (b : Byte) : (s.setReg x b).waitKey = s.waitKey := rfl
@[simp] theorem State.setReg_target (s : State) (x : Reg) (b : Byte) : (s.setReg x b).target = s.target := rfl
@[simp] theorem State.setReg_halted (s : State) (x : Reg) (b : Byte) : (s.setReg x b).halted = s.halted := rfl
@[simp] theorem State.setReg_errCode (s : State) (x : Reg) (b : Byte) : (s.setReg x b).errCode = s.errCode := rfl
@[simp] theorem State.setReg_errOpcode (s : State) (x : Reg) (b : Byte) : (s.setReg x b).errOpcode = s.errOpcode := rfl
@[simp] theorem State.setReg_errPc (s : State) (x : Reg) (b : Byte) : (s.setReg x b).errPc = s.errPc := rfl
@[simp] theorem State.setReg_draws (s : State) (x : Reg) (b : Byte) : (s.setReg x b).draws = s.draws := rfl

/-! ### A result and its flag (41_load_arith_logic.md R129) -/

@[simp] theorem State.setRegFlag_v (s : State) (x : Reg) (b : Byte) (f : Bool) : (s.setRegFlag x b f).v = (s.v.set x b).set vf (flagByte f) := rfl
@[simp] theorem State.setRegFlag_i (s : State) (x : Reg) (b : Byte) (f : Bool) : (s.setRegFlag x b f).i = s.i := rfl
@[simp] theorem State.setRegFlag_pc (s : State) (x : Reg) (b : Byte) (f : Bool) : (s.setRegFlag x b f).pc = s.pc := rfl
@[simp] theorem State.setRegFlag_stack (s : State) (x : Reg) (b : Byte) (f : Bool) : (s.setRegFlag x b f).stack = s.stack := rfl
@[simp] theorem State.setRegFlag_sp (s : State) (x : Reg) (b : Byte) (f : Bool) : (s.setRegFlag x b f).sp = s.sp := rfl
@[simp] theorem State.setRegFlag_dt (s : State) (x : Reg) (b : Byte) (f : Bool) : (s.setRegFlag x b f).dt = s.dt := rfl
@[simp] theorem State.setRegFlag_st (s : State) (x : Reg) (b : Byte) (f : Bool) : (s.setRegFlag x b f).st = s.st := rfl
@[simp] theorem State.setRegFlag_mem (s : State) (x : Reg) (b : Byte) (f : Bool) : (s.setRegFlag x b f).mem = s.mem := rfl
@[simp] theorem State.setRegFlag_buf1 (s : State) (x : Reg) (b : Byte) (f : Bool) : (s.setRegFlag x b f).buf1 = s.buf1 := rfl
@[simp] theorem State.setRegFlag_buf2 (s : State) (x : Reg) (b : Byte) (f : Bool) : (s.setRegFlag x b f).buf2 = s.buf2 := rfl
@[simp] theorem State.setRegFlag_mode (s : State) (x : Reg) (b : Byte) (f : Bool) : (s.setRegFlag x b f).mode = s.mode := rfl
@[simp] theorem State.setRegFlag_bitplane (s : State) (x : Reg) (b : Byte) (f : Bool) : (s.setRegFlag x b f).bitplane = s.bitplane := rfl
@[simp] theorem State.setRegFlag_dirty (s : State) (x : Reg) (b : Byte) (f : Bool) : (s.setRegFlag x b f).dirty = s.dirty := rfl
@[simp] theorem State.setRegFlag_key (s : State) (x : Reg) (b : Byte) (f : Bool) : (s.setRegFlag x b f).key = s.key := rfl
@[simp] theorem State.setRegFlag_waitKey (s : State) (x : Reg) (b : Byte) (f : Bool) : (s.setRegFlag x b f).waitKey = s.waitKey := rfl
@[simp] theorem State.setRegFlag_target (s : State) (x : Reg) (b : Byte) (f : Bool) : (s.setRegFlag x b f).target = s.target := rfl
@[simp] theorem State.setRegFlag_halted (s : State) (x : Reg) (b : Byte) (f : Bool) : (s.setRegFlag x b f).halted = s.halted := rfl
@[simp] theorem State.setRegFlag_errCode (s : State) (x : Reg) (b : Byte) (f : Bool) : (s.setRegFlag x b f).errCode = s.errCode := rfl
@[simp] theorem State.setRegFlag_errOpcode (s : State) (x : Reg) (b : Byte) (f : Bool) : (s.setRegFlag x b f).errOpcode = s.errOpcode := rfl
@[simp] theorem State.setRegFlag_errPc (s : State) (x : Reg) (b : Byte) (f : Bool) : (s.setRegFlag x b f).errPc = s.errPc := rfl
@[simp] theorem State.setRegFlag_draws (s : State) (x : Reg) (b : Byte) (f : Bool) : (s.setRegFlag x b f).draws = s.draws := rfl

/-! ### A plane write (10_state.md R29) -/

@[simp] theorem State.setPlane_v (s : State) (p : PlaneId) (b : Plane) : (s.setPlane p b).v = s.v := by cases p <;> rfl
@[simp] theorem State.setPlane_i (s : State) (p : PlaneId) (b : Plane) : (s.setPlane p b).i = s.i := by cases p <;> rfl
@[simp] theorem State.setPlane_pc (s : State) (p : PlaneId) (b : Plane) : (s.setPlane p b).pc = s.pc := by cases p <;> rfl
@[simp] theorem State.setPlane_stack (s : State) (p : PlaneId) (b : Plane) : (s.setPlane p b).stack = s.stack := by cases p <;> rfl
@[simp] theorem State.setPlane_sp (s : State) (p : PlaneId) (b : Plane) : (s.setPlane p b).sp = s.sp := by cases p <;> rfl
@[simp] theorem State.setPlane_dt (s : State) (p : PlaneId) (b : Plane) : (s.setPlane p b).dt = s.dt := by cases p <;> rfl
@[simp] theorem State.setPlane_st (s : State) (p : PlaneId) (b : Plane) : (s.setPlane p b).st = s.st := by cases p <;> rfl
@[simp] theorem State.setPlane_mem (s : State) (p : PlaneId) (b : Plane) : (s.setPlane p b).mem = s.mem := by cases p <;> rfl
@[simp] theorem State.setPlane_buf1 (s : State) (p : PlaneId) (b : Plane) : (s.setPlane p b).buf1 = if p = .p1 then b else s.buf1 := by cases p <;> rfl
@[simp] theorem State.setPlane_buf2 (s : State) (p : PlaneId) (b : Plane) : (s.setPlane p b).buf2 = if p = .p2 then b else s.buf2 := by cases p <;> rfl
@[simp] theorem State.setPlane_mode (s : State) (p : PlaneId) (b : Plane) : (s.setPlane p b).mode = s.mode := by cases p <;> rfl
@[simp] theorem State.setPlane_bitplane (s : State) (p : PlaneId) (b : Plane) : (s.setPlane p b).bitplane = s.bitplane := by cases p <;> rfl
@[simp] theorem State.setPlane_dirty (s : State) (p : PlaneId) (b : Plane) : (s.setPlane p b).dirty = s.dirty := by cases p <;> rfl
@[simp] theorem State.setPlane_key (s : State) (p : PlaneId) (b : Plane) : (s.setPlane p b).key = s.key := by cases p <;> rfl
@[simp] theorem State.setPlane_waitKey (s : State) (p : PlaneId) (b : Plane) : (s.setPlane p b).waitKey = s.waitKey := by cases p <;> rfl
@[simp] theorem State.setPlane_target (s : State) (p : PlaneId) (b : Plane) : (s.setPlane p b).target = s.target := by cases p <;> rfl
@[simp] theorem State.setPlane_halted (s : State) (p : PlaneId) (b : Plane) : (s.setPlane p b).halted = s.halted := by cases p <;> rfl
@[simp] theorem State.setPlane_errCode (s : State) (p : PlaneId) (b : Plane) : (s.setPlane p b).errCode = s.errCode := by cases p <;> rfl
@[simp] theorem State.setPlane_errOpcode (s : State) (p : PlaneId) (b : Plane) : (s.setPlane p b).errOpcode = s.errOpcode := by cases p <;> rfl
@[simp] theorem State.setPlane_errPc (s : State) (p : PlaneId) (b : Plane) : (s.setPlane p b).errPc = s.errPc := by cases p <;> rfl
@[simp] theorem State.setPlane_draws (s : State) (p : PlaneId) (b : Plane) : (s.setPlane p b).draws = s.draws := by cases p <;> rfl

/-! ### A mode switch (43_display.md R171, R172) -/

@[simp] theorem State.switchMode_v (s : State) (m : Mode) : (s.switchMode m).v = s.v := rfl
@[simp] theorem State.switchMode_i (s : State) (m : Mode) : (s.switchMode m).i = s.i := rfl
@[simp] theorem State.switchMode_pc (s : State) (m : Mode) : (s.switchMode m).pc = s.pc := rfl
@[simp] theorem State.switchMode_stack (s : State) (m : Mode) : (s.switchMode m).stack = s.stack := rfl
@[simp] theorem State.switchMode_sp (s : State) (m : Mode) : (s.switchMode m).sp = s.sp := rfl
@[simp] theorem State.switchMode_dt (s : State) (m : Mode) : (s.switchMode m).dt = s.dt := rfl
@[simp] theorem State.switchMode_st (s : State) (m : Mode) : (s.switchMode m).st = s.st := rfl
@[simp] theorem State.switchMode_mem (s : State) (m : Mode) : (s.switchMode m).mem = s.mem := rfl
@[simp] theorem State.switchMode_buf1 (s : State) (m : Mode) : (s.switchMode m).buf1 = Plane.blank := rfl
@[simp] theorem State.switchMode_buf2 (s : State) (m : Mode) : (s.switchMode m).buf2 = Plane.blank := rfl
@[simp] theorem State.switchMode_mode (s : State) (m : Mode) : (s.switchMode m).mode = m := rfl
@[simp] theorem State.switchMode_bitplane (s : State) (m : Mode) : (s.switchMode m).bitplane = s.bitplane := rfl
@[simp] theorem State.switchMode_dirty (s : State) (m : Mode) : (s.switchMode m).dirty = true := rfl
@[simp] theorem State.switchMode_key (s : State) (m : Mode) : (s.switchMode m).key = s.key := rfl
@[simp] theorem State.switchMode_waitKey (s : State) (m : Mode) : (s.switchMode m).waitKey = s.waitKey := rfl
@[simp] theorem State.switchMode_target (s : State) (m : Mode) : (s.switchMode m).target = s.target := rfl
@[simp] theorem State.switchMode_halted (s : State) (m : Mode) : (s.switchMode m).halted = s.halted := rfl
@[simp] theorem State.switchMode_errCode (s : State) (m : Mode) : (s.switchMode m).errCode = s.errCode := rfl
@[simp] theorem State.switchMode_errOpcode (s : State) (m : Mode) : (s.switchMode m).errOpcode = s.errOpcode := rfl
@[simp] theorem State.switchMode_errPc (s : State) (m : Mode) : (s.switchMode m).errPc = s.errPc := rfl
@[simp] theorem State.switchMode_draws (s : State) (m : Mode) : (s.switchMode m).draws = s.draws := rfl

/-! ### Registers loaded from memory (42_index_memory.md R148, R150) -/

@[simp] theorem State.loadList_i (s : State) (a : Nat) (xs : List Reg) : (s.loadList a xs).i = s.i := by
  induction xs generalizing s a with
  | nil => rfl
  | cons x xs ih => simp [State.loadList, ih]
@[simp] theorem State.loadList_pc (s : State) (a : Nat) (xs : List Reg) : (s.loadList a xs).pc = s.pc := by
  induction xs generalizing s a with
  | nil => rfl
  | cons x xs ih => simp [State.loadList, ih]
@[simp] theorem State.loadList_stack (s : State) (a : Nat) (xs : List Reg) : (s.loadList a xs).stack = s.stack := by
  induction xs generalizing s a with
  | nil => rfl
  | cons x xs ih => simp [State.loadList, ih]
@[simp] theorem State.loadList_sp (s : State) (a : Nat) (xs : List Reg) : (s.loadList a xs).sp = s.sp := by
  induction xs generalizing s a with
  | nil => rfl
  | cons x xs ih => simp [State.loadList, ih]
@[simp] theorem State.loadList_dt (s : State) (a : Nat) (xs : List Reg) : (s.loadList a xs).dt = s.dt := by
  induction xs generalizing s a with
  | nil => rfl
  | cons x xs ih => simp [State.loadList, ih]
@[simp] theorem State.loadList_st (s : State) (a : Nat) (xs : List Reg) : (s.loadList a xs).st = s.st := by
  induction xs generalizing s a with
  | nil => rfl
  | cons x xs ih => simp [State.loadList, ih]
@[simp] theorem State.loadList_mem (s : State) (a : Nat) (xs : List Reg) : (s.loadList a xs).mem = s.mem := by
  induction xs generalizing s a with
  | nil => rfl
  | cons x xs ih => simp [State.loadList, ih]
@[simp] theorem State.loadList_buf1 (s : State) (a : Nat) (xs : List Reg) : (s.loadList a xs).buf1 = s.buf1 := by
  induction xs generalizing s a with
  | nil => rfl
  | cons x xs ih => simp [State.loadList, ih]
@[simp] theorem State.loadList_buf2 (s : State) (a : Nat) (xs : List Reg) : (s.loadList a xs).buf2 = s.buf2 := by
  induction xs generalizing s a with
  | nil => rfl
  | cons x xs ih => simp [State.loadList, ih]
@[simp] theorem State.loadList_mode (s : State) (a : Nat) (xs : List Reg) : (s.loadList a xs).mode = s.mode := by
  induction xs generalizing s a with
  | nil => rfl
  | cons x xs ih => simp [State.loadList, ih]
@[simp] theorem State.loadList_bitplane (s : State) (a : Nat) (xs : List Reg) : (s.loadList a xs).bitplane = s.bitplane := by
  induction xs generalizing s a with
  | nil => rfl
  | cons x xs ih => simp [State.loadList, ih]
@[simp] theorem State.loadList_dirty (s : State) (a : Nat) (xs : List Reg) : (s.loadList a xs).dirty = s.dirty := by
  induction xs generalizing s a with
  | nil => rfl
  | cons x xs ih => simp [State.loadList, ih]
@[simp] theorem State.loadList_key (s : State) (a : Nat) (xs : List Reg) : (s.loadList a xs).key = s.key := by
  induction xs generalizing s a with
  | nil => rfl
  | cons x xs ih => simp [State.loadList, ih]
@[simp] theorem State.loadList_waitKey (s : State) (a : Nat) (xs : List Reg) : (s.loadList a xs).waitKey = s.waitKey := by
  induction xs generalizing s a with
  | nil => rfl
  | cons x xs ih => simp [State.loadList, ih]
@[simp] theorem State.loadList_target (s : State) (a : Nat) (xs : List Reg) : (s.loadList a xs).target = s.target := by
  induction xs generalizing s a with
  | nil => rfl
  | cons x xs ih => simp [State.loadList, ih]
@[simp] theorem State.loadList_halted (s : State) (a : Nat) (xs : List Reg) : (s.loadList a xs).halted = s.halted := by
  induction xs generalizing s a with
  | nil => rfl
  | cons x xs ih => simp [State.loadList, ih]
@[simp] theorem State.loadList_errCode (s : State) (a : Nat) (xs : List Reg) : (s.loadList a xs).errCode = s.errCode := by
  induction xs generalizing s a with
  | nil => rfl
  | cons x xs ih => simp [State.loadList, ih]
@[simp] theorem State.loadList_errOpcode (s : State) (a : Nat) (xs : List Reg) : (s.loadList a xs).errOpcode = s.errOpcode := by
  induction xs generalizing s a with
  | nil => rfl
  | cons x xs ih => simp [State.loadList, ih]
@[simp] theorem State.loadList_errPc (s : State) (a : Nat) (xs : List Reg) : (s.loadList a xs).errPc = s.errPc := by
  induction xs generalizing s a with
  | nil => rfl
  | cons x xs ih => simp [State.loadList, ih]
@[simp] theorem State.loadList_draws (s : State) (a : Nat) (xs : List Reg) : (s.loadList a xs).draws = s.draws := by
  induction xs generalizing s a with
  | nil => rfl
  | cons x xs ih => simp [State.loadList, ih]

end Sys2Proof.Machine
end

