-- ==== Sys2Proof/Laws/Ops.lean ====
section
/-! SUPPORT. One lemma for each shared operation of Ops.lean and Operands.lean that says all it can do. -/

set_option Elab.async false

namespace Sys2Proof.Machine

/-! ### Byte reads do not depend on the other fields -/

theorem State.byteAt_congr {s t : State} (h : t.mem = s.mem) (a : Nat) : t.byteAt a = s.byteAt a := by
  simp [State.byteAt, h]

@[simp] theorem State.byteAt_raised (s : State) (c : Cause) (op : Word) (a : Nat) : (s.raised c op).byteAt a = s.byteAt a := rfl
@[simp] theorem State.byteAt_advance (s : State) (a : Nat) : s.advance.byteAt a = s.byteAt a := rfl
@[simp] theorem State.byteAt_setReg (s : State) (x : Reg) (b : Byte) (a : Nat) : (s.setReg x b).byteAt a = s.byteAt a := rfl
@[simp] theorem State.byteAt_setPlane (s : State) (p : PlaneId) (b : Plane) (a : Nat) :
    (s.setPlane p b).byteAt a = s.byteAt a := State.byteAt_congr (by simp) a

/-! ### General registers -/

theorem State.reg_congr {s t : State} (h : t.v = s.v) (x : Reg) : t.reg x = s.reg x := by simp [State.reg, h]

@[simp] theorem State.reg_raised (s : State) (c : Cause) (op : Word) (x : Reg) : (s.raised c op).reg x = s.reg x := rfl
@[simp] theorem State.reg_advance (s : State) (x : Reg) : s.advance.reg x = s.reg x := rfl
@[simp] theorem State.reg_writeBytes (s : State) (a : Nat) (bs : List Byte) (x : Reg) :
    (s.writeBytes a bs).reg x = s.reg x := rfl

/-- A register write gives its byte in its register and leaves every other register alone (R21). -/
theorem State.reg_setReg (s : State) (x : Reg) (b : Byte) (y : Reg) :
    (s.setReg x b).reg y = if y = x then b else s.reg y := by
  simp only [State.reg, State.setReg, Fin.getElem_fin, Vector.getElem_set]
  by_cases h : x = y
  · subst h; simp
  · rw [if_neg (fun e => h (Fin.ext e)), if_neg (fun e => h e.symm)]

@[simp] theorem State.reg_setReg_same (s : State) (x : Reg) (b : Byte) : (s.setReg x b).reg x = b := by
  simp [State.reg_setReg]

theorem State.reg_setReg_other (s : State) {x y : Reg} (b : Byte) (h : y ≠ x) : (s.setReg x b).reg y = s.reg y := by
  simp [State.reg_setReg, h]

/-- R129: VF holds the flag, the result is in its register unless that is VF, every other register is as before. -/
theorem State.reg_setRegFlag (s : State) (x : Reg) (b : Byte) (f : Bool) (y : Reg) :
    (s.setRegFlag x b f).reg y = if y = vf then flagByte f else if y = x then b else s.reg y := by
  simp only [State.setRegFlag, State.reg_setReg]

@[simp] theorem State.reg_setRegFlag_vf (s : State) (x : Reg) (b : Byte) (f : Bool) :
    (s.setRegFlag x b f).reg vf = flagByte f := by simp [State.reg_setRegFlag]

/-! ### Fatal errors -/

theorem raise_eq (c : Cause) (op : Word) (s : State) : raise c op s = .next (s.raised c op) := rfl

/-- What a raise leaves (R213). -/
theorem raisedFrom_raised (s : State) (c : Cause) (op : Word) : RaisedFrom s (s.raised c op) c op :=
  ⟨rfl, rfl, rfl, rfl, rfl⟩

/-- A state after a raise is determined by what it was raised from. -/
theorem eq_raised_of_raisedFrom {s t : State} {c : Cause} {op : Word} (h : RaisedFrom s t c op) : t = s.raised c op := by
  obtain ⟨h1, h2, h3, h4, h5⟩ := h
  cases t; cases s
  simp only [State.mk.injEq, State.raised] at *
  simp_all

/-- The gate of R92 lets the body run or raises. -/
theorem gate_cases {b : Bool} {op : Word} {s : State} {body r : Result} (h : gate b op s body = r) :
    (b = true ∧ r = body) ∨ (b = false ∧ r = .next (s.raised .unsupportedOnVariant op)) := by
  cases b
  · exact .inr ⟨rfl, h.symm⟩
  · exact .inl ⟨rfl, h.symm⟩

/-- The range check of R75 lets the body run or raises. -/
theorem withRange_cases {last : Nat} {op : Word} {s : State} {body r : Result} (h : withRange last op s body = r) :
    (last < memSize s.target ∧ r = body) ∨
    (memSize s.target ≤ last ∧ r = .next (s.raised .memoryOutOfRange op)) := by
  unfold withRange State.inMemory at h
  split at h
  · rename_i hl; exact .inl ⟨by simpa using hl, h.symm⟩
  · rename_i hl; exact .inr ⟨by simpa using hl, h.symm⟩

/-! ### Call stack -/

/-- A push fails on 15 entries, and else stores at SP and counts (R25, R102). -/
theorem push_cases {s : State} {w : Word} {r : Option State} (h : s.push w = r) :
    (s.sp = 15 ∧ r = none) ∨ (s.sp ≠ 15 ∧ r = some { s with stack := s.stack.set s.sp w, sp := s.sp + 1 }) := by
  unfold State.push at h
  split at h
  · exact .inl ⟨‹_›, h.symm⟩
  · exact .inr ⟨‹_›, h.symm⟩

/-- A pop fails on an empty stack, and else counts down and gives the entry there (R25, R100). -/
theorem pop_cases {s : State} {r : Option (Word × State)} (h : s.pop = r) :
    (s.sp = 0 ∧ r = none) ∨ (s.sp ≠ 0 ∧ r = some (s.stack[s.sp - 1], { s with sp := s.sp - 1 })) := by
  unfold State.pop at h
  split at h
  · exact .inl ⟨‹_›, h.symm⟩
  · exact .inr ⟨‹_›, h.symm⟩

/-! ### Skips -/

/-- R62: the two-byte read answers exactly where both bytes exist. -/
theorem memRead2_cases {s : State} {a : Nat} {r : Option Word} (h : s.memRead2 a = r) :
    (a + 1 < memSize s.target ∧ r = some (s.wordAt a)) ∨ (memSize s.target ≤ a + 1 ∧ r = none) := by
  unfold State.memRead2 State.inMemory at h
  split at h
  · rename_i hl; exact .inl ⟨by simpa using hl, h.symm⟩
  · rename_i hl; exact .inr ⟨by simpa using hl, h.symm⟩

/-- R105: a taken skip passes one instruction, two bytes or, on XOCHIP over 0xF000, four; on XOCHIP it raises where the
word to be skipped is not in memory. -/
theorem skip_cases {op : Word} {s : State} {r : Result} (h : skip op s = r) :
    (qSkipWide s.target = false ∧ r = .next { s with pc := s.pc + 4 }) ∨
    (qSkipWide s.target = true ∧ s.nextPc.toNat + 1 < memSize s.target ∧
      r = .next { s with pc := s.pc + (if s.wordAt s.nextPc.toNat = wideWord then 6 else 4) }) ∨
    (qSkipWide s.target = true ∧ memSize s.target ≤ s.nextPc.toNat + 1 ∧
      r = .next (s.raised .memoryOutOfRange op)) := by
  have two : s.nextPc + 2 = s.pc + 4 := by simp [State.nextPc, BitVec.add_assoc]
  have four : s.nextPc + 4 = s.pc + 6 := by simp [State.nextPc, BitVec.add_assoc]
  rw [← h, skip]
  cases hq : qSkipWide s.target
  · exact .inl ⟨rfl, by rw [if_neg (by decide), two]⟩
  · right
    rw [if_pos rfl]
    rcases memRead2_cases (s := s) (a := s.nextPc.toNat) rfl with ⟨hl, he⟩ | ⟨hl, he⟩
    · refine .inl ⟨rfl, hl, ?_⟩
      rw [he]
      by_cases hw : s.wordAt s.nextPc.toNat = wideWord
      · rw [if_pos hw]; show Host.Outcome.next _ = _; rw [if_pos hw, four]
      · rw [if_neg hw]; show Host.Outcome.next _ = _; rw [if_neg hw, two]
    · exact .inr ⟨rfl, hl, by rw [he]; rfl⟩

/-- A conditional skip (R105): nothing but the advance where the condition does not hold. -/
theorem skipIf_false (op : Word) (s : State) : skipIf false op s = .next s.advance := rfl

theorem skipIf_true (op : Word) (s : State) : skipIf true op s = skip op s := rfl

/-! ### Register ranges -/

/-- R149: one transfer for each register between the two, both included. -/
@[simp] theorem length_regRange (x y : Reg) : (regRange x y).length = (x.val - y.val) + (y.val - x.val) + 1 := by
  unfold regRange; split <;> simp <;> omega

/-- R149: rising from x where x ≤ y, else falling from x. -/
theorem getElem_regRange (x y : Reg) (k : Nat) (h : k < (regRange x y).length) :
    (regRange x y)[k].val = if x.val ≤ y.val then x.val + k else x.val - k := by
  rw [length_regRange] at h
  unfold regRange
  split
  · simp; omega
  · simp; omega

/-- No register is transferred twice. -/
theorem nodup_regRange (x y : Reg) : (regRange x y).Nodup := by
  rw [List.nodup_iff_injective_getElem]
  intro ⟨a, ha⟩ ⟨b, hb⟩ h
  have ha' := getElem_regRange x y a ha
  have hb' := getElem_regRange x y b hb
  simp only at h
  rw [h, hb'] at ha'
  rw [length_regRange] at ha hb
  apply Fin.ext
  simp only
  split at ha' <;> omega

theorem mem_regRange (x y r : Reg) :
    r ∈ regRange x y ↔ (x.val ≤ r.val ∧ r.val ≤ y.val) ∨ (y.val ≤ r.val ∧ r.val ≤ x.val) := by
  rw [List.mem_iff_getElem]
  constructor
  · rintro ⟨k, hk, rfl⟩
    have := getElem_regRange x y k hk
    rw [length_regRange] at hk
    split at this <;> omega
  · intro h
    refine ⟨(x.val - r.val) + (r.val - x.val), by rw [length_regRange]; omega, ?_⟩
    apply Fin.ext
    rw [getElem_regRange]
    split <;> omega

theorem State.byteAt_loadList (s : State) (a : Nat) (xs : List Reg) (b : Nat) : (s.loadList a xs).byteAt b = s.byteAt b :=
  State.byteAt_congr (by simp) b

/-- A register that the transfer does not name is as before. -/
theorem State.reg_loadList_other (s : State) (a : Nat) (xs : List Reg) (r : Reg) (h : r ∉ xs) :
    (s.loadList a xs).reg r = s.reg r := by
  induction xs generalizing s a with
  | nil => rfl
  | cons x xs ih =>
    simp only [List.mem_cons, not_or] at h
    rw [State.loadList, ih _ _ h.2, State.reg_setReg_other _ _ h.1]

/-- The k-th register named gets the byte at the k-th address (R148, R150). -/
theorem State.reg_loadList (s : State) (a : Nat) (xs : List Reg) (h : xs.Nodup) (k : Nat) (hk : k < xs.length) :
    (s.loadList a xs).reg xs[k] = s.byteAt (a + k) := by
  induction xs generalizing s a k with
  | nil => simp at hk
  | cons x xs ih =>
    obtain ⟨hx, hn⟩ := List.nodup_cons.1 h
    cases k with
    | zero => simp [State.loadList, State.reg_loadList_other _ _ _ _ hx]
    | succ k =>
      have := ih (s.setReg x (s.byteAt a)) (a + 1) hn k (by simpa using hk)
      simp only [State.loadList, List.getElem_cons_succ, this, State.byteAt_setReg]
      congr 1; omega

end Sys2Proof.Machine
end

