-- ==== Sys2Proof/Laws/Display.lean ====
section
/-! SUPPORT. The display operations, bit by bit: what each leaves in every bit of a plane (43_display.md R161 to R172). -/

set_option Elab.async false

namespace Sys2Proof.Machine

/-! ### Buffer bits -/

theorem Plane.bit_of_lt (b : Plane) {y : Nat} (h : y < 64) (x : Nat) : Plane.bit b y x = b[y].getLsbD x := by
  simp [Plane.bit, h]

theorem Plane.bit_of_row_ge (b : Plane) {y : Nat} (h : 64 ≤ y) (x : Nat) : Plane.bit b y x = false := by
  simp [Plane.bit, Nat.not_lt.2 h]

theorem Plane.bit_of_col_ge (b : Plane) (y : Nat) {x : Nat} (h : 128 ≤ x) : Plane.bit b y x = false := by
  unfold Plane.bit
  split
  · exact BitVec.getLsbD_of_ge _ _ h
  · rfl

/-- Planes with the same bits are the same plane. -/
theorem Plane.ext_bit {a b : Plane} (h : ∀ y x, y < 64 → x < 128 → Plane.bit a y x = Plane.bit b y x) : a = b := by
  apply Vector.ext
  intro y hy
  apply BitVec.eq_of_getLsbD_eq
  intro x hx
  have := h y x hy hx
  rwa [Plane.bit_of_lt _ hy, Plane.bit_of_lt _ hy] at this

@[simp] theorem Plane.bit_blank (y x : Nat) : Plane.bit Plane.blank y x = false := by
  unfold Plane.bit Plane.blank
  split <;> simp

/-- One bit is written, and every other bit is as before. -/
theorem Plane.bit_setBit (b : Plane) {y x : Nat} (hy : y < 64) (hx : x < 128) (v : Bool) (y' x' : Nat) :
    Plane.bit (Plane.setBit b y x v) y' x' = if y' = y ∧ x' = x then v else Plane.bit b y' x' := by
  by_cases hy' : y' < 64
  · rw [Plane.bit_of_lt _ hy', Plane.bit_of_lt _ hy', Plane.setBit, dif_pos hy, Vector.getElem_set]
    by_cases e : y = y'
    · subst e
      have ones : ((1#128) <<< x).getLsbD x' = decide (x' = x) := by
        simp only [BitVec.getLsbD_shiftLeft, BitVec.getLsbD_one]
        by_cases e : x' = x
        · subst e; simp [hx]
        · have : x' < x ∨ x' - x ≠ 0 := by omega
          rcases this with h | h <;> simp [h, e]
      rw [if_pos rfl]
      by_cases hx' : x' < 128
      · cases v
        · simp only [Bool.false_eq_true, if_false, BitVec.getLsbD_and, BitVec.getLsbD_not, ones]
          by_cases ex : x' = x <;> simp [ex, hx, hx']
        · simp only [if_true, BitVec.getLsbD_or, ones]
          by_cases ex : x' = x <;> simp [ex]
      · rw [if_neg (show ¬(y = y ∧ x' = x) by omega), BitVec.getLsbD_of_ge _ _ (by omega),
          BitVec.getLsbD_of_ge _ _ (by omega)]
    · rw [if_neg e, if_neg (fun h => e h.1.symm)]
  · rw [Plane.bit_of_row_ge _ (by omega), Plane.bit_of_row_ge _ (by omega), if_neg (by omega)]

/-! ### Scrolls -/

/-- R165. -/
theorem Plane.bit_scrollDown (d : Nat) (b : Plane) {y : Nat} (hy : y < 64) (x : Nat) :
    Plane.bit (Plane.scrollDown d b) y x = if d ≤ y then Plane.bit b (y - d) x else false := by
  rw [Plane.bit_of_lt _ hy, Plane.scrollDown, Vector.getElem_ofFn]
  split
  · rw [Plane.bit_of_lt _ (by omega)]
  · simp

/-- R166. -/
theorem Plane.bit_scrollUp (d : Nat) (b : Plane) {y : Nat} (hy : y < 64) (x : Nat) :
    Plane.bit (Plane.scrollUp d b) y x = if y + d ≤ 63 then Plane.bit b (y + d) x else false := by
  rw [Plane.bit_of_lt _ hy, Plane.scrollUp, Vector.getElem_ofFn]
  by_cases h : y + d < 64
  · rw [dif_pos h, if_pos (by omega), Plane.bit_of_lt _ h]
  · rw [dif_neg h, if_neg (by omega)]; simp

/-- R167. -/
theorem Plane.bit_scrollRight (d : Nat) (b : Plane) (y : Nat) {x : Nat} (hx : x < 128) :
    Plane.bit (Plane.scrollRight d b) y x = if d ≤ x then Plane.bit b y (x - d) else false := by
  by_cases hy : y < 64
  · rw [Plane.bit_of_lt _ hy, Plane.bit_of_lt _ hy, Plane.scrollRight, Vector.getElem_ofFn]
    simp only [Fin.getElem_fin, BitVec.getLsbD_shiftLeft]
    by_cases h : d ≤ x
    · simp [h, hx, Nat.not_lt.2 h]
    · simp [h, Nat.lt_of_not_le h]
  · simp [Plane.bit_of_row_ge _ (Nat.le_of_not_lt hy)]

/-- R168. -/
theorem Plane.bit_scrollLeft (d : Nat) (b : Plane) (y x : Nat) :
    Plane.bit (Plane.scrollLeft d b) y x = if x + d ≤ 127 then Plane.bit b y (x + d) else false := by
  by_cases hy : y < 64
  · rw [Plane.bit_of_lt _ hy, Plane.bit_of_lt _ hy, Plane.scrollLeft, Vector.getElem_ofFn]
    simp only [Fin.getElem_fin, BitVec.getLsbD_ushiftRight]
    by_cases h : x + d ≤ 127
    · rw [if_pos h, Nat.add_comm]
    · rw [if_neg h]; exact BitVec.getLsbD_of_ge _ _ (by omega)
  · simp [Plane.bit_of_row_ge _ (Nat.le_of_not_lt hy)]

/-! ### Logical pixels -/

theorem Mode.width_mul_scale (m : Mode) : m.width * m.scale = 128 := by cases m <;> rfl

theorem Mode.height_mul_scale (m : Mode) : m.height * m.scale = 64 := by cases m <;> rfl

/-- R161: the whole block of the logical pixel is written, and every other bit is as before. -/
theorem Plane.bit_setPix (m : Mode) (b : Plane) {x y : Nat} (hx : x < m.width) (hy : y < m.height) (v : Bool)
    (y' x' : Nat) :
    Plane.bit (Plane.setPix m b x y v) y' x' =
      if y' / m.scale = y ∧ x' / m.scale = x then v else Plane.bit b y' x' := by
  cases m
  · have hx : x < 64 := hx
    have hy : y < 32 := hy
    have two : Plane.setPix .lores b x y v =
        Plane.setBit (Plane.setBit (Plane.setBit (Plane.setBit b (2 * y) (2 * x) v) (2 * y) (2 * x + 1) v)
          (2 * y + 1) (2 * x) v) (2 * y + 1) (2 * x + 1) v := rfl
    rw [two, Plane.bit_setBit _ (by omega) (by omega), Plane.bit_setBit _ (by omega) (by omega),
      Plane.bit_setBit _ (by omega) (by omega), Plane.bit_setBit _ (by omega) (by omega)]
    by_cases h : y' / Mode.lores.scale = y ∧ x' / Mode.lores.scale = x
    · rw [if_pos h]
      simp only [Mode.scale] at h
      have : (y' = 2 * y ∨ y' = 2 * y + 1) ∧ (x' = 2 * x ∨ x' = 2 * x + 1) := by omega
      rcases this with ⟨rfl | rfl, rfl | rfl⟩ <;> simp
    · rw [if_neg h]
      simp only [Mode.scale] at h
      rw [if_neg (by omega), if_neg (by omega), if_neg (by omega), if_neg (by omega)]
  · have hx : x < 128 := hx
    have hy : y < 64 := hy
    have one : Plane.setPix .hires b x y v = Plane.setBit b (1 * y + 0) (1 * x + 0) v := rfl
    rw [one, Plane.bit_setBit _ (by omega) (by omega)]
    simp [Mode.scale]

/-- A logical pixel reads as it was written, and every other reads as before. -/
theorem Plane.pix_setPix (m : Mode) (b : Plane) {x y : Nat} (hx : x < m.width) (hy : y < m.height) (v : Bool)
    (x' y' : Nat) :
    Plane.pix m (Plane.setPix m b x y v) x' y' = if x' = x ∧ y' = y then v else Plane.pix m b x' y' := by
  simp only [Plane.pix, Plane.bit_setPix m b hx hy]
  have hs : 0 < m.scale := by cases m <;> decide
  rw [Nat.mul_div_cancel_left _ hs, Nat.mul_div_cancel_left _ hs]
  by_cases h : x' = x ∧ y' = y
  · rw [if_pos h, if_pos ⟨h.2, h.1⟩]
  · rw [if_neg h, if_neg (fun e => h ⟨e.2, e.1⟩)]

/-! ### Sprites -/

/-- A logical pixel on which a set pixel of the sprite lands (R170). -/
def SpriteHits (p : Placement) (sprite : Nat → Nat → Bool) (cells : List (Nat × Nat)) (x y : Nat) : Prop :=
  ∃ rc ∈ cells, sprite rc.1 rc.2 = true ∧ p.pixel rc.1 rc.2 = some (x, y)

theorem Placement.pixel_lt {p : Placement} {r c x y : Nat} (h : p.pixel r c = some (x, y)) :
    x < p.mode.width ∧ y < p.mode.height := by
  cases hw : p.wrap <;> simp only [Placement.pixel, hw, Bool.false_eq_true, if_false, if_true] at h <;> split at h
  all_goals simp only [Option.some.injEq, Prod.mk.injEq, reduceCtorEq] at h
  all_goals rw [← h.1, ← h.2]; assumption

/-- R170: "Within one DXYN no two sprite pixels land on the same logical pixel". -/
theorem Placement.pixel_inj {p : Placement} {r c r' c' x y : Nat} (hr : r < 16) (hc : c < 16) (hr' : r' < 16)
    (hc' : c' < 16) (h : p.pixel r c = some (x, y)) (h' : p.pixel r' c' = some (x, y)) : r = r' ∧ c = c' := by
  obtain ⟨m, w, x0, y0⟩ := p
  cases m <;> cases w <;>
    simp only [Placement.pixel, Mode.width, Mode.height, Mode.scale, Bool.false_eq_true, if_false, if_true] at h h' <;>
    split at h <;> simp only [Option.some.injEq, Prod.mk.injEq, reduceCtorEq] at h <;>
    split at h' <;> simp only [Option.some.injEq, Prod.mk.injEq, reduceCtorEq] at h' <;> omega

theorem mem_spriteCells {rows width r c : Nat} : (r, c) ∈ spriteCells rows width ↔ r < rows ∧ c < width := by
  simp [spriteCells]

theorem nodup_spriteCells (rows width : Nat) : (spriteCells rows width).Nodup := by
  unfold spriteCells
  refine List.nodup_flatMap.2 ⟨fun r _ => ?_, ?_⟩
  · exact List.Nodup.map (fun a b h => (Prod.mk.inj h).2) List.nodup_range
  · refine List.Pairwise.imp ?_ (List.nodup_range (n := rows))
    intro a b hab
    simp only [Function.onFun, List.disjoint_left, List.mem_map, List.mem_range, not_exists, not_and]
    rintro _ ⟨_, _, rfl⟩ _ _ h
    exact hab (Prod.mk.inj h).1.symm

/-- The pixels of a sprite of at most 16 by 16 land on different logical pixels. -/
theorem pairwise_spriteCells (p : Placement) {rows width : Nat} (hr : rows ≤ 16) (hc : width ≤ 16) :
    (spriteCells rows width).Pairwise fun a b =>
      ∀ q, p.pixel a.1 a.2 = some q → p.pixel b.1 b.2 ≠ some q := by
  refine List.Pairwise.imp_of_mem ?_ (nodup_spriteCells rows width)
  rintro ⟨r, c⟩ ⟨r', c'⟩ ha hb hne ⟨x, y⟩ h h'
  rw [mem_spriteCells] at ha hb
  obtain ⟨rfl, rfl⟩ := Placement.pixel_inj (by omega) (by omega) (by omega) (by omega) h h'
  exact hne rfl

theorem drawPixel_skip {p : Placement} {sprite : Nat → Nat → Bool} {acc : Plane × Bool} {rc : Nat × Nat}
    (h : ∀ q, ¬(sprite rc.1 rc.2 = true ∧ p.pixel rc.1 rc.2 = some q)) : drawPixel p sprite acc rc = acc := by
  unfold drawPixel
  by_cases hs : sprite rc.1 rc.2 = true
  · rw [if_pos hs]
    cases hq : p.pixel rc.1 rc.2 with
    | none => rfl
    | some q => exact absurd ⟨hs, hq⟩ (h q)
  · rw [if_neg hs]

theorem drawPixel_hit {p : Placement} {sprite : Nat → Nat → Bool} {acc : Plane × Bool} {rc : Nat × Nat} {x y : Nat}
    (hs : sprite rc.1 rc.2 = true) (hp : p.pixel rc.1 rc.2 = some (x, y)) :
    drawPixel p sprite acc rc = togglePixel p.mode acc x y := by
  simp [drawPixel, hs, hp]

/-- Drawing cells that land on different pixels: each logical pixel that is hit has the inverse of its old value in its
whole block, every other bit is as before, and the flag tells whether a set pixel was hit. -/
theorem foldl_drawPixel (p : Placement) (sprite : Nat → Nat → Bool) (cells : List (Nat × Nat)) (acc : Plane × Bool)
    (hd : cells.Pairwise fun a b => ∀ q, p.pixel a.1 a.2 = some q → p.pixel b.1 b.2 ≠ some q) :
    (∀ y x, SpriteHits p sprite cells (x / p.mode.scale) (y / p.mode.scale) →
      Plane.bit (cells.foldl (drawPixel p sprite) acc).1 y x =
        !Plane.pix p.mode acc.1 (x / p.mode.scale) (y / p.mode.scale)) ∧
    (∀ y x, ¬SpriteHits p sprite cells (x / p.mode.scale) (y / p.mode.scale) →
      Plane.bit (cells.foldl (drawPixel p sprite) acc).1 y x = Plane.bit acc.1 y x) ∧
    ((cells.foldl (drawPixel p sprite) acc).2 = true ↔
      acc.2 = true ∨ ∃ x y, SpriteHits p sprite cells x y ∧ Plane.pix p.mode acc.1 x y = true) := by
  induction cells generalizing acc with
  | nil => simp [SpriteHits]
  | cons rc cells ih =>
    obtain ⟨hrc, hd⟩ := List.pairwise_cons.1 hd
    rw [List.foldl_cons]
    by_cases hh : ∃ q, sprite rc.1 rc.2 = true ∧ p.pixel rc.1 rc.2 = some q
    · obtain ⟨⟨x0, y0⟩, hs, hp⟩ := hh
      obtain ⟨hx0, hy0⟩ := Placement.pixel_lt hp
      have alone : ¬SpriteHits p sprite cells x0 y0 := by
        rintro ⟨rc', hm, _, hp'⟩
        exact hrc rc' hm _ hp hp'
      have split : ∀ x y, SpriteHits p sprite (rc :: cells) x y ↔ (x = x0 ∧ y = y0) ∨ SpriteHits p sprite cells x y := by
        intro x y
        constructor
        · rintro ⟨rc', hm, hs', hp'⟩
          rcases List.mem_cons.1 hm with rfl | hm
          · rw [hp, Option.some.injEq, Prod.mk.injEq] at hp'
            exact .inl ⟨hp'.1.symm, hp'.2.symm⟩
          · exact .inr ⟨rc', hm, hs', hp'⟩
        · rintro (⟨rfl, rfl⟩ | ⟨rc', hm, h⟩)
          · exact ⟨rc, List.mem_cons_self, hs, hp⟩
          · exact ⟨rc', List.mem_cons_of_mem _ hm, h⟩
      rw [drawPixel_hit hs hp]
      obtain ⟨ih1, ih2, ih3⟩ := ih (togglePixel p.mode acc x0 y0) hd
      have old : ∀ x y, SpriteHits p sprite cells x y →
          Plane.pix p.mode (togglePixel p.mode acc x0 y0).1 x y = Plane.pix p.mode acc.1 x y := by
        intro x y h
        simp only [togglePixel, Plane.pix_setPix _ _ hx0 hy0]
        rw [if_neg]; rintro ⟨rfl, rfl⟩; exact alone h
      refine ⟨fun y x h => ?_, fun y x h => ?_, ?_⟩
      · by_cases hc : SpriteHits p sprite cells (x / p.mode.scale) (y / p.mode.scale)
        · rw [ih1 y x hc, old _ _ hc]
        · rcases (split _ _).1 h with ⟨hx, hy⟩ | h
          · rw [ih2 y x hc]
            simp only [togglePixel, Plane.bit_setPix _ _ hx0 hy0]
            rw [if_pos ⟨hy, hx⟩, hx, hy]
          · exact absurd h hc
      · rw [split, not_or] at h
        rw [ih2 y x h.2]
        simp only [togglePixel, Plane.bit_setPix _ _ hx0 hy0]
        rw [if_neg (fun e => h.1 ⟨e.2, e.1⟩)]
      · rw [ih3]
        simp only [togglePixel, Bool.or_eq_true]
        constructor
        · rintro ((h | h) | ⟨x, y, h, hb⟩)
          · exact .inl h
          · exact .inr ⟨x0, y0, (split _ _).2 (.inl ⟨rfl, rfl⟩), h⟩
          · refine .inr ⟨x, y, (split _ _).2 (.inr h), ?_⟩
            rw [← old x y h]; exact hb
        · rintro (h | ⟨x, y, h, hb⟩)
          · exact .inl (.inl h)
          · rcases (split _ _).1 h with ⟨rfl, rfl⟩ | h
            · exact .inl (.inr hb)
            · refine .inr ⟨x, y, h, ?_⟩
              have := old x y h
              simp only [togglePixel] at this
              rw [this]; exact hb
    · have same : ∀ x y, SpriteHits p sprite (rc :: cells) x y ↔ SpriteHits p sprite cells x y := by
        intro x y
        constructor
        · rintro ⟨rc', hm, h⟩
          rcases List.mem_cons.1 hm with rfl | hm
          · exact absurd ⟨_, h⟩ hh
          · exact ⟨rc', hm, h⟩
        · rintro ⟨rc', hm, h⟩
          exact ⟨rc', List.mem_cons_of_mem _ hm, h⟩
      rw [drawPixel_skip (fun q hq => hh ⟨q, hq⟩)]
      simp only [same]
      exact ih acc hd

theorem spriteShape_le (n : Nibble) : (spriteShape n).rows ≤ 16 ∧ (spriteShape n).width ≤ 16 := by
  unfold spriteShape; split
  · simp
  · exact ⟨by simp only; omega, by simp⟩

/-- What a sprite of DXYN leaves on one plane (R170). -/
theorem drawPlane_spec (p : Placement) (n : Nibble) (sprite : Nat → Nat → Bool) (b : Plane) :
    let cells := spriteCells (spriteShape n).rows (spriteShape n).width
    (∀ y x, SpriteHits p sprite cells (x / p.mode.scale) (y / p.mode.scale) →
      Plane.bit (drawPlane p (spriteShape n) sprite b).1 y x =
        !Plane.pix p.mode b (x / p.mode.scale) (y / p.mode.scale)) ∧
    (∀ y x, ¬SpriteHits p sprite cells (x / p.mode.scale) (y / p.mode.scale) →
      Plane.bit (drawPlane p (spriteShape n) sprite b).1 y x = Plane.bit b y x) ∧
    ((drawPlane p (spriteShape n) sprite b).2 = true ↔
      ∃ x y, SpriteHits p sprite cells x y ∧ Plane.pix p.mode b x y = true) := by
  have h := foldl_drawPixel p sprite _ (b, false)
    (pairwise_spriteCells p (spriteShape_le n).1 (spriteShape_le n).2)
  simpa [drawPlane] using h

/-! ### The planes of a state -/

@[simp] theorem State.plane_setPlane (s : State) (p q : PlaneId) (b : Plane) :
    (s.setPlane p b).plane q = if q = p then b else s.plane q := by cases p <;> cases q <;> rfl

/-- Each selected plane is replaced, the other is as before, `dirty` is set, and nothing else changes (R162, R174). -/
theorem State.onSelected_eq (s : State) (f : Plane → Plane) :
    s.onSelected f =
      { s with buf1 := if s.bitplane.getLsbD 0 then f s.buf1 else s.buf1,
               buf2 := if s.bitplane.getLsbD 1 then f s.buf2 else s.buf2, dirty := true } := by
  unfold State.onSelected selectedPlanes
  cases s.bitplane.getLsbD 0 <;> cases s.bitplane.getLsbD 1 <;> rfl

/-- Each selected plane is drawn on with its own bytes, and the flag tells whether any had a collision (R169, R170). -/
theorem State.drawSelected_eq (s : State) (x y : Reg) (shape : SpriteShape) :
    let draw := fun j b => drawPlane (s.placement x y) shape (s.spriteBit (s.indexed (j * shape.len)) shape.width) b
    let j2 := if s.bitplane.getLsbD 0 then 1 else 0
    s.drawSelected x y shape =
      ({ s with buf1 := if s.bitplane.getLsbD 0 then (draw 0 s.buf1).1 else s.buf1,
                buf2 := if s.bitplane.getLsbD 1 then (draw j2 s.buf2).1 else s.buf2 },
        (s.bitplane.getLsbD 0 && (draw 0 s.buf1).2) || (s.bitplane.getLsbD 1 && (draw j2 s.buf2).2)) := by
  intro draw j2
  unfold State.drawSelected selectedPlanes
  cases h0 : s.bitplane.getLsbD 0 <;> cases h1 : s.bitplane.getLsbD 1 <;>
    simp only [draw, j2, h0, Bool.false_eq_true, if_false, if_true] <;> simp [State.setPlane, State.plane]

theorem length_selectedPlanes (m : BitVec 2) :
    (selectedPlanes m).length = (if m.getLsbD 0 then 1 else 0) + (if m.getLsbD 1 then 1 else 0) := by
  unfold selectedPlanes
  cases m.getLsbD 0 <;> cases m.getLsbD 1 <;> rfl

end Sys2Proof.Machine
end

