-- ==== Sys2Proof/Laws/Exec.lean ====
section
/-! SUPPORT. What an instruction and a Step can do, said once: an instruction either raises a precise fatal error with its
own word, or goes on with target and report as they were. -/

set_option Elab.async false

namespace Sys2Proof.Machine

theorem SameControl.refl (s : State) : SameControl s s := ⟨rfl, rfl, rfl⟩

theorem sameControl_of_fields {s t : State} (ht : t.target = s.target) (hh : t.halted = s.halted)
    (h1 : t.errCode = s.errCode) (h2 : t.errOpcode = s.errOpcode) (h3 : t.errPc = s.errPc) : SameControl s t :=
  ⟨ht, hh, by simp [State.report, hh, h1, h2, h3]⟩

/-- The instruction raised with its own word, or went on with target, halt and report unchanged. -/
def RaisesOrKeeps (op : Word) (s : State) (r : Result) : Prop :=
  (∃ c, r = .next (s.raised c op)) ∨ ∃ t, r = .next t ∧ SameControl s t

theorem raisesOrKeeps_raise (c : Cause) (op : Word) (s : State) : RaisesOrKeeps op s (raise c op s) := .inl ⟨c, rfl⟩

theorem raisesOrKeeps_next {op : Word} {s t : State} (h : SameControl s t) : RaisesOrKeeps op s (.next t) :=
  .inr ⟨t, rfl, h⟩

theorem raisesOrKeeps_gate {b : Bool} {op : Word} {s : State} {body : Result} (h : RaisesOrKeeps op s body) :
    RaisesOrKeeps op s (gate b op s body) := by
  cases b
  · exact raisesOrKeeps_raise ..
  · exact h

theorem raisesOrKeeps_withRange {last : Nat} {op : Word} {s : State} {body : Result} (h : RaisesOrKeeps op s body) :
    RaisesOrKeeps op s (withRange last op s body) := by
  unfold withRange
  split
  · exact h
  · exact raisesOrKeeps_raise ..

theorem raisesOrKeeps_skipIf (cond : Bool) (op : Word) (s : State) : RaisesOrKeeps op s (skipIf cond op s) := by
  cases cond
  · exact raisesOrKeeps_next ⟨rfl, rfl, rfl⟩
  · rcases skip_cases (op := op) (s := s) rfl with ⟨-, h⟩ | ⟨-, -, h⟩ | ⟨-, -, h⟩ <;> rw [skipIf_true, h]
    · exact raisesOrKeeps_next ⟨rfl, rfl, rfl⟩
    · exact raisesOrKeeps_next ⟨rfl, rfl, rfl⟩
    · exact raisesOrKeeps_raise ..

theorem sameControl_onSelected (s : State) (f : Plane → Plane) : SameControl s (s.onSelected f) := by
  rw [State.onSelected_eq]; exact ⟨rfl, rfl, rfl⟩

theorem sameControl_loadList (s : State) (a : Nat) (xs : List Reg) : SameControl s (s.loadList a xs) :=
  sameControl_of_fields (by simp) (by simp) (by simp) (by simp) (by simp)

/-- What an instruction's body keeps from the state past the word, it keeps from the one before it. -/
theorem sameControl_of_advance {s t : State} (h : SameControl s.advance t) : SameControl s t :=
  ⟨h.target, h.halted, h.report⟩

theorem raisesOrKeeps_drw (x y : Reg) (n : Nibble) (s : State) :
    RaisesOrKeeps (opcodeOf (.drw x y n)) s (execDrw x y n s) := by
  have done : ∀ r, r = Host.Outcome.next (φ := Fault) (ρ := Refusal)
      { (s.advance.drawSelected x y (spriteShape n)).1.setReg vf
        (flagByte (s.advance.drawSelected x y (spriteShape n)).2) with dirty := true } →
      RaisesOrKeeps (opcodeOf (.drw x y n)) s r := by
    rintro _ rfl
    refine raisesOrKeeps_next ?_
    rw [State.drawSelected_eq]
    exact ⟨rfl, rfl, rfl⟩
  unfold execDrw
  simp only
  split
  · exact done _ rfl
  · exact raisesOrKeeps_withRange (done _ rfl)

/-- What an instruction can do to target and report. -/
theorem exec_raisesOrKeeps (i : Instr) (s : State) : RaisesOrKeeps (opcodeOf i) s (exec i s) := by
  cases i
  case drw x y n => exact raisesOrKeeps_drw x y n s
  case exit => exact raisesOrKeeps_raise ..
  case audio => exact raisesOrKeeps_raise ..
  case pitch => exact raisesOrKeeps_raise ..
  case saveFlags => exact raisesOrKeeps_raise ..
  case loadFlags => exact raisesOrKeeps_raise ..
  case seImm => exact raisesOrKeeps_skipIf ..
  case sneImm => exact raisesOrKeeps_skipIf ..
  case seReg => exact raisesOrKeeps_skipIf ..
  case sneReg => exact raisesOrKeeps_skipIf ..
  case skp x =>
    show RaisesOrKeeps _ s (execSkp x s)
    unfold execSkp; split
    · exact raisesOrKeeps_raise ..
    · exact raisesOrKeeps_skipIf ..
  case sknp x =>
    show RaisesOrKeeps _ s (execSknp x s)
    unfold execSknp; split
    · exact raisesOrKeeps_raise ..
    · exact raisesOrKeeps_skipIf ..
  case ret =>
    show RaisesOrKeeps _ s (execRet s)
    rcases pop_cases (s := s) rfl with ⟨-, h⟩ | ⟨-, h⟩ <;> simp only [execRet, h]
    · exact raisesOrKeeps_raise ..
    · exact raisesOrKeeps_next ⟨rfl, rfl, rfl⟩
  case call nnn =>
    show RaisesOrKeeps _ s (execCall nnn s)
    rcases push_cases (s := s) (w := s.nextPc) rfl with ⟨-, h⟩ | ⟨-, h⟩ <;> simp only [execCall, h]
    · exact raisesOrKeeps_raise ..
    · exact raisesOrKeeps_next ⟨rfl, rfl, rfl⟩
  case cls => exact raisesOrKeeps_next (sameControl_of_advance (sameControl_onSelected s.advance _))
  case scd => exact raisesOrKeeps_gate (raisesOrKeeps_next (sameControl_of_advance (sameControl_onSelected s.advance _)))
  case scu => exact raisesOrKeeps_gate (raisesOrKeeps_next (sameControl_of_advance (sameControl_onSelected s.advance _)))
  case scr => exact raisesOrKeeps_gate (raisesOrKeeps_next (sameControl_of_advance (sameControl_onSelected s.advance _)))
  case scl => exact raisesOrKeeps_gate (raisesOrKeeps_next (sameControl_of_advance (sameControl_onSelected s.advance _)))
  case low => exact raisesOrKeeps_gate (raisesOrKeeps_next ⟨rfl, rfl, rfl⟩)
  case high => exact raisesOrKeeps_gate (raisesOrKeeps_next ⟨rfl, rfl, rfl⟩)
  case plane n =>
    refine raisesOrKeeps_gate ?_
    split
    · exact raisesOrKeeps_raise ..
    · exact raisesOrKeeps_next ⟨rfl, rfl, rfl⟩
  case saveRange => exact raisesOrKeeps_gate (raisesOrKeeps_withRange (raisesOrKeeps_next ⟨rfl, rfl, rfl⟩))
  case loadRange => exact raisesOrKeeps_gate (raisesOrKeeps_withRange (raisesOrKeeps_next (sameControl_of_advance (sameControl_loadList s.advance _ _))))
  case saveRegs => exact raisesOrKeeps_withRange (raisesOrKeeps_next ⟨rfl, rfl, rfl⟩)
  case loadRegs x =>
    refine raisesOrKeeps_withRange (raisesOrKeeps_next ?_)
    have h := sameControl_loadList s.advance (s.indexed 0) (regRange 0 x)
    exact ⟨h.target, h.halted, h.report⟩
  case ldB => exact raisesOrKeeps_withRange (raisesOrKeeps_next ⟨rfl, rfl, rfl⟩)
  case ldl => exact raisesOrKeeps_gate (raisesOrKeeps_withRange (raisesOrKeeps_next ⟨rfl, rfl, rfl⟩))
  case ldHf => exact raisesOrKeeps_gate (raisesOrKeeps_next ⟨rfl, rfl, rfl⟩)
  case ldVxK x =>
    show RaisesOrKeeps _ s (execLdVxK x s)
    unfold execLdVxK; split
    · exact raisesOrKeeps_next ⟨rfl, rfl, rfl⟩
    · split <;> exact raisesOrKeeps_next ⟨rfl, rfl, rfl⟩
  all_goals exact raisesOrKeeps_next ⟨rfl, rfl, rfl⟩

/-! ### Fetch -/

/-- R84: the fetch answers exactly where both bytes are in memory, and then the word there. -/
theorem fetch_eq (s : State) : s.fetch = if s.CanFetch then some (s.wordAt s.pc.toNat) else none := by
  simp [State.fetch, State.memRead2, State.inMemory]

/-- What decodes from the bytes at pc has the fetched word as its own. -/
theorem opcodeOf_of_decode_fetchBytes {s : State} {i : Instr} {rest : List Byte} (h : decode s.fetchBytes = .instr i rest) :
    i.WellFormed ∧ opcodeOf i = s.wordAt s.pc.toNat := by
  unfold State.fetchBytes decode at h
  simp only at h
  split at h
  · split at h
    · rename_i hd; cases h; exact ⟨(decodeWord_cases hd).1, (decodeWord_cases hd).2.1⟩
    · cases h
  · split at h
    · rename_i hd; cases h; exact ⟨(decodeWord_cases hd).1, (decodeWord_cases hd).2.1⟩
    · cases h

/-- Everything a Step can do (R84). -/
theorem step_cases {s : State} {r : Result} (h : step s = r) :
    (s.halted = true ∧ r = .next s) ∨
    (s.halted = false ∧ ¬s.CanFetch ∧ r = .next (s.raised .memoryOutOfRange 0)) ∨
    (s.halted = false ∧ s.CanFetch ∧ (∃ e, decode s.fetchBytes = .reject e) ∧
      r = .next (s.raised .unimplemented (s.wordAt s.pc.toNat))) ∨
    (s.halted = false ∧ s.CanFetch ∧ ∃ i rest, decode s.fetchBytes = .instr i rest ∧ i.WellFormed ∧
      opcodeOf i = s.wordAt s.pc.toNat ∧ r = exec i s) := by
  unfold step at h
  rw [fetch_eq] at h
  cases hh : s.halted
  · right
    simp only [hh, Bool.false_eq_true, if_false] at h
    by_cases hc : s.CanFetch
    · right
      rw [if_pos hc] at h
      simp only at h
      cases hd : decode s.fetchBytes with
      | instr i rest =>
        rw [hd] at h
        have := opcodeOf_of_decode_fetchBytes hd
        exact .inr ⟨rfl, hc, i, rest, rfl, this.1, this.2, h.symm⟩
      | reject e =>
        rw [hd] at h
        exact .inl ⟨rfl, hc, ⟨e, rfl⟩, h.symm⟩
    · rw [if_neg hc] at h
      exact .inl ⟨rfl, hc, h.symm⟩
  · simp only [hh, if_true] at h
    exact .inl ⟨rfl, h.symm⟩

/-! ### The host's run -/

/-- One more step of a run is a step, and then the run. -/
theorem run_succ (M : Host.Core) (n : Nat) (s : M.State) :
    M.run (n + 1) s =
      match M.step s with
      | .next t => M.run n t
      | .fault f => .fault f
      | .refused r => .refused r := by
  cases h : M.step s <;> simp only [Host.Core.run, h]

theorem core_run_succ {n : Nat} {s t : State} (h : step s = .next t) :
    Sys2Proof.core.run (n + 1) s = Sys2Proof.core.run n t := by
  refine (run_succ Sys2Proof.core n s).trans ?_
  rw [show Sys2Proof.core.step s = .next t from h]

end Sys2Proof.Machine
end

