-- ==== Sys2Proof/Laws/PerInstr.lean ====
section
/-! SUPPORT. Per instruction: the instruction word that the encoder writes decodes to the instruction, with every operand
(30_encoding.md R81, R82, R86). -/

set_option Elab.async false

namespace Sys2Proof.Laws

/-- The second word of an instruction, 0 for one that has none. -/
def operandOf : Instr → Word
  | .ldl nnnn => nnnn
  | _ => 0

def WordRoundTrip.Statement (i : Instr) : Prop := i.WellFormed → decodeWord (opcodeOf i) (operandOf i) = some i

end Sys2Proof.Laws

open Sys2Proof Sys2Proof.Laws Sys2Proof.Laws.WordRoundTrip

theorem Sys2Proof.Laws.WordRoundTrip.scd (n : Nibble) : Statement (.scd n) := by
  intro _; simp [opcodeOf, operandOf, decodeNibbles, decodeFamily0]

theorem Sys2Proof.Laws.WordRoundTrip.scu (n : Nibble) : Statement (.scu n) := by
  intro _; simp [opcodeOf, operandOf, decodeNibbles, decodeFamily0]

theorem Sys2Proof.Laws.WordRoundTrip.cls : Statement .cls := by
  intro _; simp [opcodeOf, operandOf, decodeNibbles, decodeFamily0]

theorem Sys2Proof.Laws.WordRoundTrip.ret : Statement .ret := by
  intro _; simp [opcodeOf, operandOf, decodeNibbles, decodeFamily0]

theorem Sys2Proof.Laws.WordRoundTrip.scr : Statement .scr := by
  intro _; simp [opcodeOf, operandOf, decodeNibbles, decodeFamily0]

theorem Sys2Proof.Laws.WordRoundTrip.scl : Statement .scl := by
  intro _; simp [opcodeOf, operandOf, decodeNibbles, decodeFamily0]

theorem Sys2Proof.Laws.WordRoundTrip.exit : Statement .exit := by
  intro _; simp [opcodeOf, operandOf, decodeNibbles, decodeFamily0]

theorem Sys2Proof.Laws.WordRoundTrip.low : Statement .low := by
  intro _; simp [opcodeOf, operandOf, decodeNibbles, decodeFamily0]

theorem Sys2Proof.Laws.WordRoundTrip.high : Statement .high := by
  intro _; simp [opcodeOf, operandOf, decodeNibbles, decodeFamily0]

theorem Sys2Proof.Laws.WordRoundTrip.jp (nnn : Addr12) : Statement (.jp nnn) := by
  intro _; simp [opcodeOf, operandOf, decodeNibbles]

theorem Sys2Proof.Laws.WordRoundTrip.call (nnn : Addr12) : Statement (.call nnn) := by
  intro _; simp [opcodeOf, operandOf, decodeNibbles]

theorem Sys2Proof.Laws.WordRoundTrip.seImm (x : Reg) (nn : Byte) : Statement (.seImm x nn) := by
  intro _; simp [opcodeOf, operandOf, decodeNibbles]

theorem Sys2Proof.Laws.WordRoundTrip.sneImm (x : Reg) (nn : Byte) : Statement (.sneImm x nn) := by
  intro _; simp [opcodeOf, operandOf, decodeNibbles]

theorem Sys2Proof.Laws.WordRoundTrip.seReg (x : Reg) (y : Reg) : Statement (.seReg x y) := by
  intro _; simp [opcodeOf, operandOf, decodeNibbles, decodeFamily5]

theorem Sys2Proof.Laws.WordRoundTrip.saveRange (x : Reg) (y : Reg) : Statement (.saveRange x y) := by
  intro _; simp [opcodeOf, operandOf, decodeNibbles, decodeFamily5]

theorem Sys2Proof.Laws.WordRoundTrip.loadRange (x : Reg) (y : Reg) : Statement (.loadRange x y) := by
  intro _; simp [opcodeOf, operandOf, decodeNibbles, decodeFamily5]

theorem Sys2Proof.Laws.WordRoundTrip.ldImm (x : Reg) (nn : Byte) : Statement (.ldImm x nn) := by
  intro _; simp [opcodeOf, operandOf, decodeNibbles]

theorem Sys2Proof.Laws.WordRoundTrip.addImm (x : Reg) (nn : Byte) : Statement (.addImm x nn) := by
  intro _; simp [opcodeOf, operandOf, decodeNibbles]

theorem Sys2Proof.Laws.WordRoundTrip.ldReg (x : Reg) (y : Reg) : Statement (.ldReg x y) := by
  intro _; simp [opcodeOf, operandOf, decodeNibbles, decodeFamily8]

theorem Sys2Proof.Laws.WordRoundTrip.or (x : Reg) (y : Reg) : Statement (.or x y) := by
  intro _; simp [opcodeOf, operandOf, decodeNibbles, decodeFamily8]

theorem Sys2Proof.Laws.WordRoundTrip.and (x : Reg) (y : Reg) : Statement (.and x y) := by
  intro _; simp [opcodeOf, operandOf, decodeNibbles, decodeFamily8]

theorem Sys2Proof.Laws.WordRoundTrip.xor (x : Reg) (y : Reg) : Statement (.xor x y) := by
  intro _; simp [opcodeOf, operandOf, decodeNibbles, decodeFamily8]

theorem Sys2Proof.Laws.WordRoundTrip.add (x : Reg) (y : Reg) : Statement (.add x y) := by
  intro _; simp [opcodeOf, operandOf, decodeNibbles, decodeFamily8]

theorem Sys2Proof.Laws.WordRoundTrip.sub (x : Reg) (y : Reg) : Statement (.sub x y) := by
  intro _; simp [opcodeOf, operandOf, decodeNibbles, decodeFamily8]

theorem Sys2Proof.Laws.WordRoundTrip.shr (x : Reg) (y : Reg) : Statement (.shr x y) := by
  intro _; simp [opcodeOf, operandOf, decodeNibbles, decodeFamily8]

theorem Sys2Proof.Laws.WordRoundTrip.subn (x : Reg) (y : Reg) : Statement (.subn x y) := by
  intro _; simp [opcodeOf, operandOf, decodeNibbles, decodeFamily8]

theorem Sys2Proof.Laws.WordRoundTrip.shl (x : Reg) (y : Reg) : Statement (.shl x y) := by
  intro _; simp [opcodeOf, operandOf, decodeNibbles, decodeFamily8]

theorem Sys2Proof.Laws.WordRoundTrip.sneReg (x : Reg) (y : Reg) : Statement (.sneReg x y) := by
  intro _; simp [opcodeOf, operandOf, decodeNibbles, decodeFamily9]

theorem Sys2Proof.Laws.WordRoundTrip.ldI (nnn : Addr12) : Statement (.ldI nnn) := by
  intro _; simp [opcodeOf, operandOf, decodeNibbles]

theorem Sys2Proof.Laws.WordRoundTrip.jpV0 (x : Reg) (nnn : Addr12) : Statement (.jpV0 x nnn) := by
  intro h
  have hx := addrHigh_of_wellFormed h
  subst hx
  simp [opcodeOf, operandOf, decodeNibbles]

theorem Sys2Proof.Laws.WordRoundTrip.rnd (x : Reg) (nn : Byte) : Statement (.rnd x nn) := by
  intro _; simp [opcodeOf, operandOf, decodeNibbles]

theorem Sys2Proof.Laws.WordRoundTrip.drw (x : Reg) (y : Reg) (n : Nibble) : Statement (.drw x y n) := by
  intro _; simp [opcodeOf, operandOf, decodeNibbles]

theorem Sys2Proof.Laws.WordRoundTrip.skp (x : Reg) : Statement (.skp x) := by
  intro _; simp [opcodeOf, operandOf, decodeNibbles, decodeFamilyE]

theorem Sys2Proof.Laws.WordRoundTrip.sknp (x : Reg) : Statement (.sknp x) := by
  intro _; simp [opcodeOf, operandOf, decodeNibbles, decodeFamilyE]

theorem Sys2Proof.Laws.WordRoundTrip.ldl (nnnn : Word) : Statement (.ldl nnnn) := by
  intro _; simp [opcodeOf, operandOf, decodeNibbles, decodeFamilyF]

theorem Sys2Proof.Laws.WordRoundTrip.plane (n : Nibble) : Statement (.plane n) := by
  intro _; simp [opcodeOf, operandOf, decodeNibbles, decodeFamilyF]

theorem Sys2Proof.Laws.WordRoundTrip.audio : Statement .audio := by
  intro _; simp [opcodeOf, operandOf, decodeNibbles, decodeFamilyF]

theorem Sys2Proof.Laws.WordRoundTrip.ldVxDt (x : Reg) : Statement (.ldVxDt x) := by
  intro _; simp [opcodeOf, operandOf, decodeNibbles, decodeFamilyF]

theorem Sys2Proof.Laws.WordRoundTrip.ldVxK (x : Reg) : Statement (.ldVxK x) := by
  intro _; simp [opcodeOf, operandOf, decodeNibbles, decodeFamilyF]

theorem Sys2Proof.Laws.WordRoundTrip.ldDtVx (x : Reg) : Statement (.ldDtVx x) := by
  intro _; simp [opcodeOf, operandOf, decodeNibbles, decodeFamilyF]

theorem Sys2Proof.Laws.WordRoundTrip.ldStVx (x : Reg) : Statement (.ldStVx x) := by
  intro _; simp [opcodeOf, operandOf, decodeNibbles, decodeFamilyF]

theorem Sys2Proof.Laws.WordRoundTrip.addI (x : Reg) : Statement (.addI x) := by
  intro _; simp [opcodeOf, operandOf, decodeNibbles, decodeFamilyF]

theorem Sys2Proof.Laws.WordRoundTrip.ldF (x : Reg) : Statement (.ldF x) := by
  intro _; simp [opcodeOf, operandOf, decodeNibbles, decodeFamilyF]

theorem Sys2Proof.Laws.WordRoundTrip.ldHf (x : Reg) : Statement (.ldHf x) := by
  intro _; simp [opcodeOf, operandOf, decodeNibbles, decodeFamilyF]

theorem Sys2Proof.Laws.WordRoundTrip.ldB (x : Reg) : Statement (.ldB x) := by
  intro _; simp [opcodeOf, operandOf, decodeNibbles, decodeFamilyF]

theorem Sys2Proof.Laws.WordRoundTrip.pitch (x : Reg) : Statement (.pitch x) := by
  intro _; simp [opcodeOf, operandOf, decodeNibbles, decodeFamilyF]

theorem Sys2Proof.Laws.WordRoundTrip.saveRegs (x : Reg) : Statement (.saveRegs x) := by
  intro _; simp [opcodeOf, operandOf, decodeNibbles, decodeFamilyF]

theorem Sys2Proof.Laws.WordRoundTrip.loadRegs (x : Reg) : Statement (.loadRegs x) := by
  intro _; simp [opcodeOf, operandOf, decodeNibbles, decodeFamilyF]

theorem Sys2Proof.Laws.WordRoundTrip.saveFlags (x : Reg) : Statement (.saveFlags x) := by
  intro _; simp [opcodeOf, operandOf, decodeNibbles, decodeFamilyF]

theorem Sys2Proof.Laws.WordRoundTrip.loadFlags (x : Reg) : Statement (.loadFlags x) := by
  intro _; simp [opcodeOf, operandOf, decodeNibbles, decodeFamilyF]
end

