-- ==== Sys2Proof/Tests/Slice0.lean ====
section
/-! SUPPORT. The model's own tests: the words of every constructor, the check of WellFormed, one Step of each instruction
with the results of spec/95_test_vectors.md (each theorem names its vectors), and for each statement that has hypotheses
states that meet them. -/

set_option Elab.async false

namespace Sys2Proof.Tests

open Sys2Proof.Machine Sys2Proof.Claims

/-! ### Words, written out from the patterns of 30_encoding.md R86 -/

theorem test_decode_family0 :
    decode [0x00, 0xC3] = .instr (.scd 3) [] ∧ decode [0x00, 0xD4] = .instr (.scu 4) [] ∧
    decode [0x00, 0xE0] = .instr .cls [] ∧ decode [0x00, 0xEE] = .instr .ret [] ∧
    decode [0x00, 0xFB] = .instr .scr [] ∧ decode [0x00, 0xFC] = .instr .scl [] ∧
    decode [0x00, 0xFD] = .instr .exit [] ∧ decode [0x00, 0xFE] = .instr .low [] ∧
    decode [0x00, 0xFF] = .instr .high [] := by decide

theorem test_decode_jumps_and_skips :
    decode [0x12, 0x34] = .instr (.jp 0x234) [] ∧ decode [0x23, 0x00] = .instr (.call 0x300) [] ∧
    decode [0xB2, 0x10] = .instr (.jpV0 2 0x210) [] ∧ decode [0x3A, 0x05] = .instr (.seImm 10 5) [] ∧
    decode [0x4A, 0x05] = .instr (.sneImm 10 5) [] ∧ decode [0x51, 0x20] = .instr (.seReg 1 2) [] ∧
    decode [0x91, 0x20] = .instr (.sneReg 1 2) [] ∧ decode [0xE2, 0x9E] = .instr (.skp 2) [] ∧
    decode [0xE2, 0xA1] = .instr (.sknp 2) [] := by decide

theorem test_decode_arithmetic :
    decode [0x6A, 0xFF] = .instr (.ldImm 10 0xFF) [] ∧ decode [0x73, 0x05] = .instr (.addImm 3 5) [] ∧
    decode [0x81, 0x20] = .instr (.ldReg 1 2) [] ∧ decode [0x81, 0x21] = .instr (.or 1 2) [] ∧
    decode [0x81, 0x22] = .instr (.and 1 2) [] ∧ decode [0x81, 0x23] = .instr (.xor 1 2) [] ∧
    decode [0x81, 0x24] = .instr (.add 1 2) [] ∧ decode [0x81, 0x25] = .instr (.sub 1 2) [] ∧
    decode [0x81, 0x26] = .instr (.shr 1 2) [] ∧ decode [0x81, 0x27] = .instr (.subn 1 2) [] ∧
    decode [0x81, 0x2E] = .instr (.shl 1 2) [] ∧ decode [0xC3, 0x0F] = .instr (.rnd 3 0x0F) [] := by decide

theorem test_decode_index_and_memory :
    decode [0xA2, 0xF0] = .instr (.ldI 0x2F0) [] ∧ decode [0xF0, 0x00, 0x12, 0x34, 0x56] = .instr (.ldl 0x1234) [0x56] ∧
    decode [0xF3, 0x1E] = .instr (.addI 3) [] ∧ decode [0xF1, 0x29] = .instr (.ldF 1) [] ∧
    decode [0xF1, 0x30] = .instr (.ldHf 1) [] ∧ decode [0xF4, 0x33] = .instr (.ldB 4) [] ∧
    decode [0xF2, 0x55] = .instr (.saveRegs 2) [] ∧ decode [0xF1, 0x65] = .instr (.loadRegs 1) [] ∧
    decode [0x51, 0x32] = .instr (.saveRange 1 3) [] ∧ decode [0x53, 0x13] = .instr (.loadRange 3 1) [] := by decide

theorem test_decode_display_keys_timers :
    decode [0xD0, 0x12] = .instr (.drw 0 1 2) [] ∧ decode [0xF3, 0x01] = .instr (.plane 3) [] ∧
    decode [0xF5, 0x07] = .instr (.ldVxDt 5) [] ∧ decode [0xF3, 0x0A] = .instr (.ldVxK 3) [] ∧
    decode [0xF5, 0x15] = .instr (.ldDtVx 5) [] ∧ decode [0xF1, 0x18] = .instr (.ldStVx 1) [] := by decide

theorem test_decode_placeholders :
    decode [0xF0, 0x02] = .instr .audio [] ∧ decode [0xF5, 0x3A] = .instr (.pitch 5) [] ∧
    decode [0xF3, 0x75] = .instr (.saveFlags 3) [] ∧ decode [0xF3, 0x85] = .instr (.loadFlags 3) [] := by decide

/-- Words that match no row (X7 to X12, K14, M34), and bytes that are too few. -/
theorem test_decode_rejects :
    decode [0x01, 0x23] = .reject (.unmatched 0x0123) ∧ decode [0x01, 0xE0] = .reject (.unmatched 0x01E0) ∧
    decode [0x8A, 0xB8] = .reject (.unmatched 0x8AB8) ∧ decode [0x9A, 0xB1] = .reject (.unmatched 0x9AB1) ∧
    decode [0xF1, 0x00] = .reject (.unmatched 0xF100) ∧ decode [0xF1, 0x02] = .reject (.unmatched 0xF102) ∧
    decode [0x51, 0x31] = .reject (.unmatched 0x5131) ∧ decode [0xE2, 0x9F] = .reject (.unmatched 0xE29F) ∧
    decode [0x00, 0xFA] = .reject (.unmatched 0x00FA) ∧ decode [0xF0, 0x00, 0x12] = .reject .noOperand ∧
    decode [0x60] = .reject .noWord := by decide

/-- The table's numbering: a second word counts on above the first. -/
theorem test_decode_table_word :
    decodeTableWord 16 0x8124 = some (.add 1 2) ∧ decodeTableWord 32 0x1234F000 = some (.ldl 0x1234) := by decide

/-! ### WellFormed -/

/-- R82: the X of BNNN is the top nibble of its NNN. -/
theorem test_wellFormed_jpV0 : ¬(Instr.jpV0 3 0x210).WellFormed ∧ (Instr.jpV0 2 0x210).WellFormed := by decide

/-! ### States for the tests -/

/-- After Reset(t), with an instruction at 0x0200. -/
def start (t : Target) (w : Nat) : State := (State.resetTo t).withFetchWord 16 w

/-- A state with registers set. -/
def withRegs (l : List (Reg × Byte)) (s : State) : State := l.foldl (fun s r => s.setReg r.1 r.2) s

/-- A state with bytes in memory. -/
def withBytes (a : Nat) (bs : List Byte) (s : State) : State := s.writeBytes a bs

/-- A state with lit logical pixels (x, y) on plane 1. -/
def lit (l : List (Nat × Nat)) (s : State) : State :=
  { s with buf1 := l.foldl (fun b p => Plane.setPix s.mode b p.1 p.2 true) s.buf1 }

/-- The state after a Step. -/
def after (s : State) : State :=
  match step s with
  | .next t => t
  | .fault _ => s
  | .refused _ => s

/-- halt(code, opcode, pc) of the vectors: every other element as before. -/
def halt (code : Byte) (op pc : Word) (s : State) : State :=
  { s with halted := true, errCode := code, errOpcode := op, errPc := pc }

/-! ### Control transfer -/

/-- F1. -/
theorem test_jp : (after (start .chip8 0x1234)).pc = 0x234 := by decide

/-- F4. -/
theorem test_call : let t := after (start .chip8 0x2300)
    t.stack[0] = 0x202 ∧ t.sp = 1 ∧ t.pc = 0x300 := by decide

/-- F5. -/
theorem test_call_overflow : let s := { start .schip 0x2300 with sp := 15 }
    after s = halt 1 0x2300 0x200 s := by decide

/-- F7. -/
theorem test_ret : let t := after { start .schip 0x00EE with sp := 2, stack := (Vector.replicate 16 0).set 1 0xABC }
    t.sp = 1 ∧ t.pc = 0xABC := by decide

/-- F6. -/
theorem test_ret_underflow : let s := start .xochip 0x00EE
    after s = halt 2 0x00EE 0x200 s := by decide

/-- F9, F10. -/
theorem test_jpV0 :
    (after (withRegs [(0, 4), (2, 0x10)] (start .chip8 0xB210))).pc = 0x214 ∧
    (after (withRegs [(0, 4), (2, 0x10)] (start .schip 0xB210))).pc = 0x220 := by decide

/-- F12. -/
theorem test_jpV0_whole_sum : (after (withRegs [(15, 0xFF)] (start .xochip 0xBFFF))).pc = 0x10FE := by decide

/-- F13, F14. -/
theorem test_seImm :
    (after (withRegs [(10, 5)] (start .chip8 0x3A05))).pc = 0x204 ∧
    (after (withRegs [(10, 6)] (start .chip8 0x3A05))).pc = 0x202 := by decide

/-- F22, F24, F25. -/
theorem test_seImm_wide :
    (after (withBytes 0x202 [0xF0, 0x00] (start .xochip 0x3000))).pc = 0x206 ∧
    (after (withRegs [(0, 1)] (withBytes 0x202 [0xF0, 0x00] (start .xochip 0x3000)))).pc = 0x202 ∧
    (let s := { withBytes 0xFFFD [0x30, 0x00] State.reset with pc := 0xFFFD }
     after s = halt 5 0x3000 0xFFFD s) := by decide

/-- F15, F16. -/
theorem test_sneImm :
    (after (withRegs [(10, 5)] (start .schip 0x4A05))).pc = 0x202 ∧
    (after (withRegs [(10, 6)] (start .schip 0x4A05))).pc = 0x204 := by decide

/-- F17, F18. -/
theorem test_seReg :
    (after (withRegs [(1, 7), (2, 7)] (start .chip8 0x5120))).pc = 0x204 ∧
    (after (withRegs [(1, 7), (2, 8)] (start .chip8 0x5120))).pc = 0x202 := by decide

/-- F20, F21. -/
theorem test_sneReg :
    (after (withRegs [(1, 7), (2, 8)] (start .chip8 0x9120))).pc = 0x204 ∧
    (after (start .chip8 0x9330)).pc = 0x202 := by decide

/-- F27, F28, F29. -/
theorem test_fetch_at_the_end :
    (let t := after { withBytes 0xFFFE [0x60, 0x01] State.reset with pc := 0xFFFE }
     t.reg 0 = 1 ∧ t.pc = 0) ∧
    (let s := { State.reset with pc := 0xFFFF }
     after s = halt 5 0 0xFFFF s) ∧
    (let s := { State.resetTo .chip8 with pc := 0xFFF }
     after s = halt 5 0 0xFFF s) := by decide

/-! ### Loads, arithmetic, logic, shifts, random -/

/-- A2. -/
theorem test_ldImm : let t := after (start .chip8 0x6F07)
    t.reg vf = 0x07 ∧ t.pc = 0x202 := by decide

/-- A3. -/
theorem test_addImm : let t := after (withRegs [(3, 0xFE), (15, 0x55)] (start .chip8 0x7305))
    t.reg 3 = 0x03 ∧ t.reg vf = 0x55 := by decide

/-- A5. -/
theorem test_ldReg : let t := after (withRegs [(2, 0x5A)] (start .chip8 0x8120))
    t.reg 1 = 0x5A ∧ t.reg 2 = 0x5A := by decide

/-- A6. -/
theorem test_or : let t := after (withRegs [(1, 0xF0), (2, 0x0F), (15, 9)] (start .chip8 0x8121))
    t.reg 1 = 0xFF ∧ t.reg vf = 9 := by decide

/-- A7. -/
theorem test_and : let t := after (withRegs [(1, 0xF0), (2, 0x3C), (15, 9)] (start .chip8 0x8122))
    t.reg 1 = 0x30 ∧ t.reg vf = 9 := by decide

/-- A8. -/
theorem test_xor : let t := after (withRegs [(1, 0xFF), (2, 0x0F), (15, 9)] (start .chip8 0x8123))
    t.reg 1 = 0xF0 ∧ t.reg vf = 9 := by decide

/-- A10 (S1), A11. -/
theorem test_add :
    (let t := after (withRegs [(1, 0xFF), (2, 0x02)] (start .chip8 0x8124))
     t.reg 1 = 0x01 ∧ t.reg vf = 1 ∧ t.pc = 0x202) ∧
    (let t := after (withRegs [(1, 0xF0), (2, 0x0F)] (start .chip8 0x8124))
     t.reg 1 = 0xFF ∧ t.reg vf = 0) := by decide

/-- A13, A15. -/
theorem test_add_vf :
    (after (withRegs [(15, 0xFF), (1, 0x02)] (start .chip8 0x8F14))).reg vf = 1 ∧
    (let t := after (withRegs [(1, 0xFF), (15, 0x02)] (start .chip8 0x81F4))
     t.reg 1 = 0x01 ∧ t.reg vf = 1) := by decide

/-- A17 (S2), A19. -/
theorem test_sub :
    (let t := after (withRegs [(1, 0x05), (2, 0x0A)] (start .chip8 0x8125))
     t.reg 1 = 0xFB ∧ t.reg vf = 0) ∧
    (let t := after (withRegs [(1, 0x07), (2, 0x07)] (start .chip8 0x8125))
     t.reg 1 = 0 ∧ t.reg vf = 1) := by decide

/-- A21, A22. -/
theorem test_subn :
    (let t := after (withRegs [(1, 0x05), (2, 0x0A)] (start .chip8 0x8127))
     t.reg 1 = 0x05 ∧ t.reg vf = 1) ∧
    (let t := after (withRegs [(1, 0x0A), (2, 0x05)] (start .chip8 0x8127))
     t.reg 1 = 0xFB ∧ t.reg vf = 0) := by decide

/-- A24, A25. -/
theorem test_shr :
    (let t := after (withRegs [(1, 0xFF), (2, 0x05)] (start .xochip 0x8126))
     t.reg 1 = 0x02 ∧ t.reg 2 = 0x05 ∧ t.reg vf = 1) ∧
    (let t := after (withRegs [(1, 0xFF), (2, 0x05)] (start .schip 0x8126))
     t.reg 1 = 0x7F ∧ t.reg 2 = 0x05 ∧ t.reg vf = 1) := by decide

/-- A28, A29. -/
theorem test_shr_vf :
    (after (withRegs [(2, 0x03), (15, 0xAA)] (start .chip8 0x8F26))).reg vf = 1 ∧
    (after (withRegs [(15, 0xAA)] (start .schip 0x8F26))).reg vf = 0 := by decide

/-- A26, A27. -/
theorem test_shl :
    (let t := after (withRegs [(1, 0x81), (2, 0x40)] (start .chip8 0x812E))
     t.reg 1 = 0x80 ∧ t.reg vf = 0) ∧
    (let t := after (withRegs [(1, 0x81), (2, 0x40)] (start .schip 0x812E))
     t.reg 1 = 0x02 ∧ t.reg vf = 1) := by decide

/-- A30. -/
theorem test_shl_vf : let t := after (withRegs [(15, 0x80), (1, 0x11)] (start .chip8 0x81FE))
    t.reg 1 = 0 ∧ t.reg vf = 1 := by decide

/-- A34: whatever the random byte is. -/
theorem test_rnd_no_bits : (after (start .chip8 0xC300)).reg 3 = 0 := by
  rw [show after (start .chip8 0xC300) = { (start .chip8 0xC300).advance.setReg 3 (Config.rnd 0 &&& 0) with draws := 1 }
    from rfl]
  exact (State.reg_setReg_same _ 3 _).trans (BitVec.and_zero)

/-- A33, with the premise that fixes the byte. -/
theorem test_rnd_mask (h : Config.rnd 0 = 0xA7) : (after (start .chip8 0xC30F)).reg 3 = 0x07 := by
  rw [show after (start .chip8 0xC30F) = { (start .chip8 0xC30F).advance.setReg 3 (Config.rnd 0 &&& 0x0F) with draws := 1 }
    from rfl, h]
  decide

/-! ### Index and memory -/

/-- M1. -/
theorem test_ldI : (after { start .chip8 0xA2F0 with i := 0xFFFF }).i = 0x2F0 := by decide

/-- M2, M3. -/
theorem test_ldl :
    (let t := after (withBytes 0x202 [0x12, 0x34] (start .xochip 0xF000))
     t.i = 0x1234 ∧ t.pc = 0x204) ∧
    (let s := withBytes 0x202 [0x12, 0x34] (start .schip 0xF000)
     after s = halt 3 0xF000 0x200 s) := by decide

/-- M4. -/
theorem test_ldl_outside : let s := { withBytes 0xFFFD [0xF0, 0x00, 0x12] State.reset with pc := 0xFFFD }
    after s = halt 5 0xF000 0xFFFD s := by decide

/-- M6, M7. -/
theorem test_addI :
    (let t := after (withRegs [(3, 1), (15, 7)] { start .xochip 0xF31E with i := 0xFFFF })
     t.i = 0 ∧ t.reg vf = 7) ∧
    (after (withRegs [(3, 1)] { start .chip8 0xF31E with i := 0xFFF })).i = 0x1000 := by decide

/-- S8 and M10, wherever the font lies. -/
theorem test_ldF :
    (after (withRegs [(1, 0x0A)] (start .chip8 0xF129))).i = BitVec.ofNat 16 (Config.fonts.smallBase + 50) ∧
    (after (withRegs [(1, 0xFF)] (start .chip8 0xF129))).i = BitVec.ofNat 16 (Config.fonts.smallBase + 1275) :=
  ⟨rfl, rfl⟩

/-- S9, wherever the font lies, and M11. -/
theorem test_ldHf :
    (after (withRegs [(1, 3)] (start .schip 0xF130))).i = BitVec.ofNat 16 (Config.fonts.bigBase + 30) ∧
    (let s := withRegs [(1, 3)] (start .chip8 0xF130)
     after s = halt 3 0xF130 0x200 s) := ⟨rfl, by decide⟩

/-- M13. -/
theorem test_ldB : let t := after (withRegs [(4, 156)] { start .chip8 0xF433 with i := 0x300 })
    t.byteAt 0x300 = 1 ∧ t.byteAt 0x301 = 5 ∧ t.byteAt 0x302 = 6 ∧ t.i = 0x300 := by decide

/-- M16, M17. -/
theorem test_ldB_edge :
    (let s := withRegs [(4, 123)] { start .chip8 0xF433 with i := 0xFFE }
     after s = halt 5 0xF433 0x200 s) ∧
    (let t := after (withRegs [(4, 123)] { start .schip 0xF433 with i := 0xFFD })
     t.byteAt 0xFFD = 1 ∧ t.byteAt 0xFFE = 2 ∧ t.byteAt 0xFFF = 3) := by decide

/-- M18, M19. -/
theorem test_saveRegs :
    (let t := after (withRegs [(0, 0x11), (1, 0x22), (2, 0x33), (3, 0x44)] { start .chip8 0xF255 with i := 0x300 })
     t.byteAt 0x300 = 0x11 ∧ t.byteAt 0x301 = 0x22 ∧ t.byteAt 0x302 = 0x33 ∧ t.byteAt 0x303 = 0 ∧ t.i = 0x303) ∧
    (after { start .schip 0xF255 with i := 0x300 }).i = 0x300 := by decide

/-- M22, M23. -/
theorem test_saveRegs_edge :
    (let s := { start .schip 0xF255 with i := 0xFFE }
     after s = halt 5 0xF255 0x200 s) ∧
    (after { start .chip8 0xF255 with i := 0xFFD }).i = 0x1000 := by decide

/-- M24, M25. -/
theorem test_loadRegs :
    (let t := after { withBytes 0x300 [0xAA, 0xBB, 0xCC] (start .chip8 0xF165) with i := 0x300 }
     t.reg 0 = 0xAA ∧ t.reg 1 = 0xBB ∧ t.reg 2 = 0 ∧ t.i = 0x302) ∧
    (after { start .xochip 0xF165 with i := 0x300 }).i = 0x300 := by decide

/-- M27, M28. -/
theorem test_saveRange :
    (let t := after (withRegs [(1, 0x0A), (2, 0x0B), (3, 0x0C)] { start .xochip 0x5132 with i := 0x400 })
     t.byteAt 0x400 = 0x0A ∧ t.byteAt 0x401 = 0x0B ∧ t.byteAt 0x402 = 0x0C ∧ t.i = 0x400) ∧
    (let t := after (withRegs [(1, 0x0A), (2, 0x0B), (3, 0x0C)] { start .xochip 0x5312 with i := 0x400 })
     t.byteAt 0x400 = 0x0C ∧ t.byteAt 0x401 = 0x0B ∧ t.byteAt 0x402 = 0x0A) := by decide

/-- M32, M33. -/
theorem test_saveRange_faults :
    (let s := start .schip 0x5132
     after s = halt 3 0x5132 0x200 s) ∧
    (let s := { start .xochip 0x5132 with i := 0xFFFE }
     after s = halt 5 0x5132 0x200 s) := by decide

/-- M30, M31. -/
theorem test_loadRange :
    (let t := after { withBytes 0x400 [1, 2, 3] (start .xochip 0x5133) with i := 0x400 }
     t.reg 1 = 1 ∧ t.reg 2 = 2 ∧ t.reg 3 = 3) ∧
    (let t := after { withBytes 0x400 [1, 2, 3] (start .xochip 0x5313) with i := 0x400 }
     t.reg 3 = 1 ∧ t.reg 2 = 2 ∧ t.reg 1 = 3) := by decide

/-! ### Display -/

/-- G19: plane 2 alone. -/
theorem test_cls : let t := after { start .xochip 0x00E0 with
      bitplane := 2, dirty := false, buf1 := Vector.replicate 64 5, buf2 := Vector.replicate 64 6 }
    t.buf1 = Vector.replicate 64 5 ∧ t.buf2 = Plane.blank ∧ t.dirty = true := by decide

/-- G20. -/
theorem test_scd : (after { start .schip 0x00C3 with mode := .hires, buf1 := Plane.setBit Plane.blank 0 5 true }).buf1 =
    Plane.setBit Plane.blank 3 5 true := by decide

/-- G21. -/
theorem test_scd_lores : let s := start .schip 0x00C4
    (after (lit [(2, 10)] s)).buf1 = (lit [(2, 14)] s).buf1 := by decide

/-- G23. -/
theorem test_scu : let s := start .xochip 0x00D4
    (after (lit [(2, 10)] s)).buf1 = (lit [(2, 6)] s).buf1 := by decide

/-- G24. -/
theorem test_scr : (after { start .schip 0x00FB with mode := .hires, buf1 := Plane.setBit Plane.blank 0 0 true }).buf1 =
    Plane.setBit Plane.blank 0 4 true := by decide

/-- S7. -/
theorem test_scr_unsupported : let s := { lit [(3, 3)] (start .chip8 0x00FB) with dirty := false }
    after s = halt 3 0x00FB 0x200 s := by decide

/-- G26, G27. -/
theorem test_scl :
    (after { start .schip 0x00FC with mode := .hires, buf1 := Plane.setBit Plane.blank 7 4 true }).buf1 =
      Plane.setBit Plane.blank 7 0 true ∧
    (after { start .schip 0x00FC with mode := .hires, buf1 := Plane.setBit Plane.blank 7 3 true }).buf1 =
      Plane.blank := by decide

/-- G32. -/
theorem test_low : let t := after { start .schip 0x00FE with buf1 := Vector.replicate 64 5, buf2 := Vector.replicate 64 6 }
    t.mode = .lores ∧ t.buf1 = Plane.blank ∧ t.buf2 = Plane.blank ∧ t.dirty = true := by decide

/-- G31. -/
theorem test_high : let t := after { start .xochip 0x00FF with
      bitplane := 2, buf1 := Vector.replicate 64 5, buf2 := Vector.replicate 64 6 }
    t.mode = .hires ∧ t.buf1 = Plane.blank ∧ t.buf2 = Plane.blank ∧ t.bitplane = 2 := by decide

/-- G33, G35, G36. -/
theorem test_plane :
    (let t := after { start .xochip 0xF301 with dirty := false }
     t.bitplane = 3 ∧ t.dirty = false) ∧
    (let s := start .xochip 0xF401
     after s = halt 4 0xF401 0x200 s) ∧
    (let s := start .schip 0xF101
     after s = halt 3 0xF101 0x200 s) := by decide

/-- G1, and G8: a collision. -/
theorem test_drw :
    (let s := { withBytes 0x300 [0xF0, 0x80] (start .chip8 0xD012) with i := 0x300 }
     after s = { lit [(0, 0), (1, 0), (2, 0), (3, 0), (0, 1)] s with pc := 0x202, dirty := true }) ∧
    (let s := { withBytes 0x300 [0xF0, 0x80] (start .chip8 0xD011) with i := 0x300 }
     (after (lit [(1, 0)] s)).buf1 = (lit [(0, 0), (2, 0), (3, 0)] s).buf1 ∧
     (after (lit [(1, 0)] s)).reg vf = 1) := by decide

/-- G4: wrapped on XOCHIP; G3: clipped on CHIP8; G13: plane 2's bytes follow plane 1's. -/
theorem test_drw_targets :
    (let s := withRegs [(0, 62)] { withBytes 0x300 [0xF0] (start .xochip 0xD011) with i := 0x300 }
     (after s).buf1 = (lit [(62, 0), (63, 0), (0, 0), (1, 0)] s).buf1) ∧
    (let s := withRegs [(0, 62)] { withBytes 0x300 [0xF0] (start .chip8 0xD011) with i := 0x300 }
     (after s).buf1 = (lit [(62, 0), (63, 0)] s).buf1) ∧
    (let s := { withBytes 0x300 [0xC0, 0x40] (start .xochip 0xD011) with i := 0x300, bitplane := 3 }
     (after s).buf1 = (lit [(0, 0), (1, 0)] s).buf1 ∧ (after s).buf2 = (lit [(1, 0)] s).buf1) := by decide

/-! ### Keypad and timers -/

/-- A keypad with some keys down. -/
def keys (l : List Key) : Vector Bool 16 := Vector.ofFn fun k => l.contains k

/-- K1, K2. -/
theorem test_skp :
    (after (withRegs [(2, 7)] { start .chip8 0xE29E with key := keys [7] })).pc = 0x204 ∧
    (after (withRegs [(2, 7)] (start .chip8 0xE29E))).pc = 0x202 := by decide

/-- K5. -/
theorem test_key_index : let s := withRegs [(2, 0x10)] (start .xochip 0xE29E)
    after s = halt 6 0xE29E 0x200 s := by decide

/-- K3, K4. -/
theorem test_sknp :
    (after (withRegs [(2, 7)] (start .chip8 0xE2A1))).pc = 0x204 ∧
    (after (withRegs [(2, 7)] { start .chip8 0xE2A1 with key := keys [7] })).pc = 0x202 := by decide

/-- K10, K11: nothing down, and two keys down. -/
theorem test_ldVxK_latch :
    (let s := start .chip8 0xF30A
     after s = s) ∧
    (let t := after { start .chip8 0xF30A with key := keys [9, 4] }
     t.waitKey = some 4 ∧ t.pc = 0x200) := by decide

/-- K12, K13. -/
theorem test_ldVxK_release :
    (let s := { start .chip8 0xF30A with key := keys [4], waitKey := some 4 }
     after s = s) ∧
    (let t := after { start .chip8 0xF30A with key := keys [9], waitKey := some 4 }
     t.reg 3 = 4 ∧ t.waitKey = none ∧ t.pc = 0x202) := by decide

/-- K7. -/
theorem test_ldVxDt : let t := after { start .chip8 0xF507 with dt := 0x3C }
    t.reg 5 = 0x3C ∧ t.dt = 0x3C := by decide

/-- K8. -/
theorem test_ldDtVx : let t := after (withRegs [(5, 0x3C)] (start .chip8 0xF515))
    t.dt = 0x3C ∧ t.st = 0 := by decide

/-- K9. -/
theorem test_ldStVx : let t := after (withRegs [(1, 2)] (start .chip8 0xF118))
    t.st = 2 ∧ t.dt = 0 := by decide

/-! ### Placeholders, unmatched words, events -/

/-- X1 to X5. -/
theorem test_placeholders :
    (let s := start .chip8 0x00FD
     after s = halt 4 0x00FD 0x200 s) ∧
    (let s := start .schip 0xF002
     after s = halt 4 0xF002 0x200 s) ∧
    (let s := start .xochip 0xF53A
     after s = halt 4 0xF53A 0x200 s) ∧
    (let s := start .xochip 0xF375
     after s = halt 4 0xF375 0x200 s) ∧
    (let s := start .chip8 0xF385
     after s = halt 4 0xF385 0x200 s) := by decide

/-- X9. -/
theorem test_unmatched : let s := start .xochip 0x8AB9
    after s = halt 4 0x8AB9 0x200 s := by decide

/-- E8, E9. -/
theorem test_tick :
    (let r := tickEvent { State.reset with st := 2, dt := 1 }
     r.1 = true ∧ r.2.st = 1 ∧ r.2.dt = 0 ∧ (tickEvent (tickEvent r.2).2).1 = false) ∧
    (let s := { State.reset with halted := true, dt := 5, st := 5 }
     tickEvent s = (false, s)) := by decide

/-- A Load that fits, and E3. -/
theorem test_load :
    (let r := loadEvent [0x60, 0x05, 0x61] (State.resetTo .chip8)
     r.1 = .ok ∧ r.2.byteAt 0x200 = 0x60 ∧ r.2.byteAt 0x202 = 0x61 ∧ r.2.byteAt 0x203 = 0) ∧
    loadEvent (List.replicate 3585 0) (State.resetTo .chip8) = (.loadTooLarge, State.resetTo .chip8) := by
  refine ⟨by decide, ?_⟩
  unfold loadEvent
  rw [if_neg (by decide), if_pos (by rw [List.length_replicate]; decide)]

/-- E11, E13. -/
theorem test_display_and_key :
    (readDisplayEvent State.reset).1.dirty = true ∧ (readDisplayEvent State.reset).2.dirty = false ∧
    (setKeyEvent 3 true State.reset).key = keys [3] ∧ (setKeyEvent 3 true State.reset).waitKey = none := by decide

/-! ### States and operands that meet the hypotheses of the statements, one for each clause, at the ends of its range -/

theorem witness_EncodedInstructionDecodesBack :
    (Instr.jpV0 15 0xFFF).WellFormed ∧ (Instr.jpV0 0 0x0FF).WellFormed ∧ (Instr.ldl 0xFFFF).WellFormed := by decide

theorem witness_DecodedBytesEncodeBack :
    decode [0xF0, 0x00, 0xFF, 0xFF, 0x01] = .instr (.ldl 0xFFFF) [0x01] ∧ decode [0xBF, 0xFF] = .instr (.jpV0 15 0xFFF) [] := by
  decide

/-- A word of the first row and one of the last, and what they decode to. -/
theorem witness_DecoderFollowsOpcodeMap :
    decodeWord 0x00CF 0 = some (.scd 15) ∧ decodeWord 0xFF85 0 = some (.loadFlags 15) ∧
    (0x00CF : Word) &&& 0xFFF0 = 0x00C0 ∧ (0xFF85 : Word) &&& 0xF0FF = 0xF085 := by decide

theorem witness_StepRunsDecodedInstruction : let s := { withBytes 0xFFE [0x60, 0x01] (State.resetTo .chip8) with pc := 0xFFE }
    s.halted = false ∧ s.pc.toNat + 1 < memSize s.target ∧
    decode [s.byteAt s.pc.toNat, s.byteAt (s.pc.toNat + 1), s.byteAt (s.pc + 2).toNat, s.byteAt ((s.pc + 2).toNat + 1)] =
      .instr (.ldImm 0 1) [0, 0] := by decide

theorem witness_FetchOutsideMemoryRaises :
    (let s := { State.resetTo .schip with pc := 0xFFF }
     s.halted = false ∧ memSize s.target ≤ s.pc.toNat + 1) ∧
    (let s := { State.reset with pc := 0xFFFF }
     s.halted = false ∧ memSize s.target ≤ s.pc.toNat + 1) := by decide

theorem witness_UnmatchedWordRaisesUnimplemented : let s := start .chip8 0x01E0
    s.halted = false ∧ s.pc.toNat + 1 < memSize s.target ∧ ∀ r ∈ opcodeMap, ¬s.wordAt s.pc.toNat &&& r.mask = r.pattern := by
  decide

theorem witness_HaltedCoreIgnoresEvents : (halt 4 0x00FD 0x200 State.reset).halted = true := rfl

/-- A halt by an instruction, and one by a fetch outside memory. -/
theorem witness_HaltIsPreciseFatalError :
    (let s := start .chip8 0x00EE
     s.halted = false ∧ step s = .next (halt 2 0x00EE 0x200 s) ∧ s.pc.toNat + 1 < memSize s.target) ∧
    (let s := { State.reset with pc := 0xFFFF }
     s.halted = false ∧ step s = .next (halt 5 0 0xFFFF s) ∧ memSize s.target ≤ s.pc.toNat + 1) :=
  ⟨⟨rfl, rfl, by decide⟩, ⟨rfl, rfl, by decide⟩⟩

/-- A halt by each cause, the fifth by a look-ahead and by a data access. -/
theorem witness_FatalErrorsHaveTheirCauses :
    (let s := { State.resetTo .chip8 with sp := 15 }
     exec (.call 0x300) s = .next (halt 1 0x2300 0x200 s)) ∧
    (let s := State.resetTo .chip8
     exec .ret s = .next (halt 2 0x00EE 0x200 s) ∧ exec .scr s = .next (halt 3 0x00FB 0x200 s) ∧
     exec .exit s = .next (halt 4 0x00FD 0x200 s)) ∧
    (let s := State.reset
     exec (.plane 4) s = .next (halt 4 0xF401 0x200 s)) ∧
    (let s := { State.reset with pc := 0xFFFD }
     exec (.seImm 0 0) s = .next (halt 5 0x3000 0xFFFD s) ∧ exec (.ldl 0) s = .next (halt 5 0xF000 0xFFFD s) ∧
     needsOutside s (.seImm 0 0)) ∧
    (let s := { State.resetTo .chip8 with i := 0xFFE }
     exec (.ldB 4) s = .next (halt 5 0xF433 0x200 s) ∧ needsOutside s (.ldB 4)) ∧
    (let s := withRegs [(2, 16)] State.reset
     exec (.skp 2) s = .next (halt 6 0xE29E 0x200 s)) := 
  ⟨rfl, ⟨rfl, rfl, rfl⟩, rfl, ⟨rfl, rfl, rfl, rfl, by decide⟩, ⟨rfl, by show _ ≤ _; decide⟩, rfl⟩

theorem witness_GatedInstructionsRaise :
    unsupported (State.resetTo .schip).target (.plane 1) = true ∧
    unsupported State.reset.target (.plane 1) = false ∧ State.reset.halted = false := by decide

/-- A blank plane is uniform. -/
theorem uniform_blank : Plane.Uniform Plane.blank := by
  intro j i _ _
  simp

/-- No hypothesis but the exit instruction's own run. -/
theorem witness_PlaceholdersRaiseUnimplemented : let s := start .chip8 0x00FD
    exec .exit s = .next (halt 4 0x00FD 0x200 s) := rfl

/-- A state in low-res that meets the invariant, with data in memory. -/
theorem inv_example (t : Target) : (start t 0x6005).Inv := by
  have hm : (start t 0x6005).mem = [(0x200, 0x60), (0x201, 0x05)] := by cases t <;> decide
  refine ⟨⟨?_, ?_⟩, rfl, ⟨fun _ => rfl, fun _ => rfl, fun _ => rfl, fun _ => ⟨uniform_blank, uniform_blank⟩⟩,
    ⟨fun _ => ⟨rfl, rfl, rfl⟩, Nat.zero_le 6⟩⟩
  · rw [hm]
    decide
  · rw [hm]
    cases t <;> decide

theorem witness_StepKeepsInvariant :
    (start .chip8 0x6005).Inv ∧ step (start .chip8 0x6005) = .next ((start .chip8 0x6005).advance.setReg 0 5) :=
  ⟨inv_example .chip8, rfl⟩

theorem witness_EventsKeepInvariant :
    (start .xochip 0x6005).Inv ∧
    runEvents [.step, .tick, .readDisplay, .setKey 3 true] (start .xochip 0x6005) =
      .next (setKeyEvent 3 true { (start .xochip 0x6005).advance.setReg 0 5 with dirty := false }) :=
  ⟨inv_example .xochip, rfl⟩

/-- A state with a latched key, and an event that is no Load. -/
theorem witness_LatchedKeyMeansKeyWaitIsNext : let s := { start .chip8 0xF30A with key := keys [4], waitKey := some 4 }
    s.LatchInv ∧ (∀ bytes, Event.step ≠ .load bytes) ∧ applyEvent .step s = .next (s, .nothing) := by
  refine ⟨fun _ => ⟨rfl, by decide, 3, [0, 0], by decide⟩, fun _ => nofun, rfl⟩

/-- Each element that some instruction changes, changed by one. -/
theorem witness_OnlyNamedInstructionsWrite :
    (let s := withRegs [(5, 0x3C)] State.reset
     (after (start .chip8 0x2300)).sp ≠ 0 ∧ (after (start .chip8 0x2300)).stack ≠ s.stack ∧
     exec (.ldDtVx 5) s = .next { s.advance with dt := 0x3C } ∧ exec (.ldStVx 5) s = .next { s.advance with st := 0x3C }) ∧
    (let s := { State.reset with dirty := false, buf1 := Vector.replicate 64 1, key := keys [4], i := 0x300 }
     exec .high s = .next (s.advance.switchMode .hires) ∧ (s.advance.switchMode .hires).mode ≠ s.mode ∧
     (s.advance.switchMode .hires).buf1 ≠ s.buf1 ∧ (s.advance.switchMode .hires).dirty ≠ s.dirty ∧
     exec (.plane 3) s = .next { s.advance with bitplane := 3 } ∧ s.bitplane ≠ 3 ∧
     exec (.ldVxK 3) s = .next { s with waitKey := some 4 } ∧ s.waitKey ≠ some 4 ∧
     exec (.ldI 0xFFF) s = .next { s.advance with i := 0xFFF } ∧ s.i ≠ 0xFFF ∧
     exec (.ldB 0) s = .next (s.advance.writeBytes 0x300 [0, 0, 0]) ∧
     exec (.rnd 0 0) s = .next { s.advance.setReg 0 (Config.rnd 0 &&& 0) with draws := 1 }) := by
  refine ⟨⟨by decide, by decide, rfl, rfl⟩, rfl, by decide, by decide, by decide, rfl, by decide, rfl, by decide, rfl,
    by decide, rfl, rfl⟩

/-- A destination changed, and VF changed as a flag. -/
theorem witness_OnlyDestinationsAndFlagChange : let s := withRegs [(1, 0xFF), (2, 2)] State.reset
    exec (.add 1 2) s = .next (s.advance.setRegFlag 1 1 true) ∧
    (s.advance.setRegFlag 1 1 true).reg 1 ≠ s.reg 1 ∧ (s.advance.setRegFlag 1 1 true).reg 15 ≠ s.reg 15 :=
  ⟨rfl, by decide, by decide⟩

theorem witness_DisplayInstructionsSetDirty : let s := { State.reset with dirty := false }
    s.halted = false ∧ exec .low s = .next (s.advance.switchMode .lores) ∧
    (s.advance.switchMode .lores).halted = false ∧ changesDisplay .low = true ∧
    exec (.plane 3) s = .next { s.advance with bitplane := 3 } ∧ changesDisplay (.plane 3) = false :=
  ⟨rfl, rfl, rfl, rfl, rfl, rfl⟩

theorem witness_JumpsSetPc :
    (Instr.jpV0 15 0xFFF).WellFormed ∧ (State.resetTo .chip8).target = .chip8 ∧ State.reset.target ≠ .chip8 := by decide

theorem witness_CallPushesReturnAddress :
    ({ State.reset with sp := 14 } : State).sp ≠ 15 ∧ ({ State.reset with sp := 15 } : State).sp = 15 := by decide

theorem witness_RetPopsReturnAddress :
    ({ State.reset with sp := 1 } : State).sp.val ≠ 0 ∧ ({ State.reset with sp := 15 } : State).sp.val ≠ 0 ∧
    State.reset.sp.val = 0 := by decide

theorem witness_StackIsLifo :
    State.reset.sp.val + (List.replicate 15 (0x202 : Word)).length ≤ 15 ∧
    15 < State.reset.sp.val + (List.replicate 16 (0x202 : Word)).length := by decide

/-- A subroutine that has itself called and returned: the slot above SP holds a stale address (R100). -/
theorem witness_CallThenReturnComesBack : let s := start .chip8 0x2300
    let t := { s with pc := 0x300, stack := (Vector.replicate 16 0).set 0 0x202, sp := 1 }
    let v := { t with stack := t.stack.set 1 0x302 }
    s.sp ≠ 15 ∧ exec (.call 0x300) s = .next t ∧ v.sp = t.sp ∧ v.stack ≠ t.stack ∧
    ∀ j : Fin 16, j.val < t.sp.val → v.stack[j] = t.stack[j] :=
  ⟨by decide, rfl, rfl, by decide, by decide⟩

/-- The clauses of `SkipsWhen`: a condition that does not hold, one that holds off XOCHIP, on XOCHIP before F000 NNNN and
before another word at the last address that has one, and where there is none. -/
theorem witness_RegisterSkips :
    (State.resetTo .chip8).reg 0 ≠ 1 ∧ (State.resetTo .chip8).reg 0 = 0 ∧ (State.resetTo .chip8).target ≠ .xochip ∧
    (let s := { withBytes 0xFFFE [0xF0, 0x00] State.reset with pc := 0xFFFC }
     s.reg 0 = 0 ∧ s.target = .xochip ∧ (s.pc + 2).toNat + 1 < 65536 ∧
     256 * (s.byteAt (s.pc + 2).toNat).toNat + (s.byteAt ((s.pc + 2).toNat + 1)).toNat = 0xF000) ∧
    (let s := { withBytes 0xFFFE [0xF0, 0x01] State.reset with pc := 0xFFFC }
     s.reg 0 = 0 ∧ s.target = .xochip ∧ (s.pc + 2).toNat + 1 < 65536 ∧
     256 * (s.byteAt (s.pc + 2).toNat).toNat + (s.byteAt ((s.pc + 2).toNat + 1)).toNat ≠ 0xF000) ∧
    (let s := { State.reset with pc := 0xFFFD }
     s.reg 0 = 0 ∧ s.target = .xochip ∧ 65536 ≤ (s.pc + 2).toNat + 1) := by decide

theorem witness_KeySkips :
    15 < ((withRegs [(2, 16)] State.reset).reg 2).toNat ∧
    (let s := withRegs [(2, 15)] { State.reset with key := keys [15], pc := 0xFFFD }
     (s.reg 2).toNat = (15 : Key).val ∧ s.key[(15 : Key)] = true ∧ s.target = .xochip ∧ 65536 ≤ (s.pc + 2).toNat + 1) ∧
    (let s := State.resetTo .chip8
     (s.reg 2).toNat = (0 : Key).val ∧ s.key[(0 : Key)] = false ∧ s.target ≠ .xochip) := by decide

theorem witness_AddSetsCarry :
    (1 : Reg) ≠ 15 ∧
    (let s := withRegs [(1, 0xF0), (2, 0x10)] State.reset
     255 < (s.reg 1).toNat + (s.reg 2).toNat) ∧
    (let s := withRegs [(1, 0xF0), (2, 0x0F)] State.reset
     (s.reg 1).toNat + (s.reg 2).toNat ≤ 255) := by decide

theorem witness_SubtractSetsNoBorrow :
    (1 : Reg) ≠ 15 ∧
    (let s := withRegs [(1, 7), (2, 7)] State.reset
     (s.reg 2).toNat ≤ (s.reg 1).toNat ∧ (s.reg 1).toNat ≤ (s.reg 2).toNat) ∧
    (let s := withRegs [(1, 6), (2, 7)] State.reset
     (s.reg 1).toNat < (s.reg 2).toNat) ∧
    (let s := withRegs [(1, 8), (2, 7)] State.reset
     (s.reg 2).toNat < (s.reg 1).toNat) := by decide

/-- A source for each target. -/
theorem witness_ShiftsMoveByOne :
    (1 : Reg) ≠ 15 ∧
    (let s := withRegs [(1, 0xFF), (2, 5)] (State.resetTo .schip)
     s.target = .schip ∧ 0xFF = s.reg 1) ∧
    (let s := withRegs [(1, 0xFF), (2, 5)] (State.resetTo .chip8)
     s.target ≠ .schip ∧ 5 = s.reg 2) := by decide

theorem witness_IndexArithmetic :
    (State.resetTo .schip).target ≠ .chip8 ∧ (State.resetTo .chip8).target = .chip8 := by decide

theorem witness_WideLoadReadsItsOperand :
    (let s := { withBytes 0xFFFC [0xF0, 0x00, 0x12, 0x34] State.reset with pc := 0xFFFC }
     s.halted = false ∧ s.pc.toNat + 1 < memSize s.target ∧ s.wordAt s.pc.toNat = 0xF000 ∧ s.target = .xochip ∧
     (s.pc + 2).toNat + 1 < 65536) ∧
    (let s := { withBytes 0xFFFD [0xF0, 0x00] State.reset with pc := 0xFFFD }
     s.halted = false ∧ s.pc.toNat + 1 < memSize s.target ∧ s.wordAt s.pc.toNat = 0xF000 ∧ s.target = .xochip ∧
     65536 ≤ (s.pc + 2).toNat + 1) ∧
    (let s := start .chip8 0xF000
     s.halted = false ∧ s.pc.toNat + 1 < memSize s.target ∧ s.wordAt s.pc.toNat = 0xF000 ∧ s.target ≠ .xochip) := by decide

theorem witness_DecimalDigitsAreStored :
    (let s := { State.resetTo .chip8 with i := 0xFFD }
     s.i.toNat + 2 < memSize s.target) ∧
    (let s := { State.resetTo .chip8 with i := 0xFFE }
     memSize s.target ≤ s.i.toNat + 2) := by decide

/-- For the dump and for the load, of V0 to V2. -/
theorem witness_RegistersAreDumped :
    (let s := { State.resetTo .chip8 with i := 0xFFD }
     s.i.toNat + (2 : Reg).val < memSize s.target ∧ s.target = .chip8) ∧
    (let s := { State.reset with i := 0xFFFD }
     s.i.toNat + (2 : Reg).val < memSize s.target ∧ s.target ≠ .chip8) ∧
    (let s := { State.resetTo .schip with i := 0xFFE }
     memSize s.target ≤ s.i.toNat + (2 : Reg).val) := by decide

theorem witness_RegistersAreLoaded :
    (let s := { State.resetTo .chip8 with i := 0xFF0 }
     s.i.toNat + (15 : Reg).val < memSize s.target ∧ s.target = .chip8) ∧
    (let s := { State.resetTo .schip with i := 0xFF0 }
     s.i.toNat + (15 : Reg).val < memSize s.target ∧ s.target ≠ .chip8) ∧
    (let s := { State.resetTo .chip8 with i := 0xFF1 }
     memSize s.target ≤ s.i.toNat + (15 : Reg).val) := by decide

/-- Rising and falling ranges at the last address that holds them, and one above it. -/
theorem witness_RegisterRangeIsDumped :
    (State.resetTo .schip).target ≠ .xochip ∧
    (let s := { State.reset with i := 0xFFFD }
     s.target = .xochip ∧ s.i.toNat + (max (1 : Reg).val (3 : Reg).val - min (1 : Reg).val (3 : Reg).val) < 65536 ∧
     s.i.toNat + (max (3 : Reg).val (1 : Reg).val - min (3 : Reg).val (1 : Reg).val) < 65536) ∧
    (let s := { State.reset with i := 0xFFFE }
     s.target = .xochip ∧ 65536 ≤ s.i.toNat + (max (1 : Reg).val (3 : Reg).val - min (1 : Reg).val (3 : Reg).val)) := by
  decide

theorem witness_RegisterRangeIsLoaded :
    (State.resetTo .schip).target ≠ .xochip ∧
    (let s := { State.reset with i := 0xFFF0 }
     s.target = .xochip ∧ s.i.toNat + (max (15 : Reg).val (0 : Reg).val - min (15 : Reg).val (0 : Reg).val) < 65536 ∧
     s.i.toNat + (max (0 : Reg).val (15 : Reg).val - min (0 : Reg).val (15 : Reg).val) < 65536) ∧
    (let s := { State.reset with i := 0xFFF1 }
     s.target = .xochip ∧ 65536 ≤ s.i.toNat + (max (15 : Reg).val (0 : Reg).val - min (15 : Reg).val (0 : Reg).val)) := by
  decide

theorem witness_CanonicalMemoriesAreEqual :
    Memory.wf [(0x200, 1), (0xFFFF, 2)] ∧ ∀ a, Memory.read [(0x200, 1), (0xFFFF, 2)] a = Memory.read [(0x200, 1), (0xFFFF, 2)] a :=
  ⟨by decide, fun _ => rfl⟩

/-- A mask that selects plane 1 alone, as all the clauses of `Scrolls` need. -/
theorem witness_ClearBlanksSelectedPlanes : selects State.reset.bitplane .p1 ∧ ¬selects State.reset.bitplane .p2 := by
  unfold selects
  decide

theorem witness_VerticalScrolls :
    (State.resetTo .chip8).target = .chip8 ∧ (State.resetTo .schip).target ≠ .chip8 := by decide

theorem witness_HorizontalScrolls :
    (State.resetTo .chip8).target = .chip8 ∧ (State.resetTo .schip).target ≠ .chip8 := by decide

theorem witness_ModeSwitchClearsBothPlanes :
    (State.resetTo .chip8).target = .chip8 ∧ State.reset.target ≠ .chip8 := by decide

theorem witness_PlaneSelectSetsMask :
    (State.resetTo .schip).target ≠ .xochip ∧ State.reset.target = .xochip ∧ (3 : Nibble).val ≤ 3 ∧ 3 < (4 : Nibble).val := by decide

/-- Sprites of two planes that end at the last byte of memory and one beyond it, and no plane selected; a sprite that
hits a set pixel, and one that finds none. -/
theorem witness_SpriteIsDrawn :
    spriteInMemory { State.reset with bitplane := 3, i := 0xFFFE } 1 ∧
    ¬spriteInMemory { State.reset with bitplane := 3, i := 0xFFFF } 1 ∧
    spriteInMemory { State.reset with bitplane := 0, i := 0xFFFF } 1 ∧
    collides { lit [(1, 0)] (withBytes 0x300 [0xF0] (State.resetTo .chip8)) with i := 0x300 } 0 1 1 ∧
    ¬collides (State.resetTo .chip8) 0 1 1 := by
  refine ⟨.inr (by decide), ?_, .inl (by decide), ⟨.p1, 1, 0, rfl, by decide, by decide,
    ⟨0, 1, by decide, by decide, by decide, by decide⟩, by decide⟩, ?_⟩
  · rintro (h | h) <;> revert h <;> decide
  · rintro ⟨p, lx, ly, -, -, -, -, h⟩
    cases p <;> exact absurd h (by simp [pixel, State.plane, State.resetTo, Plane.bit])

theorem witness_DrawingTwiceRestoresPicture :
    let s := { withBytes 0x300 [0x80] (State.resetTo .chip8) with i := 0x300 }
    (s.mode = .lores → Plane.Uniform s.buf1 ∧ Plane.Uniform s.buf2) ∧ (0 : Reg) ≠ 15 ∧ (1 : Reg) ≠ 15 ∧
    ∃ t u, exec (.drw 0 1 1) s = .next t ∧ exec (.drw 0 1 1) t = .next u :=
  ⟨fun _ => ⟨uniform_blank, uniform_blank⟩, by decide, by decide, _, _, rfl, rfl⟩

theorem witness_KeyWaitLatchesThenCompletes :
    (let s := State.reset
     s.waitKey = none ∧ ∀ k : Key, s.key[k] = false) ∧
    (let s := { State.reset with key := keys [4, 9] }
     s.waitKey = none ∧ s.key[(4 : Key)] = true ∧ ∀ j : Key, j.val < (4 : Key).val → s.key[j] = false) ∧
    (let s := { State.reset with key := keys [15], waitKey := some 15 }
     s.waitKey = some 15 ∧ s.key[(15 : Key)] = true) ∧
    (let s := { State.reset with key := keys [9], waitKey := some 0 }
     s.waitKey = some 0 ∧ s.key[(0 : Key)] = false) := by decide

theorem witness_TickCountsDown : State.reset.halted = false ∧ (halt 1 0 0 State.reset).halted = true := by decide

theorem witness_ToneLastsAsLongAsTimer : State.reset.halted = false ∧ (halt 1 0 0 State.reset).halted = true := by decide

/-- An address in each font and one in neither. -/
theorem witness_ResetMemoryHoldsOnlyFonts :
    (∃ a j, j < 80 ∧ a = Config.fonts.smallBase + j) ∧ (∃ a j, j < 10 * Config.fonts.bigDigits ∧ a = Config.fonts.bigBase + j) ∧
    ∃ a, (a < Config.fonts.smallBase ∨ Config.fonts.smallBase + 80 ≤ a) ∧
      (a < Config.fonts.bigBase ∨ Config.fonts.bigBase + 10 * Config.fonts.bigDigits ≤ a) := by
  refine ⟨⟨_, 79, by decide, rfl⟩, ⟨_, 0, ?_, rfl⟩, 0x200, .inr Config.small_below_entry, .inr Config.big_below_entry⟩
  unfold Config.fonts FontLayout.ofFree
  dsimp only
  split <;> split <;> simp

/-- The longest image, and one byte more. -/
theorem witness_LoadCopiesWholeImageOrNothing : let s := State.resetTo .chip8
    s.halted = false ∧ (List.replicate 3584 (0x12 : Byte)).length ≤ memSize s.target - 0x200 ∧
    memSize s.target - 0x200 < (List.replicate 3585 (0x12 : Byte)).length ∧ (halt 1 0 0 s).halted = true := by
  simp only [List.length_replicate]
  decide

theorem witness_KeyAndDisplayEvents :
    State.reset.halted = false ∧ (halt 1 0 0 State.reset).halted = true ∧ (0 : Key) ≠ 15 := by decide

theorem witness_RunCyclesIsRepeatedStep : let s := start .chip8 0x00FD
    runEvents (runCycles 1) s = .next (halt 4 0x00FD 0x200 s) ∧ (halt 4 0x00FD 0x200 s).halted = true := ⟨rfl, rfl⟩

theorem witness_FirstStepRunsLoadedInstruction :
    (Instr.ldl 0x1234).WellFormed ∧ (encode (.ldl 0x1234) ++ []).length ≤ memSize .chip8 - 0x200 := by decide

/-- F2. -/
theorem witness_SelfJumpStaysForever : (start .chip8 0x1200).SelfJumpEnd ∧ (start .chip8 0x1200).CanFetch :=
  ⟨⟨rfl, 0x200, by decide, by decide⟩, by decide⟩

end Sys2Proof.Tests
end

/-! Proofs about the decoder and the opcode map (30_encoding.md R85, R86, R93): every instruction's word matches the row
of its own constructor, so a word of no row decodes to nothing. -/

namespace Sys2Proof.Machine

open Sys2Proof.Claims

/-! ### The masks of R86 keep some hex digits and clear the others -/

theorem and_digit_all (x : Nibble) : x &&& 15 = x := by revert x; decide

theorem and_digit_none (x : Nibble) : x &&& 0 = 0 := by revert x; decide

theorem wordOfNibbles_and_F000 (a b c d : Nibble) : wordOfNibbles a b c d &&& 0xF000 = wordOfNibbles a 0 0 0 :=
  (and_wordOfNibbles a b c d 15 0 0 0).trans (by simp only [and_digit_all, and_digit_none])

theorem wordOfNibbles_and_F00F (a b c d : Nibble) : wordOfNibbles a b c d &&& 0xF00F = wordOfNibbles a 0 0 d :=
  (and_wordOfNibbles a b c d 15 0 0 15).trans (by simp only [and_digit_all, and_digit_none])

theorem wordOfNibbles_and_F0FF (a b c d : Nibble) : wordOfNibbles a b c d &&& 0xF0FF = wordOfNibbles a 0 c d :=
  (and_wordOfNibbles a b c d 15 0 15 15).trans (by simp only [and_digit_all, and_digit_none])

theorem wordOfNibbles_and_FFF0 (a b c d : Nibble) : wordOfNibbles a b c d &&& 0xFFF0 = wordOfNibbles a b c 0 :=
  (and_wordOfNibbles a b c d 15 15 15 0).trans (by simp only [and_digit_all, and_digit_none])

theorem wordOfNibbles_and_FFFF (a b c d : Nibble) : wordOfNibbles a b c d &&& 0xFFFF = wordOfNibbles a b c d :=
  BitVec.and_allOnes

/-! ### The row of an instruction -/

/-- The rows of R86 stand in the order of the constructors, and an instruction's word matches its own row: one case for
each shape of the row's mask, that is, for each set of digits that hold operands. -/
theorem opcodeMap_ctorIdx (i : Instr) :
    ∃ r, opcodeMap[i.ctorIdx]? = some r ∧ r.holds i = true ∧ r.Matches (opcodeOf i) := by
  cases i
  case cls | ret | scr | scl | exit | low | high | ldl | audio =>
    exact ⟨_, rfl, rfl, wordOfNibbles_and_FFFF ..⟩
  case scd | scu => exact ⟨_, rfl, rfl, wordOfNibbles_and_FFF0 ..⟩
  case jp | call | seImm | sneImm | ldImm | addImm | ldI | jpV0 | rnd | drw =>
    exact ⟨_, rfl, rfl, wordOfNibbles_and_F000 ..⟩
  case seReg | saveRange | loadRange | ldReg | or | and | xor | add | sub | shr | subn | shl | sneReg =>
    exact ⟨_, rfl, rfl, wordOfNibbles_and_F00F ..⟩
  case skp | sknp | plane | ldVxDt | ldVxK | ldDtVx | ldStVx | addI | ldF | ldHf | ldB | pitch | saveRegs | loadRegs |
      saveFlags | loadFlags =>
    exact ⟨_, rfl, rfl, wordOfNibbles_and_F0FF ..⟩

theorem exists_row_of_opcodeOf (i : Instr) : ∃ r ∈ opcodeMap, r.holds i = true ∧ r.Matches (opcodeOf i) := by
  obtain ⟨r, hr, holds, hm⟩ := opcodeMap_ctorIdx i
  exact ⟨r, List.mem_of_getElem? hr, holds, hm⟩

/-- A fetched word that decodes matches a row. -/
theorem exists_row_of_decode_fetchBytes {s : State} {i : Instr} {rest : List Byte}
    (h : decode s.fetchBytes = .instr i rest) : ∃ r ∈ opcodeMap, r.Matches (s.wordAt s.pc.toNat) := by
  obtain ⟨-, hop⟩ := opcodeOf_of_decode_fetchBytes h
  obtain ⟨r, hr, -, hm⟩ := exists_row_of_opcodeOf i
  exact ⟨r, hr, hop ▸ hm⟩

/-- Settles O7: of all that a Step can do, only the rejected word is left, since a word that decodes matches a row. -/
theorem unmatchedWordRaisesUnimplemented : Obligations.UnmatchedWordRaisesUnimplemented := by
  intro s hrun hfetch hnone
  rcases step_cases (s := s) rfl with ⟨hhalted, -⟩ | ⟨-, houtside, -⟩ | ⟨-, -, -, hstep⟩ | ⟨-, -, i, rest, hdec, -⟩
  · simp [hrun] at hhalted
  · exact absurd hfetch houtside
  · exact ⟨_, hstep, raisedFrom_raised s _ _⟩
  · obtain ⟨r, hr, hm⟩ := exists_row_of_decode_fetchBytes hdec
    exact absurd hm (hnone r hr)

end Sys2Proof.Machine

/-! Proofs about control transfer (40_control_flow.md R100 to R109): what each jump, call, return and register skip makes
of pc and the call stack, and that it leaves everything else alone. -/

namespace Sys2Proof.Machine

open Sys2Proof.Claims

/-! ### Frames and outcomes -/

theorem registerFrame_setPc (s : State) (w : Word) : RegisterFrame s { s with pc := w } [] where
  regs := fun _ _ => rfl
  index := rfl
  memory := fun _ => rfl
  units := ⟨⟨rfl, rfl⟩, ⟨rfl, rfl⟩, ⟨rfl, rfl, rfl, rfl, rfl⟩, ⟨rfl, rfl⟩, ⟨rfl, rfl, rfl⟩⟩

theorem raises_of_exec_eq_raise {i : Instr} {s : State} {c : Cause} (h : exec i s = raise c (opcodeOf i) s) :
    Raises i s c := ⟨_, h, raisedFrom_raised s c _⟩

/-! ### Jumps -/

theorem toNat_zeroExtend (nnn : Addr12) : (zeroExtend nnn).toNat = nnn.toNat :=
  BitVec.toNat_setWidth_of_le (by decide)

theorem toNat_addWord (w n : Nat) : (addWord w n).toNat = (w + n) % 65536 := BitVec.toNat_ofNat ..

theorem qJumpVx_eq_true_iff (t : Target) : qJumpVx t = true ↔ t ≠ .chip8 := by cases t <;> decide

/-- Settles O21: which register BNNN adds is the quirk of the target. -/
theorem jumpsSetPc : Obligations.JumpsSetPc := by
  refine ⟨fun nnn s => ⟨_, rfl, toNat_zeroExtend nnn, rfl, registerFrame_setPc s _⟩,
    fun x nnn s _ => ⟨_, rfl, fun ht => ?_, fun ht => ?_, rfl, registerFrame_setPc s _⟩⟩
  · have hq : ¬qJumpVx s.target = true := fun h => (qJumpVx_eq_true_iff _).1 h ht
    rw [toNat_addWord, if_neg hq]
  · rw [toNat_addWord, if_pos ((qJumpVx_eq_true_iff _).2 ht)]

/-! ### Call and return -/

theorem exec_call_of_full (nnn : Addr12) {s : State} (h : s.sp = 15) :
    exec (.call nnn) s = raise .stackOverflow (opcodeOf (.call nnn)) s := by
  show execCall nnn s = _
  rw [execCall, State.push, if_pos h]

theorem exec_call_of_room (nnn : Addr12) {s : State} (h : s.sp ≠ 15) :
    exec (.call nnn) s =
      .next { s with stack := s.stack.set s.sp s.nextPc, sp := s.sp + 1, pc := zeroExtend nnn } := by
  show execCall nnn s = _
  rw [execCall, State.push, if_neg h]

theorem exec_ret_of_empty {s : State} (h : s.sp = 0) : exec .ret s = raise .stackUnderflow (opcodeOf .ret) s := by
  show execRet s = _
  rw [execRet, State.pop, if_pos h]

theorem exec_ret_of_nonempty {s : State} (h : s.sp ≠ 0) :
    exec .ret s = .next { s with sp := s.sp - 1, pc := s.stack[s.sp - 1] } := by
  show execRet s = _
  rw [execRet, State.pop, if_neg h]

/-- Settles O22: a push writes the slot at SP alone, and finds none where SP is 15. -/
theorem callPushesReturnAddress : Obligations.CallPushesReturnAddress := by
  refine fun nnn s => ⟨fun hroom => ?_, fun hfull => raises_of_exec_eq_raise (exec_call_of_full nnn hfull)⟩
  refine ⟨_, exec_call_of_room nnn hroom, toNat_zeroExtend nnn,
    Fin.val_add_one_of_lt (Fin.lt_last_iff_ne_last.2 hroom), ?_, fun j hj => ?_,
    fun _ _ => rfl, rfl, fun _ => rfl, ⟨rfl, rfl⟩, ⟨rfl, rfl, rfl, rfl, rfl⟩, ⟨rfl, rfl⟩, ⟨rfl, rfl, rfl⟩, rfl⟩
  · exact Vector.getElem_set_self _
  · exact Vector.getElem_set_ne s.sp.isLt j.isLt fun h => hj (Fin.ext h.symm)

/-- Settles O23: a pop reads the slot below SP and writes none, and finds none where SP is 0. -/
theorem retPopsReturnAddress : Obligations.RetPopsReturnAddress := by
  refine fun s => ⟨fun hused => ?_, fun hempty => raises_of_exec_eq_raise (exec_ret_of_empty (Fin.ext hempty))⟩
  have hsp : s.sp ≠ 0 := fun h => hused (congrArg Fin.val h)
  refine ⟨_, exec_ret_of_nonempty hsp, Fin.val_sub_one_of_ne_zero hsp, ?_, rfl,
    fun _ _ => rfl, rfl, fun _ => rfl, ⟨rfl, rfl⟩, ⟨rfl, rfl, rfl, rfl, rfl⟩, ⟨rfl, rfl⟩, ⟨rfl, rfl, rfl⟩, rfl⟩
  simp only [Fin.getElem_fin, Fin.val_sub_one_of_ne_zero hsp]

/-! ### Skips -/

theorem qSkipWide_eq_true_iff (t : Target) : qSkipWide t = true ↔ t = .xochip := by cases t <;> decide

theorem toNat_wordAt (s : State) (a : Nat) :
    (s.wordAt a).toNat = 256 * (s.byteAt a).toNat + (s.byteAt (a + 1)).toNat := by
  have := (s.byteAt a).isLt; have := (s.byteAt (a + 1)).isLt
  simp only [State.wordAt, wordOfBytes, BitVec.toNat_ofNat]
  omega

theorem wordAt_eq_wideWord_iff (s : State) (a : Nat) :
    s.wordAt a = wideWord ↔ 256 * (s.byteAt a).toNat + (s.byteAt (a + 1)).toNat = 0xF000 := by
  rw [← toNat_wordAt, ← BitVec.toNat_inj]; rfl

/-- Off XOCHIP a skip looks at no memory (R105). -/
theorem skip_of_ne_xochip (op : Word) {s : State} (ht : s.target ≠ .xochip) :
    skip op s = .next { s with pc := s.pc + 4 } := by
  have hq : qSkipWide s.target ≠ true := fun h => ht ((qSkipWide_eq_true_iff _).1 h)
  rcases skip_cases (op := op) (s := s) rfl with ⟨-, h⟩ | ⟨hw, -⟩ | ⟨hw, -⟩
  · exact h
  · exact absurd hw hq
  · exact absurd hw hq

/-- On XOCHIP a skip looks at the whole word to be skipped, or raises (R105, D28). -/
theorem skip_of_xochip (op : Word) {s : State} (ht : s.target = .xochip) :
    skip op s =
      if (s.pc + 2).toNat + 1 < 65536 then
        .next { s with pc := s.pc + (if s.wordAt (s.pc + 2).toNat = wideWord then 6 else 4) }
      else raise .memoryOutOfRange op s := by
  have hm : memSize s.target = 65536 := by rw [ht]; rfl
  rcases skip_cases (op := op) (s := s) rfl with ⟨hw, -⟩ | ⟨-, hin, h⟩ | ⟨-, hout, h⟩
  · rw [(qSkipWide_eq_true_iff _).2 ht] at hw; cases hw
  · rw [if_pos (hm ▸ hin)]; exact h
  · rw [if_neg (Nat.not_lt.2 (hm ▸ hout))]; exact h

/-- What every conditional skip does, whatever its condition (R105). -/
theorem skipsWhen_of_exec_eq_skipIf {i : Instr} {s : State} {b : Bool} {cond : Prop}
    (hexec : exec i s = skipIf b (opcodeOf i) s) (hb : b = true ↔ cond) : SkipsWhen i s cond := by
  have taken (h : cond) : exec i s = skip (opcodeOf i) s := by rw [hexec, hb.2 h, skipIf_true]
  refine ⟨fun h => ?_, fun h ht => ?_, fun h ht hin => ?_, fun h ht hout => ?_⟩
  · have hnot : b = false := Bool.eq_false_iff.2 fun e => h (hb.1 e)
    rw [hnot, skipIf_false] at hexec
    exact ⟨_, hexec, registerFrame_setPc s _, rfl, rfl⟩
  · exact ⟨_, (taken h).trans (skip_of_ne_xochip _ ht), registerFrame_setPc s _, rfl, rfl⟩
  · have hskip := (taken h).trans (skip_of_xochip _ ht)
    rw [if_pos hin] at hskip
    refine ⟨_, hskip, registerFrame_setPc s _, rfl, fun hw => ?_, fun hw => ?_⟩
    · show s.pc + _ = _
      rw [if_pos ((wordAt_eq_wideWord_iff ..).2 hw)]
    · show s.pc + _ = _
      rw [if_neg fun e => hw ((wordAt_eq_wideWord_iff ..).1 e)]
  · have hskip := (taken h).trans (skip_of_xochip _ ht)
    rw [if_neg (Nat.not_lt.2 hout)] at hskip
    exact raises_of_exec_eq_raise hskip

/-- Settles O26: the four skips are one conditional skip with four conditions. -/
theorem registerSkips : Obligations.RegisterSkips := fun _ =>
  ⟨fun _ _ => skipsWhen_of_exec_eq_skipIf rfl beq_iff_eq, fun _ _ => skipsWhen_of_exec_eq_skipIf rfl bne_iff_ne,
    fun _ _ => skipsWhen_of_exec_eq_skipIf rfl beq_iff_eq, fun _ _ => skipsWhen_of_exec_eq_skipIf rfl bne_iff_ne⟩

end Sys2Proof.Machine

/-! Proofs about loads, arithmetic, logic and shifts (41_load_arith_logic.md R120 to R132): what each instruction leaves
in VX and in VF, and that it leaves everything else alone. -/

namespace Sys2Proof.Machine

open Sys2Proof.Claims

/-! ### The two ways to write registers: a result alone, or a result and then its flag -/

/-- A state that differs in V, pc and the draw count meets the register frame as soon as its registers do. -/
theorem registerFrame_of_sameRegsBut {s : State} {v : Vector Byte 16} {pc : Word} {draws : Nat} {changed : List Reg}
    (h : SameRegsBut s { s with v := v, pc := pc, draws := draws } changed) :
    RegisterFrame s { s with v := v, pc := pc, draws := draws } changed where
  regs := h
  index := rfl
  memory := fun _ => rfl
  units := ⟨⟨rfl, rfl⟩, ⟨rfl, rfl⟩, ⟨rfl, rfl, rfl, rfl, rfl⟩, ⟨rfl, rfl⟩, ⟨rfl, rfl, rfl⟩⟩

theorem registerFrame_advance_setReg (s : State) (x : Reg) (b : Byte) :
    RegisterFrame s (s.advance.setReg x b) [x] :=
  registerFrame_of_sameRegsBut fun _ hr => State.reg_setReg_other s.advance b (List.ne_of_not_mem_cons hr)

theorem registerFrame_advance_setRegFlag (s : State) (x : Reg) (b : Byte) (f : Bool) :
    RegisterFrame s (s.advance.setRegFlag x b f) [x, 15] :=
  registerFrame_of_sameRegsBut fun r hr => by
    obtain ⟨hx, hvf⟩ : r ≠ x ∧ r ≠ vf := by simpa using hr
    exact (State.reg_setRegFlag s.advance x b f r).trans (by rw [if_neg hvf, if_neg hx, State.reg_advance])

/-- What every instruction does that writes `b` to VX and no flag. -/
theorem completes_of_exec_eq_setReg {i : Instr} {s : State} {x : Reg} {b : Byte}
    (hexec : exec i s = .next (s.advance.setReg x b)) :
    Completes i s fun t => t.reg x = b ∧ RegisterFrame s t [x] ∧ Advances s t :=
  ⟨_, hexec, State.reg_setReg_same _ x b, registerFrame_advance_setReg s x b, rfl, rfl⟩

/-- What every instruction does that writes `b` to VX and then `f` to VF, where the flag stays if X is 15 (R129). -/
theorem completes_of_exec_eq_setRegFlag {i : Instr} {s : State} {x : Reg} {b : Byte} {f : Bool}
    (hexec : exec i s = .next (s.advance.setRegFlag x b f)) :
    Completes i s fun t =>
      (x ≠ 15 → t.reg x = b) ∧ t.reg 15 = flagByte f ∧ RegisterFrame s t [x, 15] ∧ Advances s t := by
  refine ⟨_, hexec, fun hx => ?_, State.reg_setRegFlag_vf _ x b f,
    registerFrame_advance_setRegFlag s x b f, rfl, rfl⟩
  rw [State.reg_setRegFlag, if_neg hx, if_pos rfl]

/-! ### Results and flags as numbers (R134) -/

theorem toNat_flagByte (f : Bool) : (flagByte f).toNat = f.toNat := by cases f <;> rfl

theorem toNat_addBytes (a b : Byte) : (addBytes a b).toNat = (a.toNat + b.toNat) % 256 := BitVec.toNat_ofNat ..

theorem flagByte_carryOut (a b : Byte) : flagByte (carryOut a b) = if 255 < a.toNat + b.toNat then 1 else 0 := by
  simp only [flagByte, carryOut, decide_eq_true_eq]

/-- The difference is the byte that, added to the subtrahend, gives the minuend back mod 256. -/
theorem toNat_subBytes_add (a b : Byte) : ((subBytes a b).toNat + b.toNat) % 256 = a.toNat := by
  have ha := a.isLt
  have hb := b.isLt
  simp only [subBytes, BitVec.toNat_ofNat]
  omega

theorem flagByte_noBorrow (a b : Byte) : flagByte (noBorrow a b) = if b.toNat ≤ a.toNat then 1 else 0 := by
  simp only [flagByte, noBorrow, decide_eq_true_eq]

theorem toNat_shiftRightByte (a : Byte) : (shiftRightByte a).toNat = a.toNat / 2 :=
  BitVec.toNat_ushiftRight a 1

theorem toNat_shiftRightOut (a : Byte) : (shiftRightOut a).toNat = a.toNat % 2 := by
  rw [shiftRightOut, BitVec.getLsbD, Nat.toNat_testBit, Nat.pow_zero, Nat.div_one]

theorem toNat_shiftLeftByte (a : Byte) : (shiftLeftByte a).toNat = 2 * a.toNat % 256 := by
  rw [shiftLeftByte, BitVec.toNat_shiftLeft, Nat.shiftLeft_eq, Nat.pow_one, Nat.mul_comm]

/-- A byte is below 256, so nothing lies above the bit that leaves on the left. -/
theorem toNat_shiftLeftOut (a : Byte) : (shiftLeftOut a).toNat = a.toNat / 128 := by
  have ha := a.isLt
  rw [shiftLeftOut, BitVec.getLsbD, Nat.toNat_testBit]
  omega

theorem qShiftSrcVy_eq_true_iff (t : Target) : qShiftSrcVy t = true ↔ t ≠ .schip := by cases t <;> decide

theorem shiftSource_of_schip {s : State} (h : s.target = .schip) (x y : Reg) : s.shiftSource x y = s.reg x :=
  if_neg fun hq => (qShiftSrcVy_eq_true_iff _).1 hq h

theorem shiftSource_of_ne_schip {s : State} (h : s.target ≠ .schip) (x y : Reg) : s.shiftSource x y = s.reg y :=
  if_pos ((qShiftSrcVy_eq_true_iff _).2 h)

/-! ### The instructions -/

/-- Settles O28: the six differ only in the byte they write to VX. -/
theorem loadsAndLogicWriteVx : Obligations.LoadsAndLogicWriteVx := by
  refine fun s x y nn => ⟨completes_of_exec_eq_setReg rfl, ?_, completes_of_exec_eq_setReg rfl,
    completes_of_exec_eq_setReg rfl, completes_of_exec_eq_setReg rfl, completes_of_exec_eq_setReg rfl⟩
  obtain ⟨t, hexec, hx, hkept⟩ := completes_of_exec_eq_setReg (i := .addImm x nn) (s := s) rfl
  exact ⟨t, hexec, hx ▸ toNat_addBytes _ _, hkept⟩

/-- Settles O29: the sum is written before its carry, so the carry is what VF holds for every X. -/
theorem addSetsCarry : Obligations.AddSetsCarry := by
  intro s x y
  obtain ⟨t, hexec, hx, hvf, hkept⟩ := completes_of_exec_eq_setRegFlag (i := .add x y) (s := s) rfl
  rw [flagByte_carryOut] at hvf
  refine ⟨t, hexec, fun hne => ?_, fun hcarry => ?_, fun hnone => ?_, hkept⟩
  · rw [hx hne, toNat_addBytes]
  · rw [hvf, if_pos hcarry]
  · rw [hvf, if_neg (Nat.not_lt.2 hnone)]

/-- What 8XY5 and 8XY7 share: VX gets `a` minus `b`, and VF 1 where nothing was borrowed (R127, R128). -/
theorem completes_of_exec_eq_difference {i : Instr} {s : State} {x : Reg} {a b : Byte}
    (hexec : exec i s = .next (s.advance.setRegFlag x (subBytes a b) (noBorrow a b))) :
    Completes i s fun t =>
      (x ≠ 15 → ((t.reg x).toNat + b.toNat) % 256 = a.toNat) ∧
      (b.toNat ≤ a.toNat → t.reg 15 = 1) ∧ (a.toNat < b.toNat → t.reg 15 = 0) ∧
      RegisterFrame s t [x, 15] ∧ Advances s t := by
  obtain ⟨t, hnext, hx, hvf, hkept⟩ := completes_of_exec_eq_setRegFlag hexec
  rw [flagByte_noBorrow] at hvf
  refine ⟨t, hnext, fun hne => ?_, fun hle => ?_, fun hlt => ?_, hkept⟩
  · rw [hx hne, toNat_subBytes_add]
  · rw [hvf, if_pos hle]
  · rw [hvf, if_neg (Nat.not_le.2 hlt)]

/-- Settles O30: the two are one subtraction with its operands exchanged. -/
theorem subtractSetsNoBorrow : Obligations.SubtractSetsNoBorrow := fun _ _ _ =>
  ⟨completes_of_exec_eq_difference rfl, completes_of_exec_eq_difference rfl⟩

/-- Settles O31: the quirk of the target fixes the source; the bit that is lost is bit 0 or bit 7 of it. -/
theorem shiftsMoveByOne : Obligations.ShiftsMoveByOne := by
  intro s x y src hschip hother
  have hsrc : s.shiftSource x y = src := by
    by_cases h : s.target = .schip
    · rw [shiftSource_of_schip h, hschip h]
    · rw [shiftSource_of_ne_schip h, hother h]
  constructor
  · obtain ⟨t, hexec, hx, hvf, hkept⟩ := completes_of_exec_eq_setRegFlag (i := .shr x y) (s := s) rfl
    rw [hsrc] at hx hvf
    exact ⟨t, hexec, fun hne => by rw [hx hne, toNat_shiftRightByte],
      by rw [hvf, toNat_flagByte, toNat_shiftRightOut], hkept⟩
  · obtain ⟨t, hexec, hx, hvf, hkept⟩ := completes_of_exec_eq_setRegFlag (i := .shl x y) (s := s) rfl
    rw [hsrc] at hx hvf
    exact ⟨t, hexec, fun hne => by rw [hx hne, toNat_shiftLeftByte],
      by rw [hvf, toNat_flagByte, toNat_shiftLeftOut], hkept⟩

end Sys2Proof.Machine

/-! Proofs about the index register and memory (42_index_memory.md R140 to R150): what each instruction leaves in I, in
memory and in the registers, that it leaves everything else alone, and the Step that runs F000 NNNN (R141). -/

namespace Sys2Proof.Machine

open Sys2Proof.Claims

/-! ### The Step of a running core (30_encoding.md R84) -/

theorem step_eq_exec_of_decode {s : State} {i : Instr} {rest : List Byte} (hrun : s.halted = false)
    (hfetch : s.CanFetch) (hdec : decode s.fetchBytes = .instr i rest) : step s = exec i s := by
  rcases step_cases (s := s) rfl with
    ⟨hhalted, -⟩ | ⟨-, houtside, -⟩ | ⟨-, -, ⟨e, hrej⟩, -⟩ | ⟨-, -, j, rest', hdec', -, -, hstep⟩
  · simp [hrun] at hhalted
  · exact absurd hfetch houtside
  · rw [hdec] at hrej; cases hrej
  · rw [hdec] at hdec'; cases hdec'; exact hstep

/-- Settles O5: the four bytes are the ones Step hands to the decoder. -/
theorem stepRunsDecodedInstruction : Obligations.StepRunsDecodedInstruction :=
  fun _ _ _ hrun hfetch hdec => step_eq_exec_of_decode hrun hfetch hdec

/-- Where F000 stands at pc, the word after it is the operand (R95, R141). -/
theorem decode_fetchBytes_of_wideWord {s : State} (h : s.wordAt s.pc.toNat = wideWord) :
    decode s.fetchBytes = .instr (.ldl (s.wordAt (s.pc + 2).toNat)) [] := by
  have hop : wordOfBytes (s.byteAt s.pc.toNat) (s.byteAt (s.pc.toNat + 1)) = wideWord := h
  have hldl (w : Word) : decodeWord wideWord w = some (.ldl w) := Laws.WordRoundTrip.ldl w rfl
  simp only [State.fetchBytes, decode, hop, if_true, hldl]
  rfl

/-! ### The gate and the range check, decided -/

theorem hasSuperChip_eq_true_iff (t : Target) : hasSuperChip t = true ↔ t ≠ .chip8 := by cases t <;> decide

theorem hasXoChip_eq_true_iff (t : Target) : hasXoChip t = true ↔ t = .xochip := by cases t <;> decide

theorem memSize_of_xochip {s : State} (ht : s.target = .xochip) : memSize s.target = 65536 := by rw [ht]; rfl

theorem gate_of_supported {b : Bool} {op : Word} {s : State} {body : Result} (h : b = true) :
    gate b op s body = body := if_pos h

theorem raises_of_exec_eq_gate {i : Instr} {s : State} {b : Bool} {body : Result}
    (hexec : exec i s = gate b (opcodeOf i) s body) (h : ¬b = true) : Raises i s .unsupportedOnVariant :=
  raises_of_exec_eq_raise (hexec.trans (if_neg h))

theorem withRange_of_lt {last : Nat} {op : Word} {s : State} {body : Result} (h : last < memSize s.target) :
    withRange last op s body = body := if_pos (decide_eq_true h)

theorem raises_of_exec_eq_withRange {i : Instr} {s : State} {last : Nat} {body : Result}
    (hexec : exec i s = withRange last (opcodeOf i) s body) (h : memSize s.target ≤ last) :
    Raises i s .memoryOutOfRange := by
  rcases withRange_cases hexec.symm with ⟨hin, -⟩ | ⟨-, hraised⟩
  · exact absurd hin (Nat.not_lt.2 h)
  · exact raises_of_exec_eq_raise hraised

/-! ### The three kinds of effect: I alone, bytes stored, registers loaded -/

/-- Registers, memory, I, pc and the draw count are in no unit. -/
theorem sameUnits_setOthers (s : State) (v : Vector Byte 16) (mem : Memory) (i pc : Word) (draws : Nat) :
    SameUnits s { s with v := v, mem := mem, i := i, pc := pc, draws := draws } :=
  ⟨⟨rfl, rfl⟩, ⟨rfl, rfl⟩, ⟨rfl, rfl, rfl, rfl, rfl⟩, ⟨rfl, rfl⟩, ⟨rfl, rfl, rfl⟩⟩

theorem State.loadList_eq (s : State) (a : Nat) (xs : List Reg) :
    s.loadList a xs = { s with v := (s.loadList a xs).v } := by
  induction xs generalizing s a with
  | nil => rfl
  | cons x xs ih => exact ih (s.setReg x (s.byteAt a)) (a + 1)

/-- A transfer into registers leaves I as it was (R150). -/
theorem State.loadList_setIndex (s : State) (a : Nat) (xs : List Reg) :
    { s.loadList a xs with i := s.i } = s.loadList a xs := by
  rw [State.loadList_eq]

theorem sameUnits_advance_loadList (s : State) (a : Nat) (xs : List Reg) (w : Word) :
    SameUnits s { s.advance.loadList a xs with i := w } := by
  rw [State.loadList_eq]
  exact sameUnits_setOthers s _ s.mem w (s.pc + 2) s.draws

/-- What every instruction does that writes `w` to I alone. -/
theorem completes_of_exec_eq_setIndex {i : Instr} {s : State} {w : Word}
    (hexec : exec i s = .next { s.advance with i := w }) :
    Completes i s fun t => t.i = w ∧ IndexFrame s t :=
  ⟨_, hexec, rfl, fun _ _ => rfl, fun _ => rfl, sameUnits_setOthers s s.v s.mem w (s.pc + 2) s.draws, rfl, rfl⟩

/-- What every instruction does that stores bytes from I on and leaves `w` in I. -/
theorem completes_of_exec_eq_writeBytes {i : Instr} {s : State} {bs : List Byte} {w : Word}
    (hexec : exec i s = .next { s.advance.writeBytes (s.indexed 0) bs with i := w }) :
    Completes i s fun t =>
      (∀ k (hk : k < bs.length), t.byteAt (s.indexed k) = bs[k]) ∧ t.i = w ∧
      StoreFrame s t (s.indexed 0) bs.length :=
  ⟨_, hexec, fun k hk => State.byteAt_writeBytes_inside s.advance (s.indexed 0) bs k hk, rfl, fun _ _ => rfl,
    fun _ hb => State.byteAt_writeBytes_outside s.advance bs hb,
    sameUnits_setOthers s s.v _ w (s.pc + 2) s.draws, rfl, rfl⟩

/-- What every instruction does that loads registers, none twice, from I on and leaves `w` in I. -/
theorem completes_of_exec_eq_loadList {i : Instr} {s : State} {xs : List Reg} {w : Word} (hxs : xs.Nodup)
    (hexec : exec i s = .next { s.advance.loadList (s.indexed 0) xs with i := w }) :
    Completes i s fun t =>
      (∀ k (hk : k < xs.length), t.reg xs[k] = s.byteAt (s.i.toNat + k)) ∧ (∀ r, r ∉ xs → t.reg r = s.reg r) ∧
      t.i = w ∧ SameMemory s t ∧ SameUnits s t ∧ Advances s t :=
  ⟨_, hexec, fun k hk => State.reg_loadList s.advance (s.indexed 0) xs hxs k hk,
    fun r hr => State.reg_loadList_other s.advance (s.indexed 0) xs r hr, rfl,
    fun b => State.byteAt_loadList s.advance (s.indexed 0) xs b, sameUnits_advance_loadList s _ xs w,
    State.loadList_pc s.advance _ xs, State.loadList_draws s.advance _ xs⟩

/-! ### Setting I -/

/-- Settles O34: the four differ only in the word they write to I, and in the gate of FX30. -/
theorem indexArithmetic : Obligations.IndexArithmetic := by
  refine fun s => ⟨fun nnn => ?_, fun x => ?_, fun x => ?_, fun x ht => ?_, fun x ht => ?_⟩
  · obtain ⟨t, hexec, hi, hframe⟩ := completes_of_exec_eq_setIndex (i := .ldI nnn) (s := s) rfl
    exact ⟨t, hexec, hi ▸ toNat_zeroExtend nnn, hframe⟩
  · obtain ⟨t, hexec, hi, hframe⟩ := completes_of_exec_eq_setIndex (i := .addI x) (s := s) rfl
    exact ⟨t, hexec, hi ▸ toNat_addWord _ _, hframe⟩
  · obtain ⟨t, hexec, hi, hframe⟩ := completes_of_exec_eq_setIndex (i := .ldF x) (s := s) rfl
    exact ⟨t, hexec, hi ▸ toNat_addWord _ _, hframe⟩
  · obtain ⟨t, hexec, hi, hframe⟩ := completes_of_exec_eq_setIndex (i := .ldHf x) (s := s)
      (gate_of_supported ((hasSuperChip_eq_true_iff _).2 ht))
    exact ⟨t, hexec, hi ▸ toNat_addWord _ _, hframe⟩
  · exact raises_of_exec_eq_gate rfl fun h => (hasSuperChip_eq_true_iff _).1 h ht

/-! ### F000 NNNN -/

theorem exec_ldl_of_xochip (nnnn : Word) {s : State} (ht : s.target = .xochip) :
    exec (.ldl nnnn) s = withRange ((s.pc + 2).toNat + 1) (opcodeOf (.ldl nnnn)) s
      (.next { s with i := nnnn, pc := s.pc + 4 }) := by
  have hpc : s.nextPc + 2 = s.pc + 4 := BitVec.add_assoc s.pc 2 2
  show execLdl nnnn s = _
  rw [execLdl, gate_of_supported ((hasXoChip_eq_true_iff _).2 ht), hpc]
  rfl

theorem completes_ldl (nnnn : Word) {s : State} (ht : s.target = .xochip) (hin : (s.pc + 2).toNat + 1 < 65536) :
    Completes (.ldl nnnn) s fun t => t.i = nnnn ∧ t.pc = s.pc + 4 ∧ t.draws = s.draws ∧ SameRegsBut s t [] ∧
      SameMemory s t ∧ SameUnits s t :=
  ⟨_, (exec_ldl_of_xochip nnnn ht).trans (withRange_of_lt (memSize_of_xochip ht ▸ hin)), rfl, rfl, rfl,
    fun _ _ => rfl, fun _ => rfl, sameUnits_setOthers s s.v s.mem nnnn (s.pc + 4) s.draws⟩

/-- Settles O35: a Step at the word F000 is `exec` of F000 NNNN with the next word as NNNN. -/
theorem wideLoadReadsItsOperand : Obligations.WideLoadReadsItsOperand := by
  refine ⟨fun s hrun hfetch hop => ?_, fun nnnn s => completes_ldl nnnn⟩
  rw [step_eq_exec_of_decode hrun hfetch (decode_fetchBytes_of_wideWord hop)]
  refine ⟨fun ht hin => ?_, fun ht hout => ?_, fun ht => ?_⟩
  · obtain ⟨t, hexec, hi, hframe⟩ := completes_ldl (s.wordAt (s.pc + 2).toNat) ht hin
    exact ⟨t, hexec, hi ▸ toNat_wordAt s _, hframe⟩
  · exact raises_of_exec_eq_withRange (exec_ldl_of_xochip _ ht) (memSize_of_xochip ht ▸ hout)
  · exact raises_of_exec_eq_gate rfl fun h => ht ((hasXoChip_eq_true_iff _).1 h)

/-! ### Decimal digits -/

/-- Settles O36: each digit is below 256, so its byte holds it whole. -/
theorem decimalDigitsAreStored : Obligations.DecimalDigitsAreStored := by
  refine fun s x => ⟨fun hin => ?_, fun hout => raises_of_exec_eq_withRange rfl hout⟩
  obtain ⟨t, hexec, hbytes, hi, hframe⟩ := completes_of_exec_eq_writeBytes (i := .ldB x) (s := s)
    (bs := decimalDigits (s.reg x)) (w := s.i) (withRange_of_lt hin)
  have hlen (k : Nat) (hk : k < 3) : k < (decimalDigits (s.reg x)).length := hk
  have hlt := (s.reg x).isLt
  have digit (n : Nat) (hn : n < 256) : (BitVec.ofNat 8 n).toNat = n :=
    (BitVec.toNat_ofNat ..).trans (Nat.mod_eq_of_lt hn)
  refine ⟨t, hexec, ?_, ?_, ?_, hi, hframe⟩
  · rw [hbytes 0 (hlen _ (by decide))]; exact digit _ (by omega)
  · rw [hbytes 1 (hlen _ (by decide))]; exact digit _ (by omega)
  · rw [hbytes 2 (hlen _ (by decide))]; exact digit _ (by omega)

/-! ### Register ranges and their last address -/

theorem length_regRange_zero (x : Reg) : (regRange 0 x).length = x.val + 1 := by simp

theorem length_regRange_eq_max_sub_min (x y : Reg) :
    (regRange x y).length = max x.val y.val - min x.val y.val + 1 := by
  rw [length_regRange]; omega

/-- R149: the k-th register counts up from x where x ≤ y, and else down from it. -/
theorem getElem_regRange_eq {x y r : Reg} {k : Nat} (h : k < (regRange x y).length)
    (hup : x.val ≤ y.val → r.val = x.val + k) (hdown : y.val < x.val → r.val + k = x.val) : (regRange x y)[k] = r := by
  apply Fin.ext
  rw [getElem_regRange]
  split <;> omega

theorem getElem_regRange_zero {x k : Reg} (h : k.val < (regRange 0 x).length) : (regRange 0 x)[k.val] = k :=
  getElem_regRange_eq h (fun _ => (Nat.zero_add _).symm) fun hneg => absurd hneg (Nat.not_lt_zero _)

theorem lastOfRange_zero (s : State) (x : Reg) : s.lastOfRange 0 x = s.i.toNat + x.val := by
  simp [State.lastOfRange, State.indexed]

theorem lastOfRange_eq_max_sub_min (s : State) (x y : Reg) :
    s.lastOfRange x y = s.i.toNat + (max x.val y.val - min x.val y.val) := by
  unfold State.lastOfRange State.indexed; omega

theorem qIndexInc_eq_true_iff (t : Target) : qIndexInc t = true ↔ t = .chip8 := by cases t <;> decide

theorem toNat_indexAfter_of_chip8 {s : State} (h : s.target = .chip8) (x : Reg) :
    (s.indexAfter x).toNat = (s.i.toNat + x.val + 1) % 65536 := by
  rw [State.indexAfter, if_pos ((qIndexInc_eq_true_iff _).2 h), toNat_addWord, Nat.add_assoc]

theorem indexAfter_of_ne_chip8 {s : State} (h : s.target ≠ .chip8) (x : Reg) : s.indexAfter x = s.i :=
  if_neg fun hq => h ((qIndexInc_eq_true_iff _).1 hq)

/-! ### Registers stored -/

/-- What FX55 and 5XY2 share: the registers of a range stored from I on, `w` left in I (R147, R149). -/
theorem completes_of_exec_eq_dump {i : Instr} {s : State} {x y : Reg} {w : Word}
    (hexec : exec i s = .next { s.advance.writeBytes (s.indexed 0) ((regRange x y).map s.reg) with i := w }) :
    Completes i s fun t =>
      (∀ k (hk : k < (regRange x y).length), t.byteAt (s.indexed k) = s.reg (regRange x y)[k]) ∧ t.i = w ∧
      StoreFrame s t (s.indexed 0) (regRange x y).length := by
  obtain ⟨t, hnext, hbytes, hi, hframe⟩ := completes_of_exec_eq_writeBytes hexec
  rw [List.length_map] at hframe
  exact ⟨t, hnext, fun k hk => by rw [hbytes k (by rwa [List.length_map]), List.getElem_map], hi, hframe⟩

theorem exec_saveRegs_eq_withRange (x : Reg) (s : State) :
    exec (.saveRegs x) s = withRange (s.i.toNat + x.val) (opcodeOf (.saveRegs x)) s
      (.next { s.advance.writeBytes (s.indexed 0) ((regRange 0 x).map s.reg) with i := s.indexAfter x }) := by
  rw [← lastOfRange_zero]; rfl

/-- Settles O37: the registers from V0 on, in the order of their numbers. -/
theorem registersAreDumped : Obligations.RegistersAreDumped := by
  intro s x
  have hexec := exec_saveRegs_eq_withRange x s
  refine ⟨fun hin => ?_, fun hout => raises_of_exec_eq_withRange hexec hout⟩
  obtain ⟨t, hnext, hbytes, hi, hframe⟩ := completes_of_exec_eq_dump (hexec.trans (withRange_of_lt hin))
  rw [length_regRange_zero] at hframe
  refine ⟨t, hnext, fun k hk => ?_, fun ht => ?_, fun ht => ?_, hframe⟩
  · have hlen : k.val < (regRange 0 x).length := by rw [length_regRange_zero]; omega
    rw [hbytes k hlen, getElem_regRange_zero]
  · rw [hi, toNat_indexAfter_of_chip8 ht]
  · rw [hi, indexAfter_of_ne_chip8 ht]

theorem exec_saveRange_of_xochip (x y : Reg) {s : State} (ht : s.target = .xochip) :
    exec (.saveRange x y) s = withRange (s.i.toNat + (max x.val y.val - min x.val y.val)) (opcodeOf (.saveRange x y)) s
      (.next (s.advance.writeBytes (s.indexed 0) ((regRange x y).map s.reg))) := by
  rw [← lastOfRange_eq_max_sub_min]
  exact gate_of_supported ((hasXoChip_eq_true_iff _).2 ht)

/-- Settles O39: the gate comes before the range check, and I is left as it was. -/
theorem registerRangeIsDumped : Obligations.RegisterRangeIsDumped := by
  intro s x y
  refine ⟨fun ht => raises_of_exec_eq_gate rfl fun h => ht ((hasXoChip_eq_true_iff _).1 h), fun ht => ?_⟩
  rw [← memSize_of_xochip ht]
  have hexec := exec_saveRange_of_xochip x y ht
  refine ⟨fun hin => ?_, fun hout => raises_of_exec_eq_withRange hexec hout⟩
  obtain ⟨t, hnext, hbytes, hi, hframe⟩ := completes_of_exec_eq_dump (w := s.i) (hexec.trans (withRange_of_lt hin))
  rw [length_regRange_eq_max_sub_min] at hframe
  refine ⟨t, hnext, fun k r hk hup hdown => ?_, hi, hframe⟩
  have hlen : k.val < (regRange x y).length := by rw [length_regRange_eq_max_sub_min]; omega
  rw [hbytes k hlen, getElem_regRange_eq hlen hup hdown]

/-! ### Registers loaded -/

theorem exec_loadRegs_eq_withRange (x : Reg) (s : State) :
    exec (.loadRegs x) s = withRange (s.i.toNat + x.val) (opcodeOf (.loadRegs x)) s
      (.next { s.advance.loadList (s.indexed 0) (regRange 0 x) with i := s.indexAfter x }) := by
  rw [← lastOfRange_zero]; rfl

/-- Settles O38: the registers above VX are not in the range from V0 to VX. -/
theorem registersAreLoaded : Obligations.RegistersAreLoaded := by
  intro s x
  have hexec := exec_loadRegs_eq_withRange x s
  refine ⟨fun hin => ?_, fun hout => raises_of_exec_eq_withRange hexec hout⟩
  obtain ⟨t, hnext, hloaded, hkept, hi, hframe⟩ := completes_of_exec_eq_loadList (nodup_regRange 0 x)
    (hexec.trans (withRange_of_lt hin))
  refine ⟨t, hnext, fun k hk => ?_, fun k hk => hkept k fun hmem => ?_, fun ht => ?_, fun ht => ?_, hframe⟩
  · have hlen : k.val < (regRange 0 x).length := by rw [length_regRange_zero]; omega
    rw [← hloaded k hlen, getElem_regRange_zero]
  · rw [mem_regRange] at hmem; omega
  · rw [hi, toNat_indexAfter_of_chip8 ht]
  · rw [hi, indexAfter_of_ne_chip8 ht]

theorem exec_loadRange_of_xochip (x y : Reg) {s : State} (ht : s.target = .xochip) :
    exec (.loadRange x y) s = withRange (s.i.toNat + (max x.val y.val - min x.val y.val)) (opcodeOf (.loadRange x y)) s
      (.next { s.advance.loadList (s.indexed 0) (regRange x y) with i := s.i }) := by
  have hindex : { s.advance.loadList (s.indexed 0) (regRange x y) with i := s.i } =
      s.advance.loadList (s.indexed 0) (regRange x y) := State.loadList_setIndex s.advance _ _
  rw [← lastOfRange_eq_max_sub_min, hindex]
  exact gate_of_supported ((hasXoChip_eq_true_iff _).2 ht)

/-- Settles O40: the gate comes before the range check, and I is left as it was. -/
theorem registerRangeIsLoaded : Obligations.RegisterRangeIsLoaded := by
  intro s x y
  refine ⟨fun ht => raises_of_exec_eq_gate rfl fun h => ht ((hasXoChip_eq_true_iff _).1 h), fun ht => ?_⟩
  rw [← memSize_of_xochip ht]
  have hexec := exec_loadRange_of_xochip x y ht
  refine ⟨fun hin => ?_, fun hout => raises_of_exec_eq_withRange hexec hout⟩
  obtain ⟨t, hnext, hloaded, hkept, hi, hframe⟩ := completes_of_exec_eq_loadList (nodup_regRange x y)
    (hexec.trans (withRange_of_lt hin))
  refine ⟨t, hnext, fun k r hk hup hdown => ?_, fun r hr => hkept r fun hmem => ?_, hi, hframe⟩
  · have hlen : k.val < (regRange x y).length := by rw [length_regRange_eq_max_sub_min]; omega
    rw [← hloaded k hlen, getElem_regRange_eq hlen hup hdown]
  · rw [mem_regRange] at hmem; omega

end Sys2Proof.Machine

/-! Proofs about the display (43_display.md R160 to R174): which bits each clear, scroll, mode switch and sprite
changes, what becomes of mask, mode and `dirty`, and that everything else is left alone. -/

namespace Sys2Proof.Machine

open Sys2Proof.Claims

/-! ### The words of the statements in the model's terms -/

theorem side_eq_scale (s : State) : side s = s.mode.scale := by unfold side; cases s.mode <;> rfl

theorem spriteShape_eq (n : Nibble) :
    spriteShape n = { rows := spriteRows n, width := spriteWidth n, len := spriteLen n } := by
  unfold spriteShape spriteRows spriteWidth spriteLen
  split <;> rfl

theorem spriteLen_pos (n : Nibble) : 0 < spriteLen n := by
  unfold spriteLen
  split
  · decide
  · rename_i hn; exact Nat.pos_of_ne_zero fun h => hn (Fin.ext h)

theorem length_selectedPlanes_eq_planeCount (mask : BitVec 2) : (selectedPlanes mask).length = planeCount mask :=
  length_selectedPlanes mask

theorem qDrawWrap_eq_true_iff (t : Target) : qDrawWrap t = true ↔ t = .xochip := by cases t <;> decide

/-! ### The frame -/

/-- A state past the word that else differs in V and the display alone meets the display frame as soon as its registers
do. -/
theorem displayFrame_of_sameRegsBut {s : State} {v : Vector Byte 16} {buf1 buf2 : Plane} {mode : Mode} {mask : BitVec 2}
    {dirty : Bool} {changed : List Reg} (h : SameRegsBut s { s with v := v } changed) :
    DisplayFrame s { s.advance with v := v, buf1 := buf1, buf2 := buf2, mode := mode, bitplane := mask, dirty := dirty }
      changed where
  regs := h
  index := rfl
  memory := fun _ => rfl
  stack := ⟨rfl, rfl⟩
  timers := ⟨rfl, rfl⟩
  keypad := ⟨rfl, rfl⟩
  control := ⟨rfl, rfl, rfl⟩
  advances := ⟨rfl, rfl⟩

/-- An instruction that changes only the display meets the display frame with no register listed. -/
theorem displayFrame_setDisplay (s : State) (buf1 buf2 : Plane) (mode : Mode) (mask : BitVec 2) (dirty : Bool) :
    DisplayFrame s { s.advance with buf1 := buf1, buf2 := buf2, mode := mode, bitplane := mask, dirty := dirty } [] :=
  displayFrame_of_sameRegsBut (v := s.v) fun _ _ => rfl

/-! ### Clear and scrolls: one operation on each selected plane (R162) -/

theorem State.plane_onSelected_of_selects {s : State} {f : Plane → Plane} {p : PlaneId} (h : selects s.bitplane p) :
    (s.onSelected f).plane p = f (s.plane p) := by
  rw [State.onSelected_eq]
  cases p <;> exact if_pos h

theorem State.plane_onSelected_of_not_selects {s : State} {f : Plane → Plane} {p : PlaneId}
    (h : ¬selects s.bitplane p) : (s.onSelected f).plane p = s.plane p := by
  rw [State.onSelected_eq]
  cases p <;> exact if_neg h

/-- An operation on each selected plane scrolls by `source` where it moves the bits of every plane so (R164). -/
theorem scrolls_onSelected (s : State) {f : Plane → Plane} {source : Nat → Nat → Option (Nat × Nat)}
    (hbit : ∀ b y x, y < 64 → x < 128 →
      Plane.bit (f b) y x = ((source y x).map fun q => Plane.bit b q.1 q.2).getD false) :
    Scrolls s (s.advance.onSelected f) source := by
  refine ⟨?_, ?_, ?_, rfl, fun p y x hy hx => ⟨fun hp => ?_, fun hp => ?_⟩⟩
  · rw [State.onSelected_eq]; exact displayFrame_setDisplay s _ _ s.mode s.bitplane true
  · rw [State.onSelected_eq]; rfl
  · rw [State.onSelected_eq]; rfl
  · rw [pixel, State.plane_onSelected_of_selects (s := s.advance) hp]; exact hbit (s.plane p) y x hy hx
  · rw [pixel, State.plane_onSelected_of_not_selects (s := s.advance) hp]; rfl

/-- Settles O42: no bit of a blank plane has a source. -/
theorem clearBlanksSelectedPlanes : Obligations.ClearBlanksSelectedPlanes :=
  fun s => ⟨_, rfl, scrolls_onSelected s fun _ y x _ _ => Plane.bit_blank y x⟩

/-- The bit at the place that a condition lets be the source, or 0. -/
theorem getD_map_ite_some (c : Prop) [Decidable c] (q : Nat × Nat) (g : Nat × Nat → Bool) :
    ((if c then some q else none).map g).getD false = if c then g q else false := by
  split <;> rfl

/-- What every scroll does where the target has it. -/
theorem completes_of_exec_eq_gate_onSelected {i : Instr} {s : State} {f : Plane → Plane}
    {cond : Nat → Nat → Prop} [∀ y x, Decidable (cond y x)] {source : Nat → Nat → Nat × Nat}
    (hexec : exec i s = gate (hasSuperChip s.target) (opcodeOf i) s (.next (s.advance.onSelected f)))
    (ht : s.target ≠ .chip8)
    (hbit : ∀ b y x, y < 64 → x < 128 → Plane.bit (f b) y x =
      if cond y x then Plane.bit b (source y x).1 (source y x).2 else false) :
    Completes i s fun t => Scrolls s t fun y x => if cond y x then some (source y x) else none :=
  ⟨_, hexec.trans (gate_of_supported ((hasSuperChip_eq_true_iff _).2 ht)), scrolls_onSelected s fun b y x hy hx => by
    rw [getD_map_ite_some]; exact hbit b y x hy hx⟩

theorem raises_of_exec_eq_gate_superChip {i : Instr} {s : State} {body : Result}
    (hexec : exec i s = gate (hasSuperChip s.target) (opcodeOf i) s body) (ht : s.target = .chip8) :
    Raises i s .unsupportedOnVariant :=
  raises_of_exec_eq_gate hexec fun h => (hasSuperChip_eq_true_iff _).1 h ht

/-- Settles O43: a row of the buffer receives the row that is N logical rows above or below it. -/
theorem verticalScrolls : Obligations.VerticalScrolls := by
  intro s n
  refine ⟨fun ht => ⟨raises_of_exec_eq_gate_superChip rfl ht, raises_of_exec_eq_gate_superChip rfl ht⟩, fun ht => ?_⟩
  rw [side_eq_scale]
  exact ⟨completes_of_exec_eq_gate_onSelected rfl ht fun b y x hy _ => Plane.bit_scrollDown _ b hy x,
    completes_of_exec_eq_gate_onSelected rfl ht fun b y x hy _ => Plane.bit_scrollUp _ b hy x⟩

/-- Settles O44: a column of the buffer receives the column that is 4 logical columns to its left or right. -/
theorem horizontalScrolls : Obligations.HorizontalScrolls := by
  intro s
  refine ⟨fun ht => ⟨raises_of_exec_eq_gate_superChip rfl ht, raises_of_exec_eq_gate_superChip rfl ht⟩, fun ht => ?_⟩
  rw [side_eq_scale]
  exact ⟨completes_of_exec_eq_gate_onSelected rfl ht fun b y x _ hx => Plane.bit_scrollRight _ b y hx,
    completes_of_exec_eq_gate_onSelected rfl ht fun b y x _ _ => Plane.bit_scrollLeft _ b y x⟩

/-! ### Mode and mask -/

/-- What both mode switches do where the target has them. -/
theorem completes_of_exec_eq_gate_switchMode {i : Instr} {s : State} {m : Mode}
    (hexec : exec i s = gate (hasSuperChip s.target) (opcodeOf i) s (.next (s.advance.switchMode m)))
    (ht : s.target ≠ .chip8) :
    Completes i s fun t => t.mode = m ∧ (∀ p y x, pixel t p y x = false) ∧ t.dirty = true ∧
      t.bitplane = s.bitplane ∧ DisplayFrame s t [] :=
  ⟨_, hexec.trans (gate_of_supported ((hasSuperChip_eq_true_iff _).2 ht)), rfl,
    fun p y x => by cases p <;> exact Plane.bit_blank y x, rfl, rfl, displayFrame_setDisplay s _ _ m s.bitplane true⟩

/-- Settles O45: the two are one mode switch with two modes. -/
theorem modeSwitchClearsBothPlanes : Obligations.ModeSwitchClearsBothPlanes :=
  fun _ => ⟨fun ht => ⟨raises_of_exec_eq_gate_superChip rfl ht, raises_of_exec_eq_gate_superChip rfl ht⟩,
    fun ht => ⟨completes_of_exec_eq_gate_switchMode rfl ht, completes_of_exec_eq_gate_switchMode rfl ht⟩⟩

/-- Settles O46: a mask of two bits holds every N up to 3. -/
theorem planeSelectSetsMask : Obligations.PlaneSelectSetsMask := by
  intro s n
  refine ⟨fun ht => raises_of_exec_eq_gate rfl fun h => ht ((hasXoChip_eq_true_iff _).1 h), fun ht => ?_⟩
  have hexec : exec (.plane n) s = if 3 < n.val then raise .unimplemented (opcodeOf (.plane n)) s
      else .next { s.advance with bitplane := BitVec.ofNat 2 n.val } :=
    gate_of_supported ((hasXoChip_eq_true_iff _).2 ht)
  refine ⟨fun hn => ?_, fun hn => raises_of_exec_eq_raise (hexec.trans (if_pos hn))⟩
  have hmask : (BitVec.ofNat 2 n.val).toNat = n.val := (BitVec.toNat_ofNat ..).trans (Nat.mod_eq_of_lt (by omega))
  exact ⟨_, hexec.trans (if_neg (Nat.not_lt.2 hn)), hmask, rfl, rfl, rfl, rfl,
    displayFrame_setDisplay s s.buf1 s.buf2 s.mode _ s.dirty⟩

/-! ### The sprite draw: each selected plane with its own bytes (R169, R170) -/

/-- A plane with its sprite drawn onto it, and whether a set pixel was hit. -/
def drawnOn (s : State) (x y : Reg) (n : Nibble) (p : PlaneId) : Plane × Bool :=
  drawPlane (s.placement x y) (spriteShape n) (s.spriteBit (spriteBase s n p) (spriteWidth n)) (s.plane p)

/-- `State.drawSelected_eq` with the sprite's bytes of each plane where the statement says they begin. -/
theorem drawSelected_spriteShape (s : State) (x y : Reg) (n : Nibble) :
    s.drawSelected x y (spriteShape n) =
      ({ s with buf1 := if s.bitplane.getLsbD 0 then (drawnOn s x y n .p1).1 else s.buf1,
                buf2 := if s.bitplane.getLsbD 1 then (drawnOn s x y n .p2).1 else s.buf2 },
        (s.bitplane.getLsbD 0 && (drawnOn s x y n .p1).2) || (s.bitplane.getLsbD 1 && (drawnOn s x y n .p2).2)) := by
  have hbase1 : s.indexed (0 * spriteLen n) = spriteBase s n .p1 := by simp [State.indexed, spriteBase]
  have hbase2 : s.indexed ((if s.bitplane.getLsbD 0 then 1 else 0) * spriteLen n) = spriteBase s n .p2 := by
    rw [State.indexed, spriteBase, ite_mul, Nat.one_mul, Nat.zero_mul]
  rw [State.drawSelected_eq, spriteShape_eq]
  simp only [hbase1, hbase2, drawnOn, spriteShape_eq, State.plane]

theorem plane_drawSelected_of_selects {s : State} {x y : Reg} {n : Nibble} {p : PlaneId} (h : selects s.bitplane p) :
    (s.drawSelected x y (spriteShape n)).1.plane p = (drawnOn s x y n p).1 := by
  rw [drawSelected_spriteShape]
  cases p <;> exact if_pos h

theorem plane_drawSelected_of_not_selects {s : State} {x y : Reg} {n : Nibble} {p : PlaneId}
    (h : ¬selects s.bitplane p) : (s.drawSelected x y (spriteShape n)).1.plane p = s.plane p := by
  rw [drawSelected_spriteShape]
  cases p <;> exact if_neg h

theorem drawSelected_flag_iff (s : State) (x y : Reg) (n : Nibble) :
    (s.drawSelected x y (spriteShape n)).2 = true ↔ ∃ p, selects s.bitplane p ∧ (drawnOn s x y n p).2 = true := by
  rw [drawSelected_spriteShape]
  simp only [Bool.or_eq_true, Bool.and_eq_true]
  constructor
  · rintro (h | h)
    · exact ⟨.p1, h⟩
    · exact ⟨.p2, h⟩
  · rintro ⟨_ | _, h⟩
    · exact .inl h
    · exact .inr h

/-! ### The logical pixels that a sprite hits (R170) -/

/-- The logical pixel under a sprite's pixel is one of the screen: it wraps, or it is drawn where it falls. -/
theorem Placement.pixel_eq_some_iff {p : Placement} {lx ly : Nat} (hx : lx < p.mode.width) (hy : ly < p.mode.height)
    (r c : Nat) :
    p.pixel r c = some (lx, ly) ↔
      if p.wrap = true then (p.x0 + c) % p.mode.width = lx ∧ (p.y0 + r) % p.mode.height = ly
      else p.x0 + c = lx ∧ p.y0 + r = ly := by
  unfold Placement.pixel
  simp only [Option.ite_none_right_eq_some, Option.some.injEq, Prod.mk.injEq]
  split
  · exact ⟨fun h => h.2, fun h => ⟨⟨h.1 ▸ hx, h.2 ▸ hy⟩, h⟩⟩
  · exact ⟨fun h => h.2, fun h => ⟨⟨h.1 ▸ hx, h.2 ▸ hy⟩, h⟩⟩

/-- Where DXYN's sprite pixels fall on the screen, in the statement's words. -/
theorem State.placement_pixel_eq_some_iff {s : State} {lx ly : Nat} (hx : lx < 128 / side s) (hy : ly < 64 / side s)
    (x y : Reg) (r c : Nat) :
    (s.placement x y).pixel r c = some (lx, ly) ↔
      if s.target = .xochip then
        ((s.reg x).toNat % (128 / side s) + c) % (128 / side s) = lx ∧
        ((s.reg y).toNat % (64 / side s) + r) % (64 / side s) = ly
      else
        (s.reg x).toNat % (128 / side s) + c = lx ∧ (s.reg y).toNat % (64 / side s) + r = ly := by
  rw [side_eq_scale] at hx hy
  refine (Placement.pixel_eq_some_iff (p := s.placement x y) hx hy r c).trans ?_
  simp only [State.placement, qDrawWrap_eq_true_iff, Mode.width, Mode.height, side_eq_scale]

/-- On the screen, the model's cells hit exactly where the statement's pixels land. -/
theorem spriteHits_iff_spriteLands {s : State} {lx ly : Nat} (hx : lx < 128 / side s) (hy : ly < 64 / side s)
    (x y : Reg) (n : Nibble) (p : PlaneId) :
    SpriteHits (s.placement x y) (s.spriteBit (spriteBase s n p) (spriteWidth n))
      (spriteCells (spriteShape n).rows (spriteShape n).width) lx ly ↔ spriteLands s x y n p lx ly := by
  simp only [SpriteHits, spriteLands, Prod.exists, mem_spriteCells, spriteShape_eq, State.spriteBit,
    State.placement_pixel_eq_some_iff hx hy, and_assoc]

theorem pix_plane (s : State) (p : PlaneId) (lx ly : Nat) :
    Plane.pix s.mode (s.plane p) lx ly = pixel s p (side s * ly) (side s * lx) := by
  rw [side_eq_scale]; rfl

/-- Bit (yy, xx) of the buffer is in a logical pixel of the screen. -/
theorem div_side_lt (s : State) {yy xx : Nat} (hy : yy < 64) (hx : xx < 128) :
    xx / side s < 128 / side s ∧ yy / side s < 64 / side s := by
  unfold side; split <;> omega

theorem bit_drawnOn_of_spriteLands {s : State} {x y : Reg} {n : Nibble} {p : PlaneId} {yy xx : Nat} (hy : yy < 64)
    (hx : xx < 128) (h : spriteLands s x y n p (xx / side s) (yy / side s)) :
    Plane.bit (drawnOn s x y n p).1 yy xx = !pixel s p (side s * (yy / side s)) (side s * (xx / side s)) := by
  obtain ⟨hlx, hly⟩ := div_side_lt s hy hx
  have hhit := (spriteHits_iff_spriteLands hlx hly x y n p).2 h
  rw [← pix_plane]
  rw [side_eq_scale] at hhit ⊢
  exact (drawPlane_spec (s.placement x y) n _ (s.plane p)).1 yy xx hhit

theorem bit_drawnOn_of_not_spriteLands {s : State} {x y : Reg} {n : Nibble} {p : PlaneId} {yy xx : Nat} (hy : yy < 64)
    (hx : xx < 128) (h : ¬spriteLands s x y n p (xx / side s) (yy / side s)) :
    Plane.bit (drawnOn s x y n p).1 yy xx = pixel s p yy xx := by
  obtain ⟨hlx, hly⟩ := div_side_lt s hy hx
  have hmiss := mt (spriteHits_iff_spriteLands hlx hly x y n p).1 h
  rw [side_eq_scale] at hmiss
  exact (drawPlane_spec (s.placement x y) n _ (s.plane p)).2.1 yy xx hmiss

theorem drawnOn_flag_iff (s : State) (x y : Reg) (n : Nibble) (p : PlaneId) :
    (drawnOn s x y n p).2 = true ↔ ∃ lx ly, lx < 128 / side s ∧ ly < 64 / side s ∧ spriteLands s x y n p lx ly ∧
      pixel s p (side s * ly) (side s * lx) = true := by
  refine (drawPlane_spec (s.placement x y) n _ (s.plane p)).2.2.trans
    (exists_congr fun lx => exists_congr fun ly => ⟨fun ⟨hhit, hset⟩ => ?_, fun ⟨hlx, hly, hland, hset⟩ => ?_⟩)
  · have ⟨rc, _, _, hpixel⟩ := hhit
    obtain ⟨hlx, hly⟩ : lx < 128 / side s ∧ ly < 64 / side s := side_eq_scale s ▸ Placement.pixel_lt hpixel
    exact ⟨hlx, hly, (spriteHits_iff_spriteLands hlx hly x y n p).1 hhit, (pix_plane s p lx ly).symm.trans hset⟩
  · exact ⟨(spriteHits_iff_spriteLands hlx hly x y n p).2 hland, (pix_plane s p lx ly).trans hset⟩

/-- The collision flag of the whole draw (R170). -/
theorem drawSelected_flag_iff_collides (s : State) (x y : Reg) (n : Nibble) :
    (s.drawSelected x y (spriteShape n)).2 = true ↔ collides s x y n := by
  simp only [drawSelected_flag_iff, drawnOn_flag_iff, collides, exists_and_left]

/-! ### DXYN -/

/-- The state after a draw (R170): the sprite on the selected planes, then the collision in VF, and `dirty`. -/
def afterDraw (s : State) (x y : Reg) (n : Nibble) : State :=
  { (s.advance.drawSelected x y (spriteShape n)).1.setReg vf
      (flagByte (s.advance.drawSelected x y (spriteShape n)).2) with dirty := true }

theorem exec_drw (x y : Reg) (n : Nibble) (s : State) :
    exec (.drw x y n) s =
      if planeCount s.bitplane = 0 then .next (afterDraw s x y n)
      else withRange (s.indexed (planeCount s.bitplane * spriteLen n - 1)) (opcodeOf (.drw x y n)) s
        (.next (afterDraw s x y n)) := by
  show execDrw x y n s = _
  simp only [execDrw, length_selectedPlanes_eq_planeCount, spriteShape_eq, afterDraw]

/-- With a plane selected the last sprite byte is at I + np * len - 1, where there is at least one byte. -/
theorem spriteInMemory_iff_lt {s : State} {n : Nibble} (h : planeCount s.bitplane ≠ 0) :
    spriteInMemory s n ↔ s.indexed (planeCount s.bitplane * spriteLen n - 1) < memSize s.target := by
  have hpos := Nat.mul_pos (Nat.pos_of_ne_zero h) (spriteLen_pos n)
  rw [spriteInMemory, or_iff_right h, State.indexed, Nat.add_sub_assoc hpos]

theorem exec_drw_of_spriteInMemory {s : State} {n : Nibble} (x y : Reg) (h : spriteInMemory s n) :
    exec (.drw x y n) s = .next (afterDraw s x y n) := by
  rw [exec_drw]
  by_cases hnone : planeCount s.bitplane = 0
  · rw [if_pos hnone]
  · rw [if_neg hnone, withRange_of_lt ((spriteInMemory_iff_lt hnone).1 h)]

theorem raises_drw_of_not_spriteInMemory {s : State} {n : Nibble} (x y : Reg) (h : ¬spriteInMemory s n) :
    Raises (.drw x y n) s .memoryOutOfRange := by
  have hsome : planeCount s.bitplane ≠ 0 := fun hnone => h (.inl hnone)
  refine raises_of_exec_eq_withRange ((exec_drw x y n s).trans (if_neg hsome)) ?_
  exact Nat.le_of_not_lt (mt (spriteInMemory_iff_lt hsome).2 h)

/-- VF and `dirty` are in no plane. -/
theorem plane_afterDraw (s : State) (x y : Reg) (n : Nibble) (p : PlaneId) :
    (afterDraw s x y n).plane p = (s.advance.drawSelected x y (spriteShape n)).1.plane p := by
  cases p <;> rfl

/-- What is drawn does not depend on pc. -/
theorem drawnOn_advance (s : State) (x y : Reg) (n : Nibble) (p : PlaneId) :
    drawnOn s.advance x y n p = drawnOn s x y n p := by
  cases p <;> rfl

theorem plane_afterDraw_of_selects {s : State} {x y : Reg} {n : Nibble} {p : PlaneId} (h : selects s.bitplane p) :
    (afterDraw s x y n).plane p = (drawnOn s x y n p).1 := by
  rw [plane_afterDraw, plane_drawSelected_of_selects (s := s.advance) h, drawnOn_advance]

theorem plane_afterDraw_of_not_selects {s : State} {x y : Reg} {n : Nibble} {p : PlaneId} (h : ¬selects s.bitplane p) :
    (afterDraw s x y n).plane p = s.plane p := by
  rw [plane_afterDraw, plane_drawSelected_of_not_selects (s := s.advance) h]
  cases p <;> rfl

theorem reg_vf_afterDraw (s : State) (x y : Reg) (n : Nibble) :
    (afterDraw s x y n).reg 15 = flagByte (s.advance.drawSelected x y (spriteShape n)).2 :=
  State.reg_setReg_same _ vf _

theorem displayFrame_afterDraw (s : State) (x y : Reg) (n : Nibble) : DisplayFrame s (afterDraw s x y n) [15] := by
  unfold afterDraw
  rw [drawSelected_spriteShape]
  exact displayFrame_of_sameRegsBut (mode := s.mode) (mask := s.bitplane) fun _ hr =>
    State.reg_setReg_other s _ (List.ne_of_not_mem_cons hr)

theorem afterDraw_mode_bitplane (s : State) (x y : Reg) (n : Nibble) :
    (afterDraw s x y n).mode = s.mode ∧ (afterDraw s x y n).bitplane = s.bitplane := by
  unfold afterDraw
  rw [drawSelected_spriteShape]
  exact ⟨rfl, rfl⟩

/-- Settles O47: the cells of a sprite land on different logical pixels, so each is toggled once at most, and the
flag of the draw is the collision. -/
theorem spriteIsDrawn : Obligations.SpriteIsDrawn := by
  refine fun s x y n => ⟨fun hin => ?_, raises_drw_of_not_spriteInMemory x y⟩
  have hflag : (s.advance.drawSelected x y (spriteShape n)).2 = true ↔ collides s x y n :=
    drawSelected_flag_iff_collides s.advance x y n
  obtain ⟨hmode, hmask⟩ := afterDraw_mode_bitplane s x y n
  refine ⟨_, exec_drw_of_spriteInMemory x y hin, fun p yy xx hy hx => ⟨fun ⟨hp, hland⟩ => ?_, fun hmiss => ?_⟩,
    fun hhit => ?_, fun hmiss => ?_, rfl, hmode, hmask, displayFrame_afterDraw s x y n⟩
  · rw [pixel, plane_afterDraw_of_selects hp, bit_drawnOn_of_spriteLands hy hx hland]
  · by_cases hp : selects s.bitplane p
    · rw [pixel, plane_afterDraw_of_selects hp, bit_drawnOn_of_not_spriteLands hy hx fun hland => hmiss ⟨hp, hland⟩]
    · rw [pixel, plane_afterDraw_of_not_selects hp]; rfl
  · rw [reg_vf_afterDraw, hflag.2 hhit]; rfl
  · rw [reg_vf_afterDraw, Bool.eq_false_iff.2 (mt hflag.1 hmiss)]; rfl

end Sys2Proof.Machine

/-! Proofs about the keypad and the timers (44_keypad_timers.md R190 to R195): the key skips with their index check, the
two halves of the key wait, the three timer transfers, and that each leaves everything else alone. -/

namespace Sys2Proof.Machine

open Sys2Proof.Claims

/-! ### The key a byte names, and the least key down -/

theorem keyOfByte_eq_none {b : Byte} (h : 15 < b.toNat) : keyOfByte b = none := dif_neg (Nat.not_lt.2 h)

theorem keyOfByte_eq_some {b : Byte} {k : Key} (h : b.toNat = k.val) : keyOfByte b = some k :=
  (dif_pos (h ▸ k.isLt)).trans (congrArg some (Fin.ext h))

theorem State.firstKey_eq_none_iff (s : State) : s.firstKey = none ↔ ∀ k : Key, s.key[k] = false := by
  rw [State.firstKey, ← Fin.find?_eq_find?_finRange, Fin.find?_eq_none_iff]

/-- No key below the first one is down (R192, D25). -/
theorem State.firstKey_eq_some_iff (s : State) (k : Key) :
    s.firstKey = some k ↔ s.key[k] = true ∧ ∀ j : Key, j < k → s.key[j] = false := by
  rw [State.firstKey, ← Fin.find?_eq_find?_finRange, Fin.find?_eq_some_iff]

/-! ### Key skips: the index is checked before anything else (R196) -/

theorem exec_skp_of_no_key {x : Reg} {s : State} (h : keyOfByte (s.reg x) = none) :
    exec (.skp x) s = raise .keyIndexOutOfRange (opcodeOf (.skp x)) s := by
  show execSkp x s = _
  rw [execSkp, h]

theorem exec_skp_of_key {x : Reg} {s : State} {k : Key} (h : keyOfByte (s.reg x) = some k) :
    exec (.skp x) s = skipIf s.key[k] (opcodeOf (.skp x)) s := by
  show execSkp x s = _
  rw [execSkp, h]

theorem exec_sknp_of_no_key {x : Reg} {s : State} (h : keyOfByte (s.reg x) = none) :
    exec (.sknp x) s = raise .keyIndexOutOfRange (opcodeOf (.sknp x)) s := by
  show execSknp x s = _
  rw [execSknp, h]

theorem exec_sknp_of_key {x : Reg} {s : State} {k : Key} (h : keyOfByte (s.reg x) = some k) :
    exec (.sknp x) s = skipIf (!s.key[k]) (opcodeOf (.sknp x)) s := by
  show execSknp x s = _
  rw [execSknp, h]

/-- Settles O27: where VX names a key, the two are the conditional skip with that key down or up as its condition. -/
theorem keySkips : Obligations.KeySkips := by
  refine fun s x => ⟨fun hout => ?_, fun k hk => ?_⟩
  · have hkey := keyOfByte_eq_none hout
    exact ⟨raises_of_exec_eq_raise (exec_skp_of_no_key hkey), raises_of_exec_eq_raise (exec_sknp_of_no_key hkey)⟩
  · have hkey := keyOfByte_eq_some hk
    exact ⟨skipsWhen_of_exec_eq_skipIf (exec_skp_of_key hkey) Iff.rfl,
      skipsWhen_of_exec_eq_skipIf (exec_sknp_of_key hkey) (iff_of_eq (Bool.not_eq_true' _))⟩

/-! ### The key wait (R192) -/

theorem exec_ldVxK_of_no_latch (x : Reg) {s : State} (h : s.waitKey = none) :
    exec (.ldVxK x) s = .next { s with waitKey := s.firstKey } := by
  show execLdVxK x s = _
  rw [execLdVxK, h]

theorem exec_ldVxK_of_latched_down (x : Reg) {s : State} {k : Key} (h : s.waitKey = some k) (hk : s.key[k] = true) :
    exec (.ldVxK x) s = .next s := by
  show execLdVxK x s = _
  simp only [execLdVxK, h, hk, if_true]

theorem exec_ldVxK_of_latched_up (x : Reg) {s : State} {k : Key} (h : s.waitKey = some k) (hk : s.key[k] = false) :
    exec (.ldVxK x) s = .next { s.advance.setReg x (BitVec.ofNat 8 k.val) with waitKey := none } := by
  show execLdVxK x s = _
  simp only [execLdVxK, h, hk, Bool.false_eq_true, if_false]

/-- A key index fits the byte that FX0A stores it in. -/
theorem toNat_ofNat_key (k : Key) : (BitVec.ofNat 8 k.val).toNat = k.val :=
  (BitVec.toNat_ofNat ..).trans (Nat.mod_eq_of_lt (k.isLt.trans (by decide)))

/-- Settles O49: without a latch FX0A latches what the search for the least key down finds; with one it looks at the
latched key alone. -/
theorem keyWaitLatchesThenCompletes : Obligations.KeyWaitLatchesThenCompletes := by
  refine fun s x => ⟨fun hfree hup => ?_, fun k hfree hdown hleast => ?_,
    fun k hlatched hdown => exec_ldVxK_of_latched_down x hlatched hdown, fun k hlatched hup => ?_⟩
  · rw [exec_ldVxK_of_no_latch x hfree, s.firstKey_eq_none_iff.2 hup, ← hfree]
  · have hfirst : s.firstKey = some k := (s.firstKey_eq_some_iff k).2 ⟨hdown, hleast⟩
    exact ⟨_, exec_ldVxK_of_no_latch x hfree, hfirst, rfl, rfl, rfl,
      fun _ _ => rfl, rfl, fun _ => rfl, ⟨rfl, rfl⟩, ⟨rfl, rfl⟩, ⟨rfl, rfl, rfl, rfl, rfl⟩, ⟨rfl, rfl, rfl⟩⟩
  · have hvx : (s.advance.setReg x (BitVec.ofNat 8 k.val)).reg x = BitVec.ofNat 8 k.val := State.reg_setReg_same ..
    exact ⟨_, exec_ldVxK_of_latched_up x hlatched hup, (congrArg BitVec.toNat hvx).trans (toNat_ofNat_key k), rfl, rfl,
      ⟨rfl, rfl⟩, (registerFrame_advance_setReg s x _).regs, rfl, fun _ => rfl, ⟨rfl, rfl⟩, ⟨rfl, rfl⟩,
      ⟨rfl, rfl, rfl, rfl, rfl⟩, ⟨rfl, rfl, rfl⟩⟩

/-! ### Timer transfers -/

/-- What every instruction does that writes the timers alone. -/
theorem completes_of_exec_eq_setTimers {i : Instr} {s : State} {dt st : Byte}
    (hexec : exec i s = .next { s.advance with dt := dt, st := st }) :
    Completes i s fun t => t.dt = dt ∧ t.st = st ∧ SameRegsBut s t [] ∧ t.i = s.i ∧ SameMemory s t ∧
      SameStack s t ∧ SameDisplay s t ∧ SameKeypad s t ∧ SameControl s t ∧ Advances s t :=
  ⟨_, hexec, rfl, rfl, fun _ _ => rfl, rfl, fun _ => rfl, ⟨rfl, rfl⟩, ⟨rfl, rfl, rfl, rfl, rfl⟩, ⟨rfl, rfl⟩,
    ⟨rfl, rfl, rfl⟩, rfl, rfl⟩

/-- Settles O33: FX07 writes a register, and each of the other two writes one timer and leaves the other. -/
theorem timerRegisterTransfers : Obligations.TimerRegisterTransfers := by
  refine fun s x => ⟨completes_of_exec_eq_setReg rfl, completes_of_exec_eq_setTimers rfl, ?_⟩
  obtain ⟨t, hexec, hdt, hst, hkept⟩ :=
    completes_of_exec_eq_setTimers (i := .ldStVx x) (s := s) (dt := s.dt) (st := s.reg x) rfl
  exact ⟨t, hexec, hst, hdt, hkept⟩

end Sys2Proof.Machine

/-! Proofs about the placeholders (45_unimplemented.md R200 to R204, R207): each is an unconditional raise. -/

namespace Sys2Proof.Machine

open Sys2Proof.Claims

/-- No gate, target or operand stands before the exception of a placeholder (R207). -/
theorem exec_eq_raise_of_placeholder {i : Instr} (s : State) (h : placeholder i = true) :
    exec i s = raise .unimplemented (opcodeOf i) s := by
  cases i
  case exit | audio | pitch | saveFlags | loadFlags => rfl
  all_goals exact absurd h Bool.false_ne_true

theorem raises_of_placeholder {i : Instr} (s : State) (h : placeholder i = true) : Raises i s .unimplemented :=
  raises_of_exec_eq_raise (exec_eq_raise_of_placeholder s h)

theorem opcodeOf_exit : opcodeOf .exit = 0x00FD := by decide

/-- The pair of code and opcode by which a host recognises 00FD is the report of any raise of Unimplemented with its
word (R200, R218). -/
theorem exitRequested_raised (s : State) : (s.raised .unimplemented (opcodeOf .exit)).ExitRequested :=
  ⟨s.raised_halted .., s.raised_errCode .., opcodeOf_exit⟩

/-- Settles O13: the five are the placeholders of R92's table, and 00FD's only outcome is its own report. -/
theorem placeholdersRaiseUnimplemented : Obligations.PlaceholdersRaiseUnimplemented := by
  refine fun s => ⟨raises_of_placeholder s rfl, raises_of_placeholder s rfl, fun _ => raises_of_placeholder s rfl,
    fun _ => raises_of_placeholder s rfl, fun _ => raises_of_placeholder s rfl, fun t ht => ?_⟩
  obtain rfl : s.raised .unimplemented (opcodeOf .exit) = t :=
    Host.Outcome.next.inj ((exec_eq_raise_of_placeholder s rfl).symm.trans ht)
  exact exitRequested_raised s

end Sys2Proof.Machine

/-! Proofs about the timers' Tick event (60_exceptions.md R231, R232). -/

namespace Sys2Proof.Machine

open Sys2Proof.Claims

/-- Natural subtraction floors at zero, as a timer does (R231). -/
theorem toNat_timer_countDown (b : Byte) : (if 0 < b.toNat then b - 1 else b).toNat = b.toNat - 1 := by
  split <;> bv_omega

/-! ### One Tick -/

theorem tickEvent_of_halted {s : State} (h : s.halted = true) : tickEvent s = (false, s) := if_pos h

section Running

variable {s : State} (h : s.halted = false)

include h

theorem tickEvent_of_not_halted :
    tickEvent s = (decide (0 < s.st.toNat),
      { s with dt := if 0 < s.dt.toNat then s.dt - 1 else s.dt, st := if 0 < s.st.toNat then s.st - 1 else s.st }) :=
  if_neg (Bool.eq_false_iff.1 h)

theorem tickEvent_dt_toNat : (tickEvent s).2.dt.toNat = s.dt.toNat - 1 := by
  rw [tickEvent_of_not_halted h]
  exact toNat_timer_countDown s.dt

theorem tickEvent_st_toNat : (tickEvent s).2.st.toNat = s.st.toNat - 1 := by
  rw [tickEvent_of_not_halted h]
  exact toNat_timer_countDown s.st

theorem tickEvent_tone_iff : (tickEvent s).1 = true ↔ 0 < s.st.toNat := by
  rw [tickEvent_of_not_halted h]
  exact decide_eq_true_iff

/-- A Tick changes the timers alone (R231). -/
theorem tickEvent_frame : { (tickEvent s).2 with dt := s.dt, st := s.st } = s := by
  rw [tickEvent_of_not_halted h]

theorem tickEvent_not_halted : (tickEvent s).2.halted = false := by
  rw [tickEvent_of_not_halted h]
  exact h

end Running

/-- Settles O50: the halted branch, and one rule for each part of what a Tick does to a running core. -/
theorem tickCountsDown : Obligations.TickCountsDown := fun _ =>
  ⟨tickEvent_of_halted, fun h => ⟨tickEvent_dt_toNat h, tickEvent_st_toNat h,
    (tickEvent_tone_iff h).trans Nat.pos_iff_ne_zero, tickEvent_frame h⟩⟩

/-! ### Ticks in a row -/

theorem ticks_of_halted {s : State} (h : s.halted = true) (k : Nat) : ticks k s = s := by
  induction k with
  | zero => rfl
  | succ k ih => rw [ticks, tickEvent_of_halted h, ih]

theorem ticks_not_halted {s : State} (h : s.halted = false) (k : Nat) : (ticks k s).halted = false := by
  induction k generalizing s with
  | zero => exact h
  | succ k ih => exact ih (tickEvent_not_halted h)

theorem ticks_st_toNat {s : State} (h : s.halted = false) (k : Nat) :
    (ticks k s).st.toNat = s.st.toNat - k := by
  induction k generalizing s with
  | zero => rfl
  | succ k ih =>
    calc (ticks k (tickEvent s).2).st.toNat
        = (tickEvent s).2.st.toNat - k := ih (tickEvent_not_halted h)
      _ = s.st.toNat - 1 - k := by rw [tickEvent_st_toNat h]
      _ = s.st.toNat - (k + 1) := by omega

/-- Settles O51: after k Ticks the sound timer holds ST - k, and the tone says whether that is above zero. -/
theorem toneLastsAsLongAsTimer : Obligations.ToneLastsAsLongAsTimer := by
  refine fun s k => ⟨fun h => ?_, fun h => ?_⟩
  · calc (tickEvent (ticks k s)).1 = true
        ↔ 0 < (ticks k s).st.toNat := tickEvent_tone_iff (ticks_not_halted h k)
      _ ↔ 0 < s.st.toNat - k := by rw [ticks_st_toNat h]
      _ ↔ k < s.st.toNat := Nat.sub_pos_iff_lt
  · rw [ticks_of_halted h, tickEvent_of_halted h]

end Sys2Proof.Machine

/-! Proofs about the host's events Load, SetKey and ReadDisplay, and about run_cycles (70_reset_and_hazards.md R246, R248,
R251, R252). -/

namespace Sys2Proof.Machine

open Sys2Proof.Claims

/-! ### run_cycles: Steps in a row -/

theorem step_of_halted {s : State} (h : s.halted = true) : step s = .next s := if_pos h

/-- Every Step answers a next state, a fatal error too (R213, R214). -/
theorem step_eq_next (s : State) : ∃ t, step s = .next t := by
  obtain ⟨-, h⟩ | ⟨-, -, h⟩ | ⟨-, -, -, h⟩ | ⟨-, -, i, -, -, -, -, h⟩ := step_cases (s := s) rfl
  · exact ⟨_, h⟩
  · exact ⟨_, h⟩
  · exact ⟨_, h⟩
  · rw [h]
    obtain ⟨c, hraise⟩ | ⟨t, hkeep, -⟩ := exec_raisesOrKeeps i s
    · exact ⟨_, hraise⟩
    · exact ⟨t, hkeep⟩

theorem applyEvent_step_of_next {s t : State} (h : step s = .next t) : applyEvent .step s = .next (t, .nothing) := by
  simp only [applyEvent, h]

theorem runEvents_cons_of_next {e : Event} {es : List Event} {s t : State} {o : Output}
    (h : applyEvent e s = .next (t, o)) : runEvents (e :: es) s = runEvents es t := by
  simp only [runEvents, h]

/-- A sequence that ends in a state goes on from that state. -/
theorem runEvents_append_of_next {es es' : List Event} {s t : State} (h : runEvents es s = .next t) :
    runEvents (es ++ es') s = runEvents es' t := by
  induction es generalizing s with
  | nil => rw [Host.Outcome.next.inj h, List.nil_append]
  | cons e es ih =>
    cases he : applyEvent e s with
    | next r =>
      rw [runEvents_cons_of_next he] at h
      rw [List.cons_append, runEvents_cons_of_next he, ih h]
    | fault f => cases f
    | refused r => simp only [runEvents, he, reduceCtorEq] at h

theorem runCycles_add (n m : Nat) : runCycles (n + m) = runCycles n ++ runCycles m :=
  List.replicate_add n m Event.step

theorem runEvents_runCycles_succ_of_next {s t : State} (h : step s = .next t) (n : Nat) :
    runEvents (runCycles (n + 1)) s = runEvents (runCycles n) t :=
  runEvents_cons_of_next (applyEvent_step_of_next h)

/-- The events of run_cycles are the host's run of the machine (R246). -/
theorem runEvents_runCycles_eq_run (n : Nat) (s : State) : runEvents (runCycles n) s = Sys2Proof.core.run n s := by
  induction n generalizing s with
  | zero => rfl
  | succ n ih =>
    obtain ⟨t, ht⟩ := step_eq_next s
    rw [runEvents_runCycles_succ_of_next ht, core_run_succ ht, ih]

theorem runEvents_runCycles_of_halted {s : State} (h : s.halted = true) (m : Nat) :
    runEvents (runCycles m) s = .next s := by
  induction m with
  | zero => rfl
  | succ m ih => rw [runEvents_runCycles_succ_of_next (step_of_halted h), ih]

/-- Settles O56: both sides take one Step after the other, and a halted core's Steps leave it where it is. -/
theorem runCyclesIsRepeatedStep : Obligations.RunCyclesIsRepeatedStep :=
  fun n s => ⟨runEvents_runCycles_eq_run n s, fun m t hrun hhalted => by
    rw [runCycles_add, runEvents_append_of_next hrun, runEvents_runCycles_of_halted hhalted]⟩

/-! ### Load -/

theorem loadEvent_of_halted (bytes : List Byte) {s : State} (h : s.halted = true) : loadEvent bytes s = (.ok, s) :=
  if_pos h

theorem loadEvent_of_fits {bytes : List Byte} {s : State} (hrun : s.halted = false)
    (hfits : bytes.length ≤ memSize s.target - entryPoint) :
    loadEvent bytes s = (.ok, s.writeBytes entryPoint bytes) :=
  (if_neg (Bool.eq_false_iff.1 hrun)).trans (if_neg hfits.not_gt)

theorem loadEvent_of_too_large {bytes : List Byte} {s : State} (hrun : s.halted = false)
    (hlarge : memSize s.target - entryPoint < bytes.length) : loadEvent bytes s = (.loadTooLarge, s) :=
  (if_neg (Bool.eq_false_iff.1 hrun)).trans (if_pos hlarge)

/-- Settles O54: one rule for each branch of Load, and the rules of `writeBytes` for the image that fits. -/
theorem loadCopiesWholeImageOrNothing : Obligations.LoadCopiesWholeImageOrNothing := by
  refine fun s bytes => ⟨loadEvent_of_halted bytes, fun hrun hfits => ?_, loadEvent_of_too_large⟩
  rw [loadEvent_of_fits hrun hfits]
  exact ⟨rfl, s.byteAt_writeBytes_inside entryPoint bytes, fun _ => s.byteAt_writeBytes_outside bytes, rfl⟩

/-! ### SetKey and ReadDisplay -/

theorem setKeyEvent_of_halted (k : Key) (b : Bool) {s : State} (h : s.halted = true) : setKeyEvent k b s = s := if_pos h

theorem setKeyEvent_of_not_halted (k : Key) (b : Bool) {s : State} (h : s.halted = false) :
    setKeyEvent k b s = { s with key := s.key.set k b } := if_neg (Bool.eq_false_iff.1 h)

theorem readDisplayEvent_of_halted {s : State} (h : s.halted = true) :
    readDisplayEvent s = (⟨s.buf1, s.buf2, s.dirty⟩, s) := congrArg (Prod.mk _) (if_pos h)

theorem readDisplayEvent_of_not_halted {s : State} (h : s.halted = false) :
    readDisplayEvent s = (⟨s.buf1, s.buf2, s.dirty⟩, { s with dirty := false }) :=
  congrArg (Prod.mk _) (if_neg (Bool.eq_false_iff.1 h))

/-- Settles O55: the halted and the running branch of the two events. -/
theorem keyAndDisplayEvents : Obligations.KeyAndDisplayEvents := by
  refine fun s => ⟨fun h => ⟨fun k b => setKeyEvent_of_halted k b h, readDisplayEvent_of_halted h⟩,
    fun h => ⟨fun k b => ?_, ?_⟩⟩
  · rw [setKeyEvent_of_not_halted k b h]
    exact ⟨Vector.getElem_set_self k.isLt, fun j hj => Vector.getElem_set_ne k.isLt j.isLt (Fin.val_ne_of_ne hj.symm), rfl⟩
  · rw [readDisplayEvent_of_not_halted h]
    exact ⟨rfl, rfl, rfl⟩

end Sys2Proof.Machine

/-! Proofs about encoding and decoding (30_encoding.md R80 to R87, R95): an instruction's bytes decode to it, bytes that
decode are the bytes of what they decode to, and the decoder answers by the rows of the opcode map. -/

namespace Sys2Proof.Machine

open Sys2Proof.Claims

/-! ### Bytes and words -/

theorem encode_ldl (nnnn : Word) :
    encode (.ldl nnnn) = [hiByte wideWord, loByte wideWord, hiByte nnnn, loByte nnnn] := rfl

theorem wordsOf_of_ne_ldl {i : Instr} (h : ∀ n, i ≠ .ldl n) : wordsOf i = [opcodeOf i] := by
  unfold wordsOf
  split
  case h_1 n => exact absurd rfl (h n)
  case h_2 => rfl

/-- Every instruction but F000 NNNN is one word (R80). -/
theorem encode_of_ne_ldl {i : Instr} (h : ∀ n, i ≠ .ldl n) : encode i = [hiByte (opcodeOf i), loByte (opcodeOf i)] := by
  rw [encode, wordsOf_of_ne_ldl h]; rfl

theorem length_encode (i : Instr) : (encode i).length = lengthOf i := by
  by_cases h : ∃ n, i = .ldl n
  · obtain ⟨n, rfl⟩ := h; rfl
  · have hne : ∀ n, i ≠ .ldl n := not_exists.1 h
    rw [encode_of_ne_ldl hne, lengthOf, wordsOf_of_ne_ldl hne]; rfl

/-- The word F000 takes the word after it as its operand (R95). -/
theorem decode_wide (h l : Byte) (rest : List Byte) :
    decode (hiByte wideWord :: loByte wideWord :: h :: l :: rest) = .instr (.ldl (wordOfBytes h l)) rest := by
  have hldl : decodeWord wideWord (wordOfBytes h l) = some (.ldl (wordOfBytes h l)) := Laws.WordRoundTrip.ldl _ rfl
  simp only [decode, wordOfBytes_bytes, if_true, hldl]

/-- Every other word is decoded alone (R80). -/
theorem decode_narrow {hi lo : Byte} (h : wordOfBytes hi lo ≠ wideWord) (rest : List Byte) :
    decode (hi :: lo :: rest) =
      (decodeWord (wordOfBytes hi lo) 0).elim (.reject (.unmatched (wordOfBytes hi lo))) (.instr · rest) := by
  simp only [decode, if_neg h]
  cases decodeWord (wordOfBytes hi lo) 0 <;> rfl

/-! ### Encode, then decode -/

/-- The word of every well-formed instruction decodes to it: the facts for the single constructors, collected. -/
theorem decodeWord_opcodeOf (i : Instr) : Laws.WordRoundTrip.Statement i := by
  cases i
  exacts [Laws.WordRoundTrip.scd _, Laws.WordRoundTrip.scu _, Laws.WordRoundTrip.cls, Laws.WordRoundTrip.ret,
    Laws.WordRoundTrip.scr, Laws.WordRoundTrip.scl, Laws.WordRoundTrip.exit, Laws.WordRoundTrip.low,
    Laws.WordRoundTrip.high, Laws.WordRoundTrip.jp _, Laws.WordRoundTrip.call _, Laws.WordRoundTrip.seImm _ _,
    Laws.WordRoundTrip.sneImm _ _, Laws.WordRoundTrip.seReg _ _, Laws.WordRoundTrip.saveRange _ _,
    Laws.WordRoundTrip.loadRange _ _, Laws.WordRoundTrip.ldImm _ _, Laws.WordRoundTrip.addImm _ _,
    Laws.WordRoundTrip.ldReg _ _, Laws.WordRoundTrip.or _ _, Laws.WordRoundTrip.and _ _, Laws.WordRoundTrip.xor _ _,
    Laws.WordRoundTrip.add _ _, Laws.WordRoundTrip.sub _ _, Laws.WordRoundTrip.shr _ _, Laws.WordRoundTrip.subn _ _,
    Laws.WordRoundTrip.shl _ _, Laws.WordRoundTrip.sneReg _ _, Laws.WordRoundTrip.ldI _, Laws.WordRoundTrip.jpV0 _ _,
    Laws.WordRoundTrip.rnd _ _, Laws.WordRoundTrip.drw _ _ _, Laws.WordRoundTrip.skp _, Laws.WordRoundTrip.sknp _,
    Laws.WordRoundTrip.ldl _, Laws.WordRoundTrip.plane _, Laws.WordRoundTrip.audio, Laws.WordRoundTrip.ldVxDt _,
    Laws.WordRoundTrip.ldVxK _, Laws.WordRoundTrip.ldDtVx _, Laws.WordRoundTrip.ldStVx _, Laws.WordRoundTrip.addI _,
    Laws.WordRoundTrip.ldF _, Laws.WordRoundTrip.ldHf _, Laws.WordRoundTrip.ldB _, Laws.WordRoundTrip.pitch _,
    Laws.WordRoundTrip.saveRegs _, Laws.WordRoundTrip.loadRegs _, Laws.WordRoundTrip.saveFlags _,
    Laws.WordRoundTrip.loadFlags _]

theorem operandOf_of_ne_ldl {i : Instr} (h : ∀ n, i ≠ .ldl n) : Laws.operandOf i = 0 := by
  unfold Laws.operandOf
  split
  case h_1 n => exact absurd rfl (h n)
  case h_2 => rfl

/-- Settles O1: F000 NNNN takes its operand from the second word; the word of any other instruction is not F000, since
F000 decodes to F000 NNNN alone. -/
theorem encodedInstructionDecodesBack : Obligations.EncodedInstructionDecodesBack := by
  intro i rest hwf
  by_cases h : ∃ n, i = .ldl n
  · obtain ⟨n, rfl⟩ := h
    rw [encode_ldl]
    exact (decode_wide _ _ rest).trans (by rw [wordOfBytes_bytes])
  · have hne : ∀ n, i ≠ .ldl n := not_exists.1 h
    have hdec : decodeWord (opcodeOf i) 0 = some i := operandOf_of_ne_ldl hne ▸ decodeWord_opcodeOf i hwf
    have hnarrow : opcodeOf i ≠ wideWord := fun hw => hne _ ((decodeWord_cases hdec).2.2.2 hw)
    rw [encode_of_ne_ldl hne]
    refine (decode_narrow (by rwa [wordOfBytes_bytes]) rest).trans ?_
    rw [wordOfBytes_bytes, hdec]; rfl

/-! ### Decode, then encode -/

/-- What bytes that decode are: F000 with its operand, or one word that decodes (R80, R95). -/
theorem decode_eq_instr {bytes : List Byte} {i : Instr} {rest : List Byte} (h : decode bytes = .instr i rest) :
    (∃ n, i = .ldl n ∧ bytes = encode i ++ rest) ∨
    (∃ hi lo, bytes = hi :: lo :: rest ∧ wordOfBytes hi lo ≠ wideWord ∧ decodeWord (wordOfBytes hi lo) 0 = some i) := by
  match bytes with
  | [] => cases h
  | [_] => cases h
  | hi :: lo :: tail =>
    by_cases hw : wordOfBytes hi lo = wideWord
    · have hhi : hi = hiByte wideWord := hw ▸ (hiByte_wordOfBytes hi lo).symm
      have hlo : lo = loByte wideWord := hw ▸ (loByte_wordOfBytes hi lo).symm
      subst hhi hlo
      match tail with
      | [] => cases h
      | [_] => cases h
      | b :: c :: tail =>
        rw [decode_wide] at h
        cases h
        exact .inl ⟨_, rfl, by rw [encode_ldl, hiByte_wordOfBytes, loByte_wordOfBytes]; rfl⟩
    · rw [decode_narrow hw] at h
      cases hdec : decodeWord (wordOfBytes hi lo) 0 with
      | none => rw [hdec] at h; cases h
      | some j => rw [hdec] at h; cases h; exact .inr ⟨hi, lo, rfl, hw, hdec⟩

theorem wellFormed_and_encode_append_of_decode {bytes : List Byte} {i : Instr} {rest : List Byte}
    (h : decode bytes = .instr i rest) : i.WellFormed ∧ encode i ++ rest = bytes := by
  rcases decode_eq_instr h with ⟨n, rfl, rfl⟩ | ⟨hi, lo, rfl, hw, hdec⟩
  · exact ⟨rfl, rfl⟩
  · obtain ⟨hwf, hop, hne, -⟩ := decodeWord_cases hdec
    rw [encode_of_ne_ldl (hne hw), hop, hiByte_wordOfBytes, loByte_wordOfBytes]
    exact ⟨hwf, rfl⟩

/-- Settles O2: the lengths add up because the encoding and the rest are the whole. -/
theorem decodedBytesEncodeBack : Obligations.DecodedBytesEncodeBack := by
  intro bytes i rest h
  obtain ⟨hwf, hbytes⟩ := wellFormed_and_encode_append_of_decode h
  exact ⟨hwf, hbytes, by rw [← hbytes, List.length_append, length_encode]⟩

/-! ### The opcode map -/

/-- The dispatch on these digits answers an instruction of the row. -/
def DigitsDecode (operand : Word) (r : OpcodeRow) (a b c d : Nibble) : Prop :=
  ∃ i, decodeNibbles a b c d operand = some i ∧ r.holds i = true

/-- Every word that the row matches decodes to an instruction of the row (R85). -/
def DecodesMatches (operand : Word) (r : OpcodeRow) : Prop :=
  ∀ op, r.Matches op → DigitsDecode operand r (nibble3 op) (nibble2 op) (nibble1 op) (nibble0 op)

/-! A word that a row matches has the digits of the row's match wherever the mask keeps them. -/

section Masks

variable {operand : Word} {r : OpcodeRow}

/-- The match of a row is a matching word under the row's mask, digit by digit. -/
theorem pattern_eq_of_matches {op mask kept : Word} (hm : r.Matches op) (hmask : r.mask = mask)
    (hkept : wordOfNibbles (nibble3 op) (nibble2 op) (nibble1 op) (nibble0 op) &&& mask = kept) : r.pattern = kept := by
  rw [← hm, hmask, ← hkept, wordOfNibbles_nibbles]

theorem decodesMatches_F000 (hmask : r.mask = 0xF000)
    (h : ∀ b c d, DigitsDecode operand r (nibble3 r.pattern) b c d) : DecodesMatches operand r := fun op hm => by
  rw [pattern_eq_of_matches hm hmask (wordOfNibbles_and_F000 ..), nibble3_wordOfNibbles] at h
  exact h _ _ _

theorem decodesMatches_F00F (hmask : r.mask = 0xF00F)
    (h : ∀ b c, DigitsDecode operand r (nibble3 r.pattern) b c (nibble0 r.pattern)) :
    DecodesMatches operand r := fun op hm => by
  rw [pattern_eq_of_matches hm hmask (wordOfNibbles_and_F00F ..), nibble3_wordOfNibbles, nibble0_wordOfNibbles] at h
  exact h _ _

theorem decodesMatches_F0FF (hmask : r.mask = 0xF0FF)
    (h : ∀ b, DigitsDecode operand r (nibble3 r.pattern) b (nibble1 r.pattern) (nibble0 r.pattern)) :
    DecodesMatches operand r := fun op hm => by
  rw [pattern_eq_of_matches hm hmask (wordOfNibbles_and_F0FF ..), nibble3_wordOfNibbles, nibble1_wordOfNibbles,
    nibble0_wordOfNibbles] at h
  exact h _

theorem decodesMatches_FFF0 (hmask : r.mask = 0xFFF0)
    (h : ∀ d, DigitsDecode operand r (nibble3 r.pattern) (nibble2 r.pattern) (nibble1 r.pattern) d) :
    DecodesMatches operand r := fun op hm => by
  rw [pattern_eq_of_matches hm hmask (wordOfNibbles_and_FFF0 ..), nibble3_wordOfNibbles, nibble2_wordOfNibbles,
    nibble1_wordOfNibbles] at h
  exact h _

theorem decodesMatches_FFFF (hmask : r.mask = 0xFFFF)
    (h : DigitsDecode operand r (nibble3 r.pattern) (nibble2 r.pattern) (nibble1 r.pattern) (nibble0 r.pattern)) :
    DecodesMatches operand r := fun op hm => by
  rwa [pattern_eq_of_matches hm hmask (wordOfNibbles_and_FFFF ..), wordOfNibbles_nibbles] at h

end Masks

/-- In the row of every instruction the digits that the mask keeps are those on which the dispatch branches: one case
for each shape of the mask. -/
theorem decodesMatches_ctorIdx (operand : Word) (i : Instr) :
    ∃ r, opcodeMap[i.ctorIdx]? = some r ∧ DecodesMatches operand r := by
  cases i
  case cls | ret | scr | scl | exit | low | high | ldl | audio =>
    exact ⟨_, rfl, decodesMatches_FFFF rfl ⟨_, rfl, rfl⟩⟩
  case scd | scu => exact ⟨_, rfl, decodesMatches_FFF0 rfl fun _ => ⟨_, rfl, rfl⟩⟩
  case jp | call | seImm | sneImm | ldImm | addImm | ldI | jpV0 | rnd | drw =>
    exact ⟨_, rfl, decodesMatches_F000 rfl fun _ _ _ => ⟨_, rfl, rfl⟩⟩
  case seReg | saveRange | loadRange | ldReg | or | and | xor | add | sub | shr | subn | shl | sneReg =>
    exact ⟨_, rfl, decodesMatches_F00F rfl fun _ _ => ⟨_, rfl, rfl⟩⟩
  case skp | sknp | plane | ldVxDt | ldVxK | ldDtVx | ldStVx | addI | ldF | ldHf | ldB | pitch | saveRegs | loadRegs |
      saveFlags | loadFlags =>
    exact ⟨_, rfl, decodesMatches_F0FF rfl fun _ => ⟨_, rfl, rfl⟩⟩

/-- Every row is the row of an instruction: the row's match, read as a word, decodes to one. -/
theorem decodeWord_pattern_ctorIdx :
    ∀ k : Fin opcodeMap.length, (decodeWord opcodeMap[k].pattern 0).map Instr.ctorIdx = some k.val := by decide

theorem decodesMatches_of_mem {r : OpcodeRow} (hr : r ∈ opcodeMap) (operand : Word) : DecodesMatches operand r := by
  obtain ⟨k, hk, rfl⟩ := List.mem_iff_getElem.1 hr
  obtain ⟨i, -, hi⟩ := Option.map_eq_some_iff.1 (decodeWord_pattern_ctorIdx ⟨k, hk⟩)
  obtain ⟨r, hrow, hdec⟩ := decodesMatches_ctorIdx operand i
  rw [hi, List.getElem?_eq_getElem hk, Option.some.injEq] at hrow
  exact hrow ▸ hdec

/-- The rows of R86 are disjoint: any two fix some common bit to different values (R85). -/
theorem opcodeMap_disjoint :
    opcodeMap.Pairwise fun r q => r.pattern &&& q.mask ≠ q.pattern &&& r.mask := by
  decide

/-- Settles O3: what decodes has its own word back, which matches its row; each row's word fixes the digits by which the
dispatch finds it. -/
theorem decoderFollowsOpcodeMap : Obligations.DecoderFollowsOpcodeMap := by
  refine fun op operand => ⟨fun i hdec => ?_, fun r hr => decodesMatches_of_mem hr operand op, ?_⟩
  · obtain ⟨r, hr, holds, hm⟩ := exists_row_of_opcodeOf i
    exact ⟨r, hr, (decodeWord_cases hdec).2.1 ▸ hm, holds⟩
  · refine opcodeMap_disjoint.imp fun {r q} hne ⟨hr, hq⟩ => hne ?_
    rw [← show op &&& r.mask = r.pattern from hr, ← show op &&& q.mask = q.pattern from hq]
    rw [BitVec.and_assoc, BitVec.and_assoc, BitVec.and_comm r.mask]

/-- Settles O4, by evaluating the decoder on each word. -/
theorem sampleWordsDecode : Obligations.SampleWordsDecode := by
  unfold Obligations.SampleWordsDecode
  decide

end Sys2Proof.Machine

/-! Proofs about every instruction at once (10_state.md R21, R22, R38; 30_encoding.md R92; 60_exceptions.md R211 to
R214): the causes for which an instruction can raise, the kinds of effect it can have, and what follows for halts, gates
and the elements of state that an instruction writes. -/

namespace Sys2Proof.Machine

open Sys2Proof.Claims

/-! ### The gate of an instruction (R92) -/

/-- The check that an instruction's meaning makes of the target, none for most. -/
def gateOf : Instr → Target → Bool
  | .scd _ | .scu _ | .scr | .scl | .low | .high | .ldHf _ => hasSuperChip
  | .saveRange _ _ | .loadRange _ _ | .ldl _ | .plane _ => hasXoChip
  | _ => fun _ => true

theorem gateOf_eq_not_unsupported (i : Instr) (t : Target) : gateOf i t = !unsupported t i := by
  cases i <;> cases t <;> rfl

theorem exec_eq_gate (i : Instr) (s : State) : ∃ body, exec i s = gate (gateOf i s.target) (opcodeOf i) s body := by
  cases i
  case scd | scu | scr | scl | low | high | ldHf | saveRange | loadRange | ldl | plane => exact ⟨_, rfl⟩
  all_goals exact ⟨_, (gate_of_supported rfl).symm⟩

theorem raises_of_unsupported {i : Instr} {s : State} (h : unsupported s.target i = true) :
    Raises i s .unsupportedOnVariant := by
  obtain ⟨body, hexec⟩ := exec_eq_gate i s
  exact raises_of_exec_eq_gate hexec (by simp [gateOf_eq_not_unsupported, h])

/-! ### What an instruction can do -/

/-- The instruction can raise this error in this state: R211's table, row by row. -/
def MayRaise (s : State) (i : Instr) : Cause → Prop
  | .stackOverflow => (∃ nnn, i = .call nnn) ∧ s.sp = 15
  | .stackUnderflow => i = .ret ∧ s.sp = 0
  | .unsupportedOnVariant => unsupported s.target i = true
  | .unimplemented => placeholder i = true ∨ ∃ n : Nibble, i = .plane n ∧ 3 < n.val ∧ s.target = .xochip
  | .memoryOutOfRange => needsOutside s i
  | .keyIndexOutOfRange => ∃ x, (i = .skp x ∨ i = .sknp x) ∧ 15 < (s.reg x).toNat

/-- The register may change: it is a destination, or VF as a flag (R21, R22). -/
def MayWriteReg (i : Instr) (r : Reg) : Prop := writesAsDestination i r ∨ (r = 15 ∧ writesFlag i = true)

/-- The instruction may change I (R23, R38). -/
def MaySetIndex (s : State) (i : Instr) : Prop :=
  (∃ nnn, i = .ldI nnn) ∨ (∃ nnnn, i = .ldl nnnn) ∨ (∃ x, i = .addI x) ∨ (∃ x, i = .ldF x) ∨
  (∃ x, i = .ldHf x) ∨ (s.target = .chip8 ∧ ((∃ x, i = .saveRegs x) ∨ ∃ x, i = .loadRegs x))

/-- The instruction may store to memory (R38). -/
def MayStore (i : Instr) : Prop := (∃ x, i = .ldB x) ∨ (∃ x, i = .saveRegs x) ∨ ∃ x y, i = .saveRange x y

/-- The kinds of effect that an instruction which does not raise can have, each with what the whole-machine rules need
to know of it. -/
inductive Effect (s : State) : Instr → State → Prop
  /-- Registers, I, pc and the draw count: loads, arithmetic, jumps, skips, and FX0A while it waits. -/
  | registers {i : Instr} {v : Vector Byte 16} {w pc : Word} {d : Nat} (hdisplay : changesDisplay i = false)
      (hv : ∀ r : Reg, v[r] ≠ s.v[r] → MayWriteReg i r) (hi : w ≠ s.i → MaySetIndex s i)
      (hd : d ≠ s.draws → ∃ x nn, i = .rnd x nn) : Effect s i { s with v := v, i := w, pc := pc, draws := d }
  | call {nnn : Addr12} (hroom : s.sp ≠ 15) :
      Effect s (.call nnn) { s with stack := s.stack.set s.sp s.nextPc, sp := s.sp + 1, pc := zeroExtend nnn }
  | ret : Effect s .ret { s with sp := s.sp - 1, pc := s.stack[s.sp - 1] }
  | delayTimer {x : Reg} : Effect s (.ldDtVx x) { s.advance with dt := s.reg x }
  | soundTimer {x : Reg} : Effect s (.ldStVx x) { s.advance with st := s.reg x }
  /-- Bytes stored from I on, all in memory. -/
  | store {i : Instr} {bs : List Byte} {w : Word} (hstore : MayStore i)
      (hin : s.i.toNat + bs.length ≤ memSize s.target) (hi : w ≠ s.i → MaySetIndex s i) :
      Effect s i { s.advance.writeBytes (s.indexed 0) bs with i := w }
  /-- A clear or a scroll, by whole logical pixels (R175). -/
  | planes {i : Instr} {f : Plane → Plane} (hdisplay : changesDisplay i = true)
      (hf : s.mode = .lores → ∀ b, Plane.Uniform b → Plane.Uniform (f b)) : Effect s i (s.advance.onSelected f)
  | low (hgate : s.target ≠ .chip8) : Effect s .low (s.advance.switchMode .lores)
  | high (hgate : s.target ≠ .chip8) : Effect s .high (s.advance.switchMode .hires)
  | mask {n : Nibble} {m : BitVec 2} (hgate : s.target = .xochip) : Effect s (.plane n) { s.advance with bitplane := m }
  | sprite {x y : Reg} {n : Nibble} : Effect s (.drw x y n) (afterDraw s x y n)
  | latch {x : Reg} : Effect s (.ldVxK x) { s with waitKey := s.firstKey }
  | release {x : Reg} {b : Byte} : Effect s (.ldVxK x) { s.advance.setReg x b with waitKey := none }

/-- The instruction raised for one of its causes, or it had one of the effects. -/
def RaisesOrChanges (i : Instr) (s : State) (r : Result) : Prop :=
  (∃ c, MayRaise s i c ∧ r = raise c (opcodeOf i) s) ∨ ∃ t, Effect s i t ∧ r = .next t

section Outcomes

variable {i : Instr} {s : State}

theorem raisesOrChanges_raise {c : Cause} (h : MayRaise s i c) : RaisesOrChanges i s (raise c (opcodeOf i) s) :=
  .inl ⟨c, h, rfl⟩

theorem raisesOrChanges_next {t : State} (h : Effect s i t) : RaisesOrChanges i s (.next t) := .inr ⟨t, h, rfl⟩

theorem raisesOrChanges_gate {body : Result} (h : gateOf i s.target = true → RaisesOrChanges i s body) :
    RaisesOrChanges i s (gate (gateOf i s.target) (opcodeOf i) s body) := by
  cases hg : gateOf i s.target
  · rw [gateOf_eq_not_unsupported, Bool.not_eq_false'] at hg
    exact raisesOrChanges_raise (c := .unsupportedOnVariant) hg
  · exact h hg

theorem raisesOrChanges_withRange {last : Nat} {body : Result} (hout : memSize s.target ≤ last → needsOutside s i)
    (hin : last < memSize s.target → RaisesOrChanges i s body) :
    RaisesOrChanges i s (withRange last (opcodeOf i) s body) := by
  obtain ⟨h, he⟩ | ⟨h, he⟩ := withRange_cases (last := last) (op := opcodeOf i) (s := s) (body := body) rfl
  all_goals rw [he]
  · exact hin h
  · exact raisesOrChanges_raise (c := .memoryOutOfRange) (hout h)

/-- An instruction that writes pc alone. -/
theorem effect_setPc {pc : Word} (hdisplay : changesDisplay i = false) : Effect s i { s with pc := pc } :=
  .registers hdisplay (fun _ h => absurd rfl h) (absurd rfl) (absurd rfl)

theorem raisesOrChanges_skipIf {b : Bool} (hdisplay : changesDisplay i = false)
    (hout : b = true → nextWordOutside s → needsOutside s i) : RaisesOrChanges i s (skipIf b (opcodeOf i) s) := by
  cases b
  · exact raisesOrChanges_next (effect_setPc hdisplay)
  · rw [skipIf_true]
    rcases skip_cases (op := opcodeOf i) (s := s) rfl with ⟨-, he⟩ | ⟨-, -, he⟩ | ⟨hwide, hlast, he⟩ <;> rw [he]
    · exact raisesOrChanges_next (effect_setPc hdisplay)
    · exact raisesOrChanges_next (effect_setPc hdisplay)
    · have ht := (qSkipWide_eq_true_iff _).1 hwide
      exact raisesOrChanges_raise (c := .memoryOutOfRange) (hout rfl ⟨ht, memSize_of_xochip ht ▸ hlast⟩)

/-- An instruction that writes one of its destinations alone. -/
theorem effect_setReg {x : Reg} {b : Byte} (hdisplay : changesDisplay i = false) (hx : writesAsDestination i x) :
    Effect s i (s.advance.setReg x b) :=
  .registers hdisplay (fun r h => .inl (by by_contra hr; exact h (State.reg_setReg_other s b fun e => hr (e ▸ hx))))
    (absurd rfl) (absurd rfl)

theorem effect_rnd {x : Reg} {nn b : Byte} : Effect s (.rnd x nn) { s.advance.setReg x b with draws := s.draws + 1 } :=
  .registers rfl (fun r h => .inl (by by_contra hr; exact h (State.reg_setReg_other s b hr)))
    (absurd rfl) fun _ => ⟨x, nn, rfl⟩

/-- An instruction that writes one of its destinations and then VF as a flag (R129). -/
theorem effect_setRegFlag {x : Reg} {b : Byte} {f : Bool} (hdisplay : changesDisplay i = false)
    (hx : writesAsDestination i x) (hf : writesFlag i = true) : Effect s i (s.advance.setRegFlag x b f) :=
  .registers hdisplay
    (fun r h => by
      by_cases hvf : r = vf
      · exact .inr ⟨hvf, hf⟩
      · by_cases hr : r = x
        · exact .inl (hr ▸ hx)
        · exact absurd ((State.reg_setRegFlag s x b f r).trans (by rw [if_neg hvf, if_neg hr]; rfl)) h)
    (absurd rfl) (absurd rfl)

/-- An instruction that loads its destinations from memory and leaves `w` in I. -/
theorem effect_loadList {xs : List Reg} {a : Nat} {w : Word} (hdisplay : changesDisplay i = false)
    (hxs : ∀ r ∈ xs, writesAsDestination i r) (hi : w ≠ s.i → MaySetIndex s i) :
    Effect s i { s.advance.loadList a xs with i := w } := by
  rw [State.loadList_eq]
  exact .registers hdisplay
    (fun r h => .inl (by by_contra hr; exact h (State.reg_loadList_other s.advance a xs r (mt (hxs r) hr))))
    hi (absurd rfl)

/-- An instruction that sets I and pc. -/
theorem effect_setIndex {w pc : Word} (hdisplay : changesDisplay i = false) (hi : MaySetIndex s i) :
    Effect s i { s with i := w, pc := pc } :=
  .registers hdisplay (fun _ h => absurd rfl h) (fun _ => hi) (absurd rfl)

/-- FX55 and FX65 change I on CHIP8 alone (R147, R148). -/
theorem target_of_indexAfter_ne {x : Reg} (h : s.indexAfter x ≠ s.i) : s.target = .chip8 := by
  by_contra ht
  exact h (indexAfter_of_ne_chip8 ht x)

end Outcomes

/-! ### The conditions of the key skips and of the sprite draw -/

theorem keyOfByte_eq_none_iff {b : Byte} : keyOfByte b = none ↔ 15 < b.toNat := by
  refine ⟨fun h => ?_, keyOfByte_eq_none⟩
  by_contra hle
  simp [keyOfByte_eq_some (k := ⟨b.toNat, by omega⟩) rfl] at h

theorem keyOfByte_eq_some_iff {b : Byte} {k : Key} : keyOfByte b = some k ↔ b.toNat = k.val := by
  refine ⟨fun h => ?_, keyOfByte_eq_some⟩
  unfold keyOfByte at h
  split at h
  · exact congrArg Fin.val (Option.some.inj h)
  · cases h

/-- Where a sprite byte is not in memory a plane is selected, and DXYN raises before it draws (R170). -/
theorem exec_drw_of_not_spriteInMemory {s : State} {n : Nibble} (x y : Reg) (h : ¬spriteInMemory s n) :
    exec (.drw x y n) s = raise .memoryOutOfRange (opcodeOf (.drw x y n)) s := by
  obtain ⟨t, hexec, hraised⟩ := raises_drw_of_not_spriteInMemory x y h
  rw [hexec, eq_raised_of_raisedFrom hraised]; rfl

/-! ### Planes uniform in logical pixels (R175) -/

/-- A plane is uniform where each bit is that of its block's top-left corner. -/
theorem Plane.uniform_iff {b : Plane} :
    Plane.Uniform b ↔ ∀ y x, y < 64 → x < 128 → Plane.bit b y x = Plane.bit b (2 * (y / 2)) (2 * (x / 2)) := by
  constructor
  · intro h y x hy hx
    have hblock := h (y / 2) (x / 2) (by omega) (by omega)
    have hrow : y = 2 * (y / 2) ∨ y = 2 * (y / 2) + 1 := by omega
    have hcol : x = 2 * (x / 2) ∨ x = 2 * (x / 2) + 1 := by omega
    generalize y / 2 = j, x / 2 = i at *
    obtain ⟨h01, h10, h11⟩ := hblock
    rcases hrow with rfl | rfl <;> rcases hcol with rfl | rfl
    exacts [rfl, h01, h10, h11]
  · intro h j i hj hi
    refine ⟨?_, ?_, ?_⟩
    all_goals rw [h _ _ (by omega) (by omega)]; congr 1 <;> omega

theorem Mode.scale_of_lores {m : Mode} (h : m = .lores) : m.scale = 2 := by rw [h]; rfl

theorem Plane.uniform_blank : Plane.Uniform Plane.blank :=
  Plane.uniform_iff.2 fun _ _ _ _ => (Plane.bit_blank ..).trans (Plane.bit_blank ..).symm

/-- A plane whose bits come, block by block, from a uniform one or are 0 is uniform. -/
theorem Plane.uniform_of_moved {b c : Plane} (h : Plane.Uniform b) {cond : Nat → Nat → Prop}
    [∀ y x, Decidable (cond y x)] {sy sx : Nat → Nat}
    (hbit : ∀ y x, y < 64 → x < 128 → Plane.bit c y x = if cond y x then Plane.bit b (sy y) (sx x) else false)
    (hcond : ∀ y x, cond (2 * (y / 2)) (2 * (x / 2)) ↔ cond y x)
    (hsource : ∀ y x, y < 64 → x < 128 → cond y x →
      sy y < 64 ∧ sx x < 128 ∧ sy (2 * (y / 2)) = 2 * (sy y / 2) ∧ sx (2 * (x / 2)) = 2 * (sx x / 2)) :
    Plane.Uniform c :=
  Plane.uniform_iff.2 fun y x hy hx => by
    rw [hbit y x hy hx, hbit _ _ (by omega) (by omega)]
    by_cases hc : cond y x
    · obtain ⟨hsy, hsx, hrow, hcol⟩ := hsource y x hy hx hc
      rw [if_pos hc, if_pos ((hcond y x).2 hc), hrow, hcol]
      exact Plane.uniform_iff.1 h _ _ hsy hsx
    · rw [if_neg hc, if_neg (mt (hcond y x).1 hc)]

theorem Plane.uniform_scrollDown (n : Nat) {b : Plane} (h : Plane.Uniform b) :
    Plane.Uniform (Plane.scrollDown (2 * n) b) :=
  Plane.uniform_of_moved h (fun _ x hy _ => Plane.bit_scrollDown _ b hy x) (by omega) (by omega)

theorem Plane.uniform_scrollUp (n : Nat) {b : Plane} (h : Plane.Uniform b) :
    Plane.Uniform (Plane.scrollUp (2 * n) b) :=
  Plane.uniform_of_moved h (fun _ x hy _ => Plane.bit_scrollUp _ b hy x) (by omega) (by omega)

theorem Plane.uniform_scrollRight (n : Nat) {b : Plane} (h : Plane.Uniform b) :
    Plane.Uniform (Plane.scrollRight (2 * n) b) :=
  Plane.uniform_of_moved h (fun y _ _ hx => Plane.bit_scrollRight _ b y hx) (by omega) (by omega)

theorem Plane.uniform_scrollLeft (n : Nat) {b : Plane} (h : Plane.Uniform b) :
    Plane.Uniform (Plane.scrollLeft (2 * n) b) :=
  Plane.uniform_of_moved h (fun y x _ _ => Plane.bit_scrollLeft _ b y x) (by omega) (by omega)

/-! ### Every instruction -/

/-- A scroll by `d` logical pixels, where the target has it (R164). -/
theorem raisesOrChanges_scroll {i : Instr} {s : State} {scroll : Nat → Plane → Plane} {d : Nat}
    (hdisplay : changesDisplay i = true) (hscroll : ∀ b, Plane.Uniform b → Plane.Uniform (scroll (2 * d) b)) :
    RaisesOrChanges i s
      (gate (gateOf i s.target) (opcodeOf i) s (.next (s.advance.onSelected (scroll (s.mode.scale * d))))) :=
  raisesOrChanges_gate fun _ => raisesOrChanges_next (.planes hdisplay fun hm => by rwa [Mode.scale_of_lores hm])

/-- What every instruction can do, said once: it raises for a cause of R211's table, or has an effect of its kind. -/
theorem exec_raisesOrChanges (i : Instr) (s : State) : RaisesOrChanges i s (exec i s) := by
  cases i
  case exit | audio | pitch | saveFlags | loadFlags => exact raisesOrChanges_raise (c := .unimplemented) (.inl rfl)
  case jp | jpV0 => exact raisesOrChanges_next (effect_setPc rfl)
  case ldImm | addImm | ldReg | or | and | xor | ldVxDt => exact raisesOrChanges_next (effect_setReg rfl rfl)
  case add | sub | subn | shr | shl => exact raisesOrChanges_next (effect_setRegFlag rfl rfl rfl)
  case ldDtVx => exact raisesOrChanges_next .delayTimer
  case ldStVx => exact raisesOrChanges_next .soundTimer
  case cls => exact raisesOrChanges_next (.planes rfl fun _ _ _ => Plane.uniform_blank)
  case low => exact raisesOrChanges_gate fun hg => raisesOrChanges_next (.low ((hasSuperChip_eq_true_iff _).1 hg))
  case high => exact raisesOrChanges_gate fun hg => raisesOrChanges_next (.high ((hasSuperChip_eq_true_iff _).1 hg))
  case scd n => exact raisesOrChanges_scroll rfl fun _ => Plane.uniform_scrollDown n
  case scu n => exact raisesOrChanges_scroll rfl fun _ => Plane.uniform_scrollUp n
  case scr => exact raisesOrChanges_scroll rfl fun _ => Plane.uniform_scrollRight 4
  case scl => exact raisesOrChanges_scroll rfl fun _ => Plane.uniform_scrollLeft 4
  case plane n =>
    refine raisesOrChanges_gate fun hg => ?_
    have ht := (hasXoChip_eq_true_iff _).1 hg
    split
    · exact raisesOrChanges_raise (c := .unimplemented) (.inr ⟨n, rfl, ‹_›, ht⟩)
    · exact raisesOrChanges_next (.mask ht)
  case drw x y n =>
    by_cases hin : spriteInMemory s n
    · rw [exec_drw_of_spriteInMemory x y hin]; exact raisesOrChanges_next .sprite
    · rw [exec_drw_of_not_spriteInMemory x y hin]; exact raisesOrChanges_raise (c := .memoryOutOfRange) hin
  case call nnn =>
    by_cases hsp : s.sp = 15
    · rw [exec_call_of_full nnn hsp]; exact raisesOrChanges_raise (c := .stackOverflow) ⟨⟨nnn, rfl⟩, hsp⟩
    · rw [exec_call_of_room nnn hsp]; exact raisesOrChanges_next (.call hsp)
  case ret =>
    by_cases hsp : s.sp = 0
    · rw [exec_ret_of_empty hsp]; exact raisesOrChanges_raise (c := .stackUnderflow) ⟨rfl, hsp⟩
    · rw [exec_ret_of_nonempty hsp]; exact raisesOrChanges_next .ret
  case seImm | seReg => exact raisesOrChanges_skipIf rfl fun hb hout => ⟨beq_iff_eq.1 hb, hout⟩
  case sneImm | sneReg => exact raisesOrChanges_skipIf rfl fun hb hout => ⟨bne_iff_ne.1 hb, hout⟩
  case skp x =>
    cases hkey : keyOfByte (s.reg x) with
    | none =>
      rw [exec_skp_of_no_key hkey]
      exact raisesOrChanges_raise (c := .keyIndexOutOfRange) ⟨x, .inl rfl, keyOfByte_eq_none_iff.1 hkey⟩
    | some k =>
      rw [exec_skp_of_key hkey]
      exact raisesOrChanges_skipIf rfl fun hb hout => ⟨⟨k, keyOfByte_eq_some_iff.1 hkey, hb⟩, hout⟩
  case sknp x =>
    cases hkey : keyOfByte (s.reg x) with
    | none =>
      rw [exec_sknp_of_no_key hkey]
      exact raisesOrChanges_raise (c := .keyIndexOutOfRange) ⟨x, .inr rfl, keyOfByte_eq_none_iff.1 hkey⟩
    | some k =>
      rw [exec_sknp_of_key hkey]
      exact raisesOrChanges_skipIf rfl fun hb hout =>
        ⟨⟨k, keyOfByte_eq_some_iff.1 hkey, (Bool.not_eq_true' _).mp hb⟩, hout⟩
  case rnd x nn =>
    exact raisesOrChanges_next (effect_rnd ..)
  case ldI | addI | ldF => exact raisesOrChanges_next (effect_setIndex rfl (by simp [MaySetIndex]))
  case ldHf => exact raisesOrChanges_gate fun _ => raisesOrChanges_next (effect_setIndex rfl (by simp [MaySetIndex]))
  case ldl nnnn =>
    refine raisesOrChanges_gate fun hg => ?_
    have ht := (hasXoChip_eq_true_iff _).1 hg
    exact raisesOrChanges_withRange (fun hout => ⟨ht, memSize_of_xochip ht ▸ hout⟩) fun _ =>
      raisesOrChanges_next (effect_setIndex rfl (.inr (.inl ⟨nnnn, rfl⟩)))
  case ldB x =>
    exact raisesOrChanges_withRange id fun hin =>
      raisesOrChanges_next (.store (w := s.i) (bs := decimalDigits (s.reg x)) (.inl ⟨x, rfl⟩) hin (absurd rfl))
  case saveRegs x =>
    rw [exec_saveRegs_eq_withRange]
    refine raisesOrChanges_withRange id fun hin => raisesOrChanges_next (.store (.inr (.inl ⟨x, rfl⟩)) ?_ fun hne => ?_)
    · rw [List.length_map, length_regRange_zero]; exact hin
    · simp [MaySetIndex, target_of_indexAfter_ne hne]
  case loadRegs x =>
    rw [exec_loadRegs_eq_withRange]
    refine raisesOrChanges_withRange id fun _ =>
      raisesOrChanges_next (effect_loadList rfl (fun r hr => ?_) fun hne => ?_)
    · have := (mem_regRange 0 x r).1 hr; show r.val ≤ x.val; omega
    · simp [MaySetIndex, target_of_indexAfter_ne hne]
  case saveRange x y =>
    refine raisesOrChanges_gate fun hg => ?_
    have ht := (hasXoChip_eq_true_iff _).1 hg
    rw [lastOfRange_eq_max_sub_min]
    refine raisesOrChanges_withRange (fun hout => ⟨ht, memSize_of_xochip ht ▸ hout⟩) fun hin =>
      raisesOrChanges_next (.store (w := s.i) (.inr (.inr ⟨x, y, rfl⟩)) ?_ (absurd rfl))
    rw [List.length_map, length_regRange_eq_max_sub_min]; exact hin
  case loadRange x y =>
    refine raisesOrChanges_gate fun hg => ?_
    have ht := (hasXoChip_eq_true_iff _).1 hg
    rw [lastOfRange_eq_max_sub_min, ← State.loadList_setIndex]
    exact raisesOrChanges_withRange (fun hout => ⟨ht, memSize_of_xochip ht ▸ hout⟩) fun _ =>
      raisesOrChanges_next (effect_loadList rfl (fun r hr => (mem_regRange x y r).1 hr) (absurd rfl))
  case ldVxK x =>
    cases hlatch : s.waitKey with
    | none => rw [exec_ldVxK_of_no_latch x hlatch]; exact raisesOrChanges_next .latch
    | some k =>
      cases hkey : s.key[k]
      · rw [exec_ldVxK_of_latched_up x hlatch hkey]; exact raisesOrChanges_next .release
      · rw [exec_ldVxK_of_latched_down x hlatch hkey]; exact raisesOrChanges_next (effect_setPc (pc := s.pc) rfl)

/-- `exec_raisesOrChanges` for the state that `exec` answers. -/
theorem exec_cases {i : Instr} {s t : State} (h : exec i s = .next t) :
    (∃ c, MayRaise s i c ∧ t = s.raised c (opcodeOf i)) ∨ Effect s i t := by
  rcases exec_raisesOrChanges i s with ⟨c, hc, he⟩ | ⟨u, hu, he⟩
  · exact .inl ⟨c, hc, Host.Outcome.next.inj (h.symm.trans he)⟩
  · exact .inr (Host.Outcome.next.inj (h.symm.trans he) ▸ hu)

/-! ### What every effect leaves alone -/

/-- A draw changes V, pc, the buffers and `dirty` alone. -/
theorem afterDraw_eq (s : State) (x y : Reg) (n : Nibble) :
    afterDraw s x y n =
      { s.advance with
        v := (afterDraw s x y n).v
        buf1 := (afterDraw s x y n).buf1
        buf2 := (afterDraw s x y n).buf2
        dirty := true } := by
  unfold afterDraw
  rw [drawSelected_spriteShape]
  rfl

/-- Only a raise writes the report (R36). -/
theorem Effect.sameControl {i : Instr} {s t : State} (h : Effect s i t) : SameControl s t := by
  cases h
  case sprite => exact (displayFrame_afterDraw ..).control
  case planes => exact sameControl_of_advance (sameControl_onSelected s.advance _)
  all_goals exact ⟨rfl, rfl, rfl⟩

/-! ### Halts -/

/-- Settles O9: an instruction raises or goes on, and both are next states. -/
theorem everyStepAnswersNext : Obligations.EveryStepAnswersNext := by
  refine ⟨fun i s => ?_, step_eq_next⟩
  rcases exec_raisesOrChanges i s with ⟨c, -, he⟩ | ⟨t, -, he⟩
  · exact ⟨_, he⟩
  · exact ⟨t, he⟩

theorem raised_of_exec_halts {i : Instr} {s t : State} (hrun : s.halted = false) (h : exec i s = .next t)
    (hhalt : t.halted = true) : ∃ c, MayRaise s i c ∧ t = s.raised c (opcodeOf i) := by
  rcases exec_cases h with hraise | heffect
  · exact hraise
  · rw [heffect.sameControl.halted, hrun] at hhalt; cases hhalt

/-- Settles O10: what a Step raises is reported with 0 where it did not fetch, and with the fetched word else. -/
theorem haltIsPreciseFatalError : Obligations.HaltIsPreciseFatalError := by
  intro s t hrun hstep hhalt
  have report {c : Cause} {op : Word} (ht : t = s.raised c op) : RaisedFrom s t c op := ht ▸ raisedFrom_raised s c op
  rcases step_cases hstep with ⟨hhalted, -⟩ | ⟨-, hout, he⟩ | ⟨-, hin, -, he⟩ | ⟨-, hin, i, -, -, -, hop, he⟩
  · rw [hrun] at hhalted; cases hhalted
  · exact ⟨_, 0, report (Host.Outcome.next.inj he), fun h => absurd h hout, fun _ => rfl⟩
  · exact ⟨_, _, report (Host.Outcome.next.inj he), fun _ => rfl, fun h => absurd hin (Nat.not_lt.2 h)⟩
  · obtain ⟨c, -, ht⟩ := raised_of_exec_halts hrun he.symm hhalt
    exact ⟨c, _, report (hop ▸ ht), fun _ => rfl, fun h => absurd hin (Nat.not_lt.2 h)⟩

/-- Settles O11: a halt is a raise, and the disjuncts are R211's causes in order. -/
theorem fatalErrorsHaveTheirCauses : Obligations.FatalErrorsHaveTheirCauses := by
  intro i s t hrun h hhalt
  obtain ⟨c, hc, rfl⟩ := raised_of_exec_halts hrun h hhalt
  cases c with
  | stackOverflow => exact .inl ⟨rfl, hc⟩
  | stackUnderflow => exact .inr (.inl ⟨rfl, hc⟩)
  | unsupportedOnVariant => exact .inr (.inr (.inl ⟨rfl, hc⟩))
  | unimplemented => exact .inr (.inr (.inr (.inl ⟨rfl, hc⟩)))
  | memoryOutOfRange => exact .inr (.inr (.inr (.inr (.inl ⟨rfl, hc⟩))))
  | keyIndexOutOfRange => exact .inr (.inr (.inr (.inr (.inr ⟨rfl, hc⟩))))

theorem Cause.code_inj {c d : Cause} (h : c.code = d.code) : c = d := by revert h; cases c <;> cases d <;> decide

/-- Settles O12: the gate answers for the cells of the table, and a raise with code 3 has no other cause. -/
theorem gatedInstructionsRaise : Obligations.GatedInstructionsRaise := by
  refine fun i s => ⟨raises_of_unsupported, fun hsupported hrun ⟨t, op, h, hraised⟩ => ?_⟩
  obtain ⟨c, hc, ht⟩ := raised_of_exec_halts hrun h hraised.halted
  have hcode : c.code = Cause.code .unsupportedOnVariant := (congrArg State.errCode ht).symm.trans hraised.code
  cases Cause.code_inj hcode
  exact absurd hc (by rw [MayRaise, hsupported]; decide)

/-! ### Who writes what -/

/-- Settles O18: a raise writes none of these elements, and each kind of effect writes those of its own unit. -/
theorem onlyNamedInstructionsWrite : Obligations.OnlyNamedInstructionsWrite := by
  intro i s t h
  rcases exec_cases h with ⟨c, -, rfl⟩ | heffect
  · simp
  cases heffect with
  | registers _ _ hi hd => simpa [MaySetIndex] using And.intro hd hi
  | store hstore _ hi => simpa [MaySetIndex, MayStore] using And.intro (fun _ => hstore) hi
  | planes hdisplay _ => simp [State.onSelected_eq, hdisplay]
  | sprite => rw [afterDraw_eq]; simp [changesDisplay]
  | _ => simp [changesDisplay]

/-- Settles O19: a raise writes no register, and each kind of effect that writes registers writes its destinations, or
VF as a flag. -/
theorem onlyDestinationsAndFlagChange : Obligations.OnlyDestinationsAndFlagChange := by
  intro i s t r h hne
  rcases exec_cases h with ⟨c, -, rfl⟩ | heffect
  · exact absurd rfl hne
  cases heffect with
  | registers _ hv _ _ => exact hv r hne
  | planes => rw [State.onSelected_eq] at hne; exact absurd rfl hne
  | sprite =>
    by_cases hr : r = 15
    · exact .inr ⟨hr, rfl⟩
    · exact absurd ((displayFrame_afterDraw s ..).regs r (by simpa using hr)) hne
  | @release x b =>
    by_cases hr : r = x
    · exact .inl hr
    · exact absurd (State.reg_setReg_other s b hr) hne
  | _ => exact absurd rfl hne

/-- Settles O20: of the effects, those of the display set `dirty`, FN01's excepted, and the others leave it. -/
theorem displayInstructionsSetDirty : Obligations.DisplayInstructionsSetDirty := by
  intro i s t _ h hrun
  rcases exec_cases h with ⟨c, -, rfl⟩ | heffect
  · cases hrun
  cases heffect with
  | registers hdisplay => exact ⟨fun h => absurd h (Bool.eq_false_iff.1 hdisplay), fun _ => rfl⟩
  | store hstore =>
    have hdisplay : changesDisplay i = false := by obtain ⟨x, rfl⟩ | ⟨x, rfl⟩ | ⟨x, y, rfl⟩ := hstore <;> rfl
    exact ⟨fun h => absurd h (Bool.eq_false_iff.1 hdisplay), fun _ => rfl⟩
  | planes hdisplay => exact ⟨fun _ => rfl, fun h => absurd hdisplay (Bool.eq_false_iff.1 h)⟩
  | low | high | sprite => exact ⟨fun _ => rfl, nofun⟩
  | _ => exact ⟨nofun, fun _ => rfl⟩

end Sys2Proof.Machine

/-! Proofs about the invariants (10_state.md R40): every Step and every other event keeps them, and a latched key means
that the FX0A which latched it is next. -/

namespace Sys2Proof.Machine

open Sys2Proof.Claims

/-! ### The parts of the invariant, each by the elements it speaks of -/

theorem memoryInv_of_eq {s t : State} (h : s.MemoryInv) (hmem : t.mem = s.mem) (htarget : t.target = s.target) :
    t.MemoryInv := ⟨hmem ▸ h.canonical, by rw [hmem, htarget]; exact h.inRange⟩

theorem reportInv_of_eq {s t : State} (h : s.ReportInv) (hreport : t.report = s.report) : t.ReportInv := by
  obtain ⟨hhalted, hcode, hop, hpc⟩ := ErrorReport.mk.inj hreport
  exact ⟨by rw [hhalted, hcode, hop, hpc]; exact h.clear, hcode ▸ h.legal⟩

theorem displayInv_of_eq {s t : State} (h : s.DisplayInv) (htarget : t.target = s.target) (hmode : t.mode = s.mode)
    (hmask : t.bitplane = s.bitplane) (hbuf1 : t.buf1 = s.buf1) (hbuf2 : t.buf2 = s.buf2) : t.DisplayInv where
  chip8LowRes := by rw [htarget, hmode]; exact h.chip8LowRes
  oneMask := by rw [htarget, hmask]; exact h.oneMask
  onePlane := by rw [htarget, hbuf2]; exact h.onePlane
  uniform := by rw [hmode, hbuf1, hbuf2]; exact h.uniform

/-- Bytes stored inside memory keep it canonical and inside memory. -/
theorem memoryInv_writeBytes {s : State} (h : s.MemoryInv) {a : Nat} {bs : List Byte}
    (hin : a + bs.length ≤ memSize s.target) : (s.writeBytes a bs).MemoryInv where
  canonical := Memory.wf_writeList h.canonical a bs
  inRange := fun c hc => by
    rcases Memory.mem_writeList hc with ⟨-, hlt⟩ | hold
    · exact Nat.lt_of_lt_of_le hlt hin
    · exact h.inRange c hold

theorem not_selects_p2_of_eq_one {mask : BitVec 2} (h : mask = 1) : ¬selects mask .p2 := by
  rw [h]; exact Bool.false_ne_true

/-- Whatever keeps target, mode and mask, leaves plane 2 alone where it is not selected, and keeps uniform planes
uniform, keeps what R40 says of the display. -/
theorem displayInv_of_planes {s t : State} (h : s.DisplayInv) (htarget : t.target = s.target) (hmode : t.mode = s.mode)
    (hmask : t.bitplane = s.bitplane) (hkeep : ¬selects s.bitplane .p2 → t.plane .p2 = s.plane .p2)
    (huniform : s.mode = .lores → ∀ p, Plane.Uniform (s.plane p) → Plane.Uniform (t.plane p)) : t.DisplayInv where
  chip8LowRes := by rw [htarget, hmode]; exact h.chip8LowRes
  oneMask := by rw [htarget, hmask]; exact h.oneMask
  onePlane := fun ht => by
    rw [htarget] at ht
    exact (hkeep (not_selects_p2_of_eq_one (h.oneMask ht))).trans (h.onePlane ht)
  uniform := fun hm => by
    rw [hmode] at hm
    exact ⟨huniform hm .p1 (h.uniform hm).1, huniform hm .p2 (h.uniform hm).2⟩

/-- Both planes blank in a mode that the target has. -/
theorem displayInv_advance_switchMode {s : State} (h : s.DisplayInv) (hgate : s.target ≠ .chip8) (m : Mode) :
    (s.advance.switchMode m).DisplayInv :=
  ⟨fun ht => absurd ht hgate, h.oneMask, fun _ => rfl, fun _ => ⟨Plane.uniform_blank, Plane.uniform_blank⟩⟩

/-! ### A draw toggles whole logical pixels (R161, R170) -/

theorem side_pos (s : State) : 0 < side s := by unfold side; split <;> decide

theorem side_of_lores {s : State} (h : s.mode = .lores) : side s = 2 := if_pos h

/-- The corner of a bit's block lies on the screen and in that block. -/
theorem corner_spec (s : State) {yy xx : Nat} (hy : yy < 64) (hx : xx < 128) :
    side s * (yy / side s) < 64 ∧ side s * (xx / side s) < 128 ∧
    side s * (yy / side s) / side s = yy / side s ∧ side s * (xx / side s) / side s = xx / side s :=
  ⟨(Nat.mul_div_le yy _).trans_lt hy, (Nat.mul_div_le xx _).trans_lt hx,
    Nat.mul_div_cancel_left _ (side_pos s), Nat.mul_div_cancel_left _ (side_pos s)⟩

theorem pixel_corner {s : State} {p : PlaneId} (h : s.mode = .lores → Plane.Uniform (s.plane p)) {yy xx : Nat}
    (hy : yy < 64) (hx : xx < 128) :
    pixel s p (side s * (yy / side s)) (side s * (xx / side s)) = pixel s p yy xx := by
  by_cases hm : s.mode = .lores
  · rw [side_of_lores hm]; exact (Plane.uniform_iff.1 (h hm) yy xx hy hx).symm
  · rw [side, if_neg hm, Nat.one_mul, Nat.one_mul, Nat.div_one, Nat.div_one]

section Draw

variable {s : State} {x y : Reg} {n : Nibble} {p : PlaneId} {yy xx : Nat}

/-- The draw toggles the logical pixel of bit (yy, xx) on the plane. -/
def Hit (s : State) (x y : Reg) (n : Nibble) (p : PlaneId) (yy xx : Nat) : Prop :=
  selects s.bitplane p ∧ spriteLands s x y n p (xx / side s) (yy / side s)

/-- Whether a bit is hit depends on its block alone. -/
theorem hit_corner (hy : yy < 64) (hx : xx < 128) :
    Hit s x y n p (side s * (yy / side s)) (side s * (xx / side s)) ↔ Hit s x y n p yy xx := by
  obtain ⟨-, -, hrow, hcol⟩ := corner_spec s hy hx
  rw [Hit, hrow, hcol, Hit]

theorem pixel_afterDraw_of_hit (hy : yy < 64) (hx : xx < 128) (h : Hit s x y n p yy xx) :
    pixel (afterDraw s x y n) p yy xx = !pixel s p (side s * (yy / side s)) (side s * (xx / side s)) := by
  rw [pixel, plane_afterDraw_of_selects h.1, bit_drawnOn_of_spriteLands hy hx h.2]

theorem pixel_afterDraw_of_miss (hy : yy < 64) (hx : xx < 128) (h : ¬Hit s x y n p yy xx) :
    pixel (afterDraw s x y n) p yy xx = pixel s p yy xx := by
  by_cases hp : selects s.bitplane p
  · rw [pixel, plane_afterDraw_of_selects hp, bit_drawnOn_of_not_spriteLands hy hx fun hland => h ⟨hp, hland⟩]
  · rw [pixel, plane_afterDraw_of_not_selects hp]; rfl

/-- A block that is hit is hit at its corner too. -/
theorem pixel_afterDraw_corner_of_hit (hy : yy < 64) (hx : xx < 128) (h : Hit s x y n p yy xx) :
    pixel (afterDraw s x y n) p (side s * (yy / side s)) (side s * (xx / side s)) =
      !pixel s p (side s * (yy / side s)) (side s * (xx / side s)) := by
  obtain ⟨hcy, hcx, hrow, hcol⟩ := corner_spec s hy hx
  rw [pixel_afterDraw_of_hit hcy hcx ((hit_corner hy hx).2 h), hrow, hcol]

/-- A draw in low-res keeps blocks uniform. -/
theorem uniform_afterDraw (hm : s.mode = .lores) (x y : Reg) (n : Nibble) (h : Plane.Uniform (s.plane p)) :
    Plane.Uniform ((afterDraw s x y n).plane p) := by
  refine Plane.uniform_iff.2 fun yy xx hy hx => ?_
  show pixel (afterDraw s x y n) p yy xx = pixel (afterDraw s x y n) p (2 * (yy / 2)) (2 * (xx / 2))
  rw [← side_of_lores hm]
  by_cases hhit : Hit s x y n p yy xx
  · rw [pixel_afterDraw_of_hit hy hx hhit, pixel_afterDraw_corner_of_hit hy hx hhit]
  · obtain ⟨hcy, hcx, -, -⟩ := corner_spec s hy hx
    rw [pixel_afterDraw_of_miss hy hx hhit, pixel_afterDraw_of_miss hcy hcx (mt (hit_corner hy hx).1 hhit),
      pixel_corner (fun _ => h) hy hx]

end Draw

/-! ### Every effect keeps the invariants -/

section Effects

variable {i : Instr} {s t : State} (h : Effect s i t)

include h

theorem Effect.memoryInv (hs : s.MemoryInv) : t.MemoryInv := by
  cases h with
  | store _ hin _ => exact memoryInv_of_eq (memoryInv_writeBytes hs hin) rfl rfl
  | planes => rw [State.onSelected_eq]; exact memoryInv_of_eq hs rfl rfl
  | sprite => rw [afterDraw_eq]; exact memoryInv_of_eq hs rfl rfl
  | _ => exact memoryInv_of_eq hs rfl rfl

/-- A push stores below the last slot (C1). -/
theorem Effect.lastSlot (hs : s.stack[15] = 0) : t.stack[15] = 0 := by
  cases h with
  | call hroom => exact (Vector.getElem_set_ne s.sp.isLt (by decide) (Fin.val_ne_of_ne hroom)).trans hs
  | planes => rw [State.onSelected_eq]; exact hs
  | sprite => rw [afterDraw_eq]; exact hs
  | _ => exact hs

theorem Effect.displayInv (hs : s.DisplayInv) : t.DisplayInv := by
  cases h with
  | @planes _ f _ hf =>
    refine displayInv_of_planes hs ?_ ?_ ?_ (State.plane_onSelected_of_not_selects (s := s.advance)) fun hm p hp => ?_
    · rw [State.onSelected_eq]; rfl
    · rw [State.onSelected_eq]; rfl
    · rw [State.onSelected_eq]; rfl
    · by_cases hsel : selects s.bitplane p
      · rw [State.plane_onSelected_of_selects (s := s.advance) hsel]; exact hf hm _ hp
      · rw [State.plane_onSelected_of_not_selects (s := s.advance) hsel]; exact hp
  | low hgate => exact displayInv_advance_switchMode hs hgate .lores
  | high hgate => exact displayInv_advance_switchMode hs hgate .hires
  | mask hgate => exact ⟨hs.chip8LowRes, fun hne => absurd hgate hne, hs.onePlane, hs.uniform⟩
  | @sprite x y n =>
    obtain ⟨hmode, hmask⟩ := afterDraw_mode_bitplane s x y n
    exact displayInv_of_planes hs (displayFrame_afterDraw s x y n).control.target hmode hmask
      plane_afterDraw_of_not_selects fun hm _ => uniform_afterDraw hm x y n
  | _ => exact displayInv_of_eq hs rfl rfl rfl rfl rfl

theorem Effect.inv (hs : s.Inv) : t.Inv :=
  ⟨h.memoryInv hs.memory, h.lastSlot hs.lastSlot, h.displayInv hs.display,
    reportInv_of_eq hs.report h.sameControl.report⟩

end Effects

/-! ### Every event keeps the invariants -/

theorem Cause.code_le (c : Cause) : c.code.toNat ≤ 6 := by cases c <;> decide

theorem inv_raised {s : State} (h : s.Inv) (c : Cause) (op : Word) : (s.raised c op).Inv where
  memory := memoryInv_of_eq h.memory rfl rfl
  lastSlot := h.lastSlot
  display := displayInv_of_eq h.display rfl rfl rfl rfl rfl
  report := ⟨nofun, c.code_le⟩

/-- Settles O14: a Step raises, or has one of the effects, or does nothing. -/
theorem stepKeepsInvariant : Obligations.StepKeepsInvariant := by
  intro s t hs hstep
  rcases step_cases hstep with ⟨-, he⟩ | ⟨-, -, he⟩ | ⟨-, -, -, he⟩ | ⟨-, -, i, -, -, -, -, he⟩
  · exact Host.Outcome.next.inj he ▸ hs
  · exact Host.Outcome.next.inj he ▸ inv_raised hs _ _
  · exact Host.Outcome.next.inj he ▸ inv_raised hs _ _
  · rcases exec_cases he.symm with ⟨c, -, rfl⟩ | heffect
    · exact inv_raised hs c _
    · exact heffect.inv hs

/-- Settles O15: memory lists nothing, the planes are blank and the report is clear. -/
theorem resetMeetsInvariant : Obligations.ResetMeetsInvariant := fun _ =>
  ⟨⟨Memory.wf_nil, nofun⟩, rfl,
    ⟨fun _ => rfl, fun _ => rfl, fun _ => rfl, fun _ => ⟨Plane.uniform_blank, Plane.uniform_blank⟩⟩,
    ⟨fun _ => ⟨rfl, rfl, rfl⟩, Nat.zero_le 6⟩⟩

/-! Tick, SetKey and ReadDisplay change the timers, the keys and `dirty` alone (R231, R251, R252). -/

theorem tickEvent_eq_setTimers (s : State) : ∃ dt st, (tickEvent s).2 = { s with dt := dt, st := st } := by
  rcases s.halted.eq_false_or_eq_true with h | h
  · exact ⟨s.dt, s.st, congrArg Prod.snd (tickEvent_of_halted h)⟩
  · exact ⟨_, _, congrArg Prod.snd (tickEvent_of_not_halted h)⟩

theorem setKeyEvent_eq_setKeys (k : Key) (b : Bool) (s : State) : ∃ key, setKeyEvent k b s = { s with key := key } := by
  rcases s.halted.eq_false_or_eq_true with h | h
  · exact ⟨s.key, setKeyEvent_of_halted k b h⟩
  · exact ⟨_, setKeyEvent_of_not_halted k b h⟩

theorem readDisplayEvent_eq_setDirty (s : State) : ∃ dirty, (readDisplayEvent s).2 = { s with dirty := dirty } := by
  rcases s.halted.eq_false_or_eq_true with h | h
  · exact ⟨s.dirty, congrArg Prod.snd (readDisplayEvent_of_halted h)⟩
  · exact ⟨_, congrArg Prod.snd (readDisplayEvent_of_not_halted h)⟩

/-- Elements of which no invariant speaks. -/
theorem inv_setOthers {s : State} (h : s.Inv) (dt st : Byte) (key : Vector Bool 16) (dirty : Bool) (draws : Nat) :
    ({ s with dt := dt, st := st, key := key, dirty := dirty, draws := draws } : State).Inv where
  memory := memoryInv_of_eq h.memory rfl rfl
  lastSlot := h.lastSlot
  display := displayInv_of_eq h.display rfl rfl rfl rfl rfl
  report := reportInv_of_eq h.report rfl

theorem inv_writeBytes {s : State} (h : s.Inv) {a : Nat} {bs : List Byte} (hin : a + bs.length ≤ memSize s.target) :
    (s.writeBytes a bs).Inv where
  memory := memoryInv_writeBytes h.memory hin
  lastSlot := h.lastSlot
  display := displayInv_of_eq h.display rfl rfl rfl rfl rfl
  report := reportInv_of_eq h.report rfl

theorem inv_loadEvent {s : State} (h : s.Inv) (bytes : List Byte) : (loadEvent bytes s).2.Inv := by
  cases hhalted : s.halted
  · by_cases hfits : bytes.length ≤ memSize s.target - entryPoint
    · have hentry : entryPoint ≤ memSize s.target := by cases s.target <;> decide
      rw [loadEvent_of_fits hhalted hfits]
      exact inv_writeBytes h (by omega)
    · rw [loadEvent_of_too_large hhalted (Nat.lt_of_not_le hfits)]; exact h
  · rw [loadEvent_of_halted bytes hhalted]; exact h

/-- Every event answers a next state: only Step could not, and it does. -/
theorem applyEvent_eq_next (e : Event) (s : State) : ∃ r, applyEvent e s = .next r := by
  cases e with
  | step =>
    obtain ⟨t, hstep⟩ := step_eq_next s
    exact ⟨_, applyEvent_step_of_next hstep⟩
  | _ => exact ⟨_, rfl⟩

theorem inv_of_applyEvent {e : Event} {s : State} {r : State × Output} (hs : s.Inv) (h : applyEvent e s = .next r) :
    r.1.Inv := by
  cases e with
  | reset t => cases h; exact inv_setOthers (resetMeetsInvariant t) _ _ _ _ _
  | load bytes => cases h; exact inv_loadEvent hs bytes
  | step =>
    obtain ⟨t, hstep⟩ := step_eq_next s
    rw [applyEvent_step_of_next hstep] at h
    cases h
    exact stepKeepsInvariant s t hs hstep
  | tick =>
    cases h
    obtain ⟨dt, st, he⟩ := tickEvent_eq_setTimers s
    rw [he]
    exact inv_setOthers hs dt st s.key s.dirty s.draws
  | setKey k b =>
    cases h
    obtain ⟨key, he⟩ := setKeyEvent_eq_setKeys k b s
    rw [he]
    exact inv_setOthers hs s.dt s.st key s.dirty s.draws
  | readDisplay =>
    cases h
    obtain ⟨dirty, he⟩ := readDisplayEvent_eq_setDirty s
    rw [he]
    exact inv_setOthers hs s.dt s.st s.key dirty s.draws

/-- Settles O16, by induction on the events. -/
theorem eventsKeepInvariant : Obligations.EventsKeepInvariant := by
  intro es
  induction es with
  | nil => intro s t hs h; exact Host.Outcome.next.inj h ▸ hs
  | cons e es ih =>
    intro s t hs h
    obtain ⟨r, he⟩ := applyEvent_eq_next e s
    rw [runEvents_cons_of_next he] at h
    exact ih r.1 t (inv_of_applyEvent hs he) h

/-! ### The latch -/

/-- A Step with a key latched is FX0A's, which waits with the latch or completes without one (R192). -/
theorem latchInv_step_of_latched {s t : State} {k : Key} (hs : s.LatchInv) (hlatch : s.waitKey = some k)
    (hstep : step s = .next t) : t.LatchInv := by
  obtain ⟨hrun, hfetch, x, rest, hdec⟩ := hs (by simp [hlatch])
  rw [step_eq_exec_of_decode hrun hfetch hdec] at hstep
  cases hkey : s.key[k]
  · rw [exec_ldVxK_of_latched_up x hlatch hkey] at hstep
    cases hstep
    exact fun hne => absurd rfl hne
  · rw [exec_ldVxK_of_latched_down x hlatch hkey] at hstep
    exact Host.Outcome.next.inj hstep ▸ hs

/-- A Step that latches a key is FX0A's, which stays at pc (R192). -/
theorem latchInv_step_of_free {s t : State} (hfree : s.waitKey = none) (hstep : step s = .next t) : t.LatchInv := by
  intro hne
  rcases step_cases hstep with ⟨-, he⟩ | ⟨-, -, he⟩ | ⟨-, -, -, he⟩ | ⟨hrun, hfetch, i, rest, hdec, -, -, he⟩
  · cases he; exact absurd hfree hne
  · cases he; exact absurd hfree hne
  · cases he; exact absurd hfree hne
  · obtain ⟨-, -, -, -, -, -, -, -, -, hwriter, -⟩ := onlyNamedInstructionsWrite i s t he.symm
    obtain ⟨x, rfl⟩ := hwriter (hfree ▸ hne)
    rw [exec_ldVxK_of_no_latch x hfree] at he
    cases he
    exact ⟨hrun, hfetch, x, rest, hdec⟩

/-- Settles O17: Tick, SetKey and ReadDisplay change nothing that the latch depends on, and Reset clears it. -/
theorem latchedKeyMeansKeyWaitIsNext : Obligations.LatchedKeyMeansKeyWaitIsNext := by
  intro e s r hs hload h
  cases e with
  | reset t => cases h; exact fun hne => absurd rfl hne
  | load bytes => exact absurd rfl (hload bytes)
  | step =>
    obtain ⟨t, hstep⟩ := step_eq_next s
    rw [applyEvent_step_of_next hstep] at h
    cases h
    cases hlatch : s.waitKey with
    | none => exact latchInv_step_of_free hlatch hstep
    | some k => exact latchInv_step_of_latched hs hlatch hstep
  | tick =>
    cases h
    obtain ⟨dt, st, he⟩ := tickEvent_eq_setTimers s
    rw [he]
    exact hs
  | setKey k b =>
    cases h
    obtain ⟨key, he⟩ := setKeyEvent_eq_setKeys k b s
    rw [he]
    exact hs
  | readDisplay =>
    cases h
    obtain ⟨dirty, he⟩ := readDisplayEvent_eq_setDirty s
    rw [he]
    exact hs

end Sys2Proof.Machine

/-! Proofs about two draws of one sprite at one place (43_display.md R170). -/

namespace Sys2Proof.Machine

open Sys2Proof.Claims

section SecondDraw

variable (s : State) {x y : Reg} (n : Nibble) (hx : x ≠ 15) (hy : y ≠ 15)

theorem side_afterDraw : side (afterDraw s x y n) = side s := by
  rw [side, (afterDraw_mode_bitplane s x y n).1, side]

theorem spriteInMemory_afterDraw : spriteInMemory (afterDraw s x y n) n ↔ spriteInMemory s n := by
  rw [afterDraw_eq]; exact Iff.rfl

include hx hy in
/-- The first draw leaves I, the sprite's bytes and both coordinates, so the second lands where it did. -/
theorem spriteLands_afterDraw (p : PlaneId) (lx ly : Nat) :
    spriteLands (afterDraw s x y n) x y n p lx ly ↔ spriteLands s x y n p lx ly := by
  have hframe := displayFrame_afterDraw s x y n
  have hbase : spriteBase (afterDraw s x y n) n p = spriteBase s n p := by
    rw [afterDraw_eq]; cases p <;> rfl
  have hvx := hframe.regs x (by simpa using hx)
  have hvy := hframe.regs y (by simpa using hy)
  simp only [spriteLands, hbase, hframe.memory _, hframe.control.target, hvx, hvy, side_afterDraw]

include hx hy in
/-- A pixel that is hit is hit twice, at its block's corner. -/
theorem plane_afterDraw_afterDraw (p : PlaneId) (huniform : s.mode = .lores → Plane.Uniform (s.plane p)) :
    (afterDraw (afterDraw s x y n) x y n).plane p = s.plane p := by
  refine Plane.ext_bit fun yy xx hyy hxx => ?_
  have hmask : (afterDraw s x y n).bitplane = s.bitplane := (afterDraw_mode_bitplane s x y n).2
  have hside := side_afterDraw s (x := x) (y := y) n
  have hsecond : Hit (afterDraw s x y n) x y n p yy xx ↔ Hit s x y n p yy xx := by
    rw [Hit, Hit, hmask, spriteLands_afterDraw s n hx hy, hside]
  show pixel (afterDraw (afterDraw s x y n) x y n) p yy xx = pixel s p yy xx
  by_cases hhit : Hit s x y n p yy xx
  · rw [pixel_afterDraw_of_hit hyy hxx (hsecond.2 hhit), hside, pixel_afterDraw_corner_of_hit hyy hxx hhit,
      Bool.not_not, pixel_corner huniform hyy hxx]
  · rw [pixel_afterDraw_of_miss hyy hxx (mt hsecond.1 hhit), pixel_afterDraw_of_miss hyy hxx hhit]

end SecondDraw

/-- Settles O48: both draws are made and undo each other, or both raise. -/
theorem drawingTwiceRestoresPicture : Obligations.DrawingTwiceRestoresPicture := by
  intro s t u x y n huniform hx hy ht hu
  by_cases hin : spriteInMemory s n
  · rw [exec_drw_of_spriteInMemory x y hin] at ht
    cases ht
    rw [exec_drw_of_spriteInMemory x y ((spriteInMemory_afterDraw s n).2 hin)] at hu
    cases hu
    exact ⟨plane_afterDraw_afterDraw s n hx hy .p1 fun hm => (huniform hm).1,
      plane_afterDraw_afterDraw s n hx hy .p2 fun hm => (huniform hm).2⟩
  · rw [exec_drw_of_not_spriteInMemory x y hin] at ht
    cases ht
    rw [exec_drw_of_not_spriteInMemory x y (s := s.raised _ _) hin] at hu
    cases hu
    exact ⟨rfl, rfl⟩

end Sys2Proof.Machine

/-! Proofs about the call stack as a list of addresses (10_state.md R25): pushes and pops in a row, and a call with the
return that ends it (40_control_flow.md R100, R102). -/

namespace Sys2Proof.Machine

open Sys2Proof.Claims

/-- The same count, and the same entries in use, whatever the slots above hold. -/
def SameEntries (s u : State) : Prop := u.sp = s.sp ∧ ∀ j : Fin 16, j.val < s.sp.val → u.stack[j] = s.stack[j]

theorem push_of_room (w : Word) {s : State} (h : s.sp ≠ 15) :
    s.push w = some { s with stack := s.stack.set s.sp w, sp := s.sp + 1 } := if_neg h

theorem val_sp_add_one {s : State} (h : s.sp ≠ 15) : (s.sp + 1).val = s.sp.val + 1 :=
  Fin.val_add_one_of_lt (Fin.lt_last_iff_ne_last.2 h)

/-- What was pushed is popped from every state with the entries that the push left. -/
theorem pop_of_push {s t v : State} {w : Word} (hpush : s.push w = some t) (hv : SameEntries t v) :
    ∃ u, v.pop = some (w, u) ∧ SameEntries s u := by
  rcases push_cases hpush with ⟨-, he⟩ | ⟨hroom, he⟩
  · cases he
  cases he
  obtain ⟨hsp, hstack⟩ := hv
  have hsub : v.sp - 1 = s.sp := hsp ▸ add_sub_cancel_right s.sp 1
  have hval := val_sp_add_one hroom
  have hne : v.sp ≠ 0 := fun h0 => Nat.succ_ne_zero _ (hval.symm.trans (congrArg Fin.val (hsp.symm.trans h0)))
  refine ⟨{ v with sp := v.sp - 1 }, ?_, hsub, fun j hj => ?_⟩
  · have htop : v.stack[v.sp - 1] = w :=
      calc v.stack[v.sp - 1]
        _ = v.stack[s.sp] := by simp only [Fin.getElem_fin, hsub]
        _ = (s.stack.set s.sp w)[s.sp] := hstack s.sp (by rw [hval]; exact Nat.lt_succ_self _)
        _ = w := Vector.getElem_set_self s.sp.isLt
    rw [State.pop, if_neg hne, htop]
  · rw [hstack j (by rw [hval]; omega)]
    exact Vector.getElem_set_ne s.sp.isLt j.isLt (Nat.ne_of_gt hj)

theorem popAll_succ_of_pop {n : Nat} {s u v : State} {l : List Word} {w : Word} (h : popAll n s = some (l, u))
    (hpop : u.pop = some (w, v)) : popAll (n + 1) s = some (l ++ [w], v) := by
  induction n generalizing s l with
  | zero => cases h; simp [popAll, hpop]
  | succ n ih =>
    obtain ⟨⟨w', s'⟩, hs', h⟩ := Option.bind_eq_some_iff.1 h
    obtain ⟨⟨l', u'⟩, hl', he⟩ := Option.map_eq_some_iff.1 h
    cases he
    rw [popAll, hs', Option.bind_some, ih hl']
    rfl

theorem pushAll_then_popAll (ws : List Word) (s : State) (h : s.sp.val + ws.length ≤ 15) :
    ∃ t, pushAll ws s = some t ∧
      ∀ v, SameEntries t v → ∃ u, popAll ws.length v = some (ws.reverse, u) ∧ SameEntries s u := by
  induction ws generalizing s with
  | nil => exact ⟨s, rfl, fun v hv => ⟨v, rfl, hv⟩⟩
  | cons w ws ih =>
    rw [List.length_cons] at h
    have hroom : s.sp ≠ 15 := Fin.ne_of_val_ne (show s.sp.val ≠ 15 by omega)
    have hpush := push_of_room w hroom
    obtain ⟨t, ht, hpops⟩ := ih { s with stack := s.stack.set s.sp w, sp := s.sp + 1 }
      (by show (s.sp + 1).val + _ ≤ _; rw [val_sp_add_one hroom]; omega)
    refine ⟨t, by rw [pushAll, hpush]; exact ht, fun v hv => ?_⟩
    obtain ⟨u, hu, hsame⟩ := hpops v hv
    obtain ⟨u', hpop, hsame'⟩ := pop_of_push hpush hsame
    exact ⟨u', by rw [List.reverse_cons]; exact popAll_succ_of_pop hu hpop, hsame'⟩

theorem pushAll_eq_none (ws : List Word) (s : State) (h : 15 < s.sp.val + ws.length) : pushAll ws s = none := by
  induction ws generalizing s with
  | nil => rw [List.length_nil] at h; omega
  | cons w ws ih =>
    rw [List.length_cons] at h
    by_cases hfull : s.sp = 15
    · rw [pushAll, State.push, if_pos hfull]; rfl
    · rw [pushAll, push_of_room w hfull]
      exact ih _ (by show _ < (s.sp + 1).val + _; rw [val_sp_add_one hfull]; omega)

/-- Settles O24, by induction on the addresses: the last one pushed is the first one popped. -/
theorem stackIsLifo : Obligations.StackIsLifo := by
  refine fun ws s => ⟨fun h => ?_, pushAll_eq_none ws s⟩
  obtain ⟨t, ht, hpops⟩ := pushAll_then_popAll ws s h
  obtain ⟨u, hu, hsame⟩ := hpops t ⟨rfl, fun _ _ => rfl⟩
  exact ⟨t, u, ht, hu, hsame.1⟩

/-- Settles O25: RET pops what CALL pushed. -/
theorem callThenReturnComesBack : Obligations.CallThenReturnComesBack := by
  intro nnn s t v hroom hcall hsp hstack
  rw [exec_call_of_room nnn hroom] at hcall
  cases hcall
  obtain ⟨u, hpop, hsame⟩ := pop_of_push (push_of_room s.nextPc hroom) (v := v) ⟨hsp, hstack⟩
  refine ⟨{ u with pc := s.nextPc }, ?_, rfl, hsame.1⟩
  show execRet v = _
  rw [execRet, hpop]

end Sys2Proof.Machine

/-! Proofs about memories in canonical form (20_memory.md R60; log 6). -/

namespace Sys2Proof.Machine

open Sys2Proof.Claims

/-- A canonical memory lists exactly the bytes that differ from their reset contents. -/
theorem Memory.mem_iff_read {m : Memory} (h : m.wf) (c : Host.Cell) :
    c ∈ m ↔ m.read c.1 = c.2 ∧ c.2 ≠ Memory.resetByte c.1 := by
  refine ⟨fun hc => ⟨Memory.read_of_mem h hc, h.2 c hc⟩, fun ⟨hread, hne⟩ => ?_⟩
  by_contra hc
  refine hne (hread ▸ Memory.read_of_unlisted fun d hd haddr => hc ?_)
  have hbyte : d.2 = c.2 := by rw [← hread, ← haddr, Memory.read_of_mem h hd]
  exact Prod.ext haddr hbyte ▸ hd

theorem Memory.nodup_of_wf {m : Memory} (h : m.wf) : m.Nodup :=
  h.1.imp (by rintro c _ hlt rfl; exact Nat.lt_irrefl _ hlt)

/-- Settles O41: the two list the same cells, and both in rising order. -/
theorem canonicalMemoriesAreEqual : Obligations.CanonicalMemoriesAreEqual := by
  intro m n hm hn hread
  have hperm : m.Perm n := (List.perm_ext_iff_of_nodup (Memory.nodup_of_wf hm) (Memory.nodup_of_wf hn)).2 fun c => by
    rw [Memory.mem_iff_read hm, Memory.mem_iff_read hn, hread]
  exact hperm.eq_of_pairwise (fun _ _ _ _ hlt hgt => absurd hgt (Nat.lt_asymm hlt)) hm.1 hn.1

end Sys2Proof.Machine

/-! Proofs about the Step that fetches or decodes nothing, the halted core and the jump to itself (30_encoding.md R84;
60_exceptions.md R212, R214; 70_reset_and_hazards.md R263), and about the random byte (41_load_arith_logic.md R133). -/

namespace Sys2Proof.Machine

open Sys2Proof.Claims

/-! ### Fetch and decode that fail -/

theorem step_of_fetch_outside {s : State} (hrun : s.halted = false) (hout : ¬s.CanFetch) :
    step s = .next (s.raised .memoryOutOfRange 0) := by
  rcases step_cases (s := s) rfl with ⟨hhalted, -⟩ | ⟨-, -, he⟩ | ⟨-, hin, -⟩ | ⟨-, hin, -⟩
  · simp [hrun] at hhalted
  · exact he
  · exact absurd hin hout
  · exact absurd hin hout

theorem step_of_reject {s : State} {e : DecodeError} (hrun : s.halted = false) (hfetch : s.CanFetch)
    (hdec : decode s.fetchBytes = .reject e) : step s = .next (s.raised .unimplemented (s.wordAt s.pc.toNat)) := by
  rcases step_cases (s := s) rfl with ⟨hhalted, -⟩ | ⟨-, hout, -⟩ | ⟨-, -, -, he⟩ | ⟨-, -, i, rest, hinstr, -⟩
  · simp [hrun] at hhalted
  · exact absurd hfetch hout
  · exact he
  · rw [hdec] at hinstr; cases hinstr

/-- Settles O6: of all that a Step can do, only the failed fetch is left. -/
theorem fetchOutsideMemoryRaises : Obligations.FetchOutsideMemoryRaises := fun s hrun hout =>
  ⟨_, step_of_fetch_outside hrun (Nat.not_lt.2 hout), raisedFrom_raised s _ _⟩

/-! ### Cores that stay where they are -/

/-- Settles O8: the halted branch of each event; Reset has none. -/
theorem haltedCoreIgnoresEvents : Obligations.HaltedCoreIgnoresEvents := fun _ h =>
  ⟨step_of_halted h, tickEvent_of_halted h, fun bytes => loadEvent_of_halted bytes h,
    fun k b => setKeyEvent_of_halted k b h, readDisplayEvent_of_halted h, fun _ => rfl⟩

/-- Settles O59: 1NNN with NNN = pc writes pc alone, and writes what was there. -/
theorem selfJumpStaysForever : Obligations.SelfJumpStaysForever := by
  intro s n ⟨hrun, nnn, hpc, hdec⟩ hfetch
  have hstep : step s = .next s :=
    calc step s
      _ = exec (.jp nnn) s := step_eq_exec_of_decode hrun hfetch hdec
      _ = .next { s with pc := zeroExtend nnn } := rfl
      _ = .next s := by rw [hpc]
  induction n with
  | zero => rfl
  | succ n ih => exact (core_run_succ hstep).trans ih

/-! ### The random byte -/

/-- Settles O32: masked by NN, the byte has no bit of NN's complement. -/
theorem randomByteIsMasked : Obligations.RandomByteIsMasked := by
  intro s x nn
  have hvx := State.reg_setReg_same s.advance x (Config.rnd s.draws &&& nn)
  have hframe := (registerFrame_advance_setReg s x (Config.rnd s.draws &&& nn)).regs
  refine ⟨_, rfl, hvx, ?_, rfl, rfl, registerFrame_of_sameRegsBut hframe⟩
  calc _ = (Config.rnd s.draws &&& nn) &&& ~~~nn := congrArg (· &&& ~~~nn) hvx
    _ = Config.rnd s.draws &&& (nn &&& ~~~nn) := BitVec.and_assoc ..
    _ = 0 := by simp

end Sys2Proof.Machine

/-! Proofs about the state after Reset (10_state.md R39; 20_memory.md R66; 70_reset_and_hazards.md R240) and about the
first Step, without and with a Load before it (R243, R248). -/

namespace Sys2Proof.Machine

open Sys2Proof.Claims

/-! ### The table of reset values -/

theorem pixel_resetEvent (t : Target) (s : State) (p : PlaneId) (y x : Nat) : pixel (resetEvent t s) p y x = false := by
  cases p <;> exact Plane.bit_blank y x

/-- Settles O52: the vectors are zero at every index, and every other element is the table's as it stands. -/
theorem resetLeavesTheTableValues : Obligations.ResetLeavesTheTableValues := fun t s =>
  ⟨fun x => Vector.getElem_replicate x.isLt, rfl, rfl, fun j => Vector.getElem_replicate j.isLt, rfl, rfl, rfl,
    pixel_resetEvent t s, rfl, rfl, rfl, fun k => Vector.getElem_replicate k.isLt, rfl, rfl, rfl, rfl⟩

/-- Outside both font tables memory is 0 after Reset (R240). -/
theorem Memory.resetByte_outside {a : Nat}
    (hsmall : ¬(Config.fonts.smallBase ≤ a ∧ a < Config.fonts.smallBase + smallFontSize))
    (hbig : ¬(Config.fonts.bigBase ≤ a ∧ a < Config.fonts.bigBase + Config.fonts.bigSize)) :
    Memory.resetByte a = 0 := by
  rw [Memory.resetByte, if_neg hsmall, if_neg hbig, ite_self]

/-- Settles O53: memory lists nothing after Reset, so each address reads as its reset contents. -/
theorem resetMemoryHoldsOnlyFonts : Obligations.ResetMemoryHoldsOnlyFonts := by
  refine ⟨fun t s a => ⟨?_, ?_, fun hsmall hbig => ?_⟩, Config.small_below_entry, Config.big_below_entry,
    Config.fonts_valid.1, Config.fonts_disjoint⟩
  · rintro j hj rfl; exact Memory.resetByte_small hj
  · rintro j hj rfl; exact Memory.resetByte_big hj
  · exact Memory.resetByte_outside (fun ⟨hlow, hhigh⟩ => hsmall.elim (Nat.not_lt.2 hlow) (Nat.not_le.2 hhigh))
      fun ⟨hlow, hhigh⟩ => hbig.elim (Nat.not_lt.2 hlow) (Nat.not_le.2 hhigh)

/-! ### The first Step -/

theorem canFetch_resetEvent (t : Target) (s : State) : (resetEvent t s).CanFetch := by
  show 0x201 < memSize t
  cases t <;> decide

theorem byteAt_resetEvent_high {t : Target} {s : State} {a : Nat} (h : entryPoint ≤ a) :
    (resetEvent t s).byteAt a = 0 := Memory.resetByte_high h

/-- Settles O58: the fonts lie below 0x200, so the word there is 0, which matches no row. -/
theorem bareResetHaltsAtFirstStep : Obligations.BareResetHaltsAtFirstStep := by
  intro t s
  have hbyte (k : Nat) : (resetEvent t s).byteAt (0x200 + k) = 0 := byteAt_resetEvent_high (Nat.le_add_right ..)
  have hbytes : (resetEvent t s).fetchBytes = [0, 0, 0, 0] := by
    show [_, _, _, _] = _
    exact congrArg₂ List.cons (hbyte 0)
      (congrArg₂ List.cons (hbyte 1) (congrArg₂ List.cons (hbyte 2) (congrArg₂ List.cons (hbyte 3) rfl)))
  have hword : (resetEvent t s).wordAt 0x200 = 0 := congrArg₂ wordOfBytes (hbyte 0) (hbyte 1)
  have hdec : decode (resetEvent t s).fetchBytes = .reject (.unmatched 0) := by rw [hbytes]; decide
  refine ⟨_, step_of_reject rfl (canFetch_resetEvent t s) hdec, ?_, rfl⟩
  exact hword ▸ raisedFrom_raised _ _ _

theorem length_encode_le (i : Instr) : (encode i).length ≤ 4 := by
  by_cases h : ∃ n, i = .ldl n
  · obtain ⟨n, rfl⟩ := h; exact Nat.le_refl 4
  · rw [encode_of_ne_ldl (not_exists.1 h)]; exact Nat.le_of_ble_eq_true rfl

/-- The bytes of an instruction in memory at 0x200 are at the head of what the decoder is given there. -/
theorem fetchBytes_eq_encode_append {s : State} {i : Instr} (hpc : s.pc = 0x200)
    (h : ∀ k (hk : k < (encode i).length), s.byteAt (0x200 + k) = (encode i)[k]) :
    ∃ rest, s.fetchBytes = encode i ++ rest := by
  have hmap : s.fetchBytes = (List.range 4).map fun k => s.byteAt (0x200 + k) := by
    simp only [State.fetchBytes, State.operandAddr, State.nextPc, hpc]; rfl
  have htake : s.fetchBytes.take (encode i).length = encode i := by
    refine List.ext_getElem ?_ fun k hk hk' => ?_
    · simpa [hmap] using length_encode_le i
    · simp only [hmap, List.getElem_take, List.getElem_map, List.getElem_range]; exact h k hk'
  refine ⟨s.fetchBytes.drop (encode i).length, ?_⟩
  calc s.fetchBytes
    _ = s.fetchBytes.take (encode i).length ++ s.fetchBytes.drop (encode i).length := (List.take_append_drop ..).symm
    _ = encode i ++ s.fetchBytes.drop (encode i).length := by rw [htake]

/-- Settles O57: the image begins with the instruction's bytes, and they decode to it whatever follows. -/
theorem firstStepRunsLoadedInstruction : Obligations.FirstStepRunsLoadedInstruction := by
  intro t s i more hwf hfits
  rw [loadEvent_of_fits (s := resetEvent t s) rfl hfits]
  obtain ⟨rest, hbytes⟩ := fetchBytes_eq_encode_append
    (s := (resetEvent t s).writeBytes entryPoint (encode i ++ more)) (i := i) rfl fun k hk => by
      rw [← List.getElem_append_left (bs := more) hk]
      exact State.byteAt_writeBytes_inside _ entryPoint _ k (by rw [List.length_append]; omega)
  exact step_eq_exec_of_decode rfl (canFetch_resetEvent t s) (hbytes ▸ encodedInstructionDecodesBack i rest hwf)

end Sys2Proof.Machine
